-- ==== Sys2Proof/Word.lean ====
section
/-! DEFINITION. The machine's words (00_scope.md R4, 92_eei_decisions.md D2). -/

namespace Sys2Proof

/-- A byte, the unit of addressing (R4 `BYTE_BITS`). -/
abbrev Byte := BitVec 8

/-- A 24-bit word: the width of A, X, L, B, S, T, PC and SW, and of three bytes of memory (R4, R10). -/
abbrev Word := BitVec 24

/-- A 48-bit floating-point value: the width of F (R4, R16). -/
abbrev Float48 := BitVec 48

end Sys2Proof
end

