-- ==== Sys2Proof/Syntax.lean ====
section
/-! DEFINITION. The instructions of the source's table (30_encoding.md R80), the forms of their operand
(R64 to R66) and the register names (10_state.md R10). -/

namespace Sys2Proof

/-- The nine registers of the source's table (10_state.md R10). -/
inductive Reg where
  | a | x | l | b | s | t | f | pc | sw
deriving DecidableEq, Repr

/-- The 26 mnemonics of the source's instruction table, in the order of their opcodes (30_encoding.md
R80, R81). -/
inductive Mnemonic where
  | lda | ldx | ldl | sta | stx | stl | add | sub | mul | div | comp | tix | jeq | jgt | jlt | j
  | and | or | jsub | rsub | ldch | stch | rd | wd | td | stsw
deriving DecidableEq, Repr

/-- How an instruction uses its operand (30_encoding.md R76). -/
inductive OperandClass where
  /-- the contents `(m..m+2)` -/
  | word
  /-- the contents `(m)` -/
  | byte
  /-- the location `m` itself -/
  | loc
  /-- no operand -/
  | none
deriving DecidableEq, Repr

/-- How the target address is used (30_encoding.md R75). -/
inductive Addressing where
  | simple | immediate | indirect
deriving DecidableEq, Repr

/-- What the field of the instruction is relative to (30_encoding.md R70 to R72). -/
inductive Relative where
  | direct | base | pc
deriving DecidableEq, Repr

/-- The operand part of an instruction in its three forms, every bit of them but the opcode. In Formats
3 and 4 the flags n and i are not both 0 (30_encoding.md R66, R69), so they stand as the addressing they
select. -/
inductive Operand where
  /-- the standard-SIC form, n = i = 0: x and a 15-bit address (R66) -/
  | sic (x : Bool) (addr15 : BitVec 15)
  /-- Format 3, e = 0 (R64) -/
  | f3 (ni : Addressing) (x b p : Bool) (disp : BitVec 12)
  /-- Format 4, e = 1 (R65) -/
  | f4 (ni : Addressing) (x b p : Bool) (addr20 : BitVec 20)
deriving DecidableEq, Repr

/-- The instructions, one constructor for each instruction of the table (R80). The table's three rows
of an instruction (R83: SIC form, Format 3, Format 4) are the three constructors of `Operand` (log 20).
RSUB has no operand but carries its bits, which it ignores (42_compare_jump.md R149). -/
inductive Instr where
  | lda (o : Operand)
  | ldx (o : Operand)
  | ldl (o : Operand)
  | sta (o : Operand)
  | stx (o : Operand)
  | stl (o : Operand)
  | add (o : Operand)
  | sub (o : Operand)
  | mul (o : Operand)
  | div (o : Operand)
  | comp (o : Operand)
  | tix (o : Operand)
  | jeq (o : Operand)
  | jgt (o : Operand)
  | jlt (o : Operand)
  | j (o : Operand)
  | and (o : Operand)
  | or (o : Operand)
  | jsub (o : Operand)
  | rsub (o : Operand)
  | ldch (o : Operand)
  | stch (o : Operand)
  | rd (o : Operand)
  | wd (o : Operand)
  | td (o : Operand)
  | stsw (o : Operand)
deriving DecidableEq, Repr

end Sys2Proof
end

