-- ==== Sys2Proof/Decode.lean ====
section
/-! DEFINITION. From bytes to instructions and back (30_encoding.md R60 to R69, R80 to R83), and the
check of the flags (R74). -/

namespace Sys2Proof

/-! ### The source's table (R80) -/

/-- The 8-bit opcode of a mnemonic (R80, R81). -/
def Mnemonic.opcode : Mnemonic → Byte
  | .lda  => 0x00#8
  | .ldx  => 0x04#8
  | .ldl  => 0x08#8
  | .sta  => 0x0C#8
  | .stx  => 0x10#8
  | .stl  => 0x14#8
  | .add  => 0x18#8
  | .sub  => 0x1C#8
  | .mul  => 0x20#8
  | .div  => 0x24#8
  | .comp => 0x28#8
  | .tix  => 0x2C#8
  | .jeq  => 0x30#8
  | .jgt  => 0x34#8
  | .jlt  => 0x38#8
  | .j    => 0x3C#8
  | .and  => 0x40#8
  | .or   => 0x44#8
  | .jsub => 0x48#8
  | .rsub => 0x4C#8
  | .ldch => 0x50#8
  | .stch => 0x54#8
  | .rd   => 0xD8#8
  | .wd   => 0xDC#8
  | .td   => 0xE0#8
  | .stsw => 0xE8#8

/-- The operand class of a mnemonic (R76). -/
def Mnemonic.operandClass : Mnemonic → OperandClass
  | .lda | .ldx | .ldl | .add | .sub | .mul | .div | .comp | .tix | .and | .or => .word
  | .ldch | .rd | .td | .wd => .byte
  | .sta | .stx | .stl | .stch | .stsw | .j | .jeq | .jgt | .jlt | .jsub => .loc
  | .rsub => .none

/-- The source's mark P (R80, 43_io_system.md R162). -/
def Mnemonic.privileged : Mnemonic → Bool
  | .rd | .td | .wd | .stsw => true
  | _ => false

/-- The source's mark C: the instruction sets the condition code (R80, 10_state.md R21). -/
def Mnemonic.setsCC : Mnemonic → Bool
  | .comp | .tix | .td => true
  | _ => false

/-- Every mnemonic, in the order of the opcodes (R81). -/
def Mnemonic.all : List Mnemonic :=
  [.lda, .ldx, .ldl, .sta, .stx, .stl, .add, .sub, .mul, .div, .comp, .tix, .jeq, .jgt, .jlt, .j,
   .and, .or, .jsub, .rsub, .ldch, .stch, .rd, .wd, .td, .stsw]

/-- The 6-bit `op` field: the opcode's top six bits (R68). -/
def Mnemonic.op (m : Mnemonic) : BitVec 6 := m.opcode.extractLsb' 2 6

/-- The mnemonic that the first byte of an instruction selects, by its top six bits (R67, R68); none
for the 38 unassigned values (R81, R82). -/
def Mnemonic.ofByte? (b0 : Byte) : Option Mnemonic :=
  Mnemonic.all.find? fun m => m.op == b0.extractLsb' 2 6

/-- The mnemonic of an instruction. -/
def Instr.mnemonic : Instr → Mnemonic
  | .lda _ => .lda
  | .ldx _ => .ldx
  | .ldl _ => .ldl
  | .sta _ => .sta
  | .stx _ => .stx
  | .stl _ => .stl
  | .add _ => .add
  | .sub _ => .sub
  | .mul _ => .mul
  | .div _ => .div
  | .comp _ => .comp
  | .tix _ => .tix
  | .jeq _ => .jeq
  | .jgt _ => .jgt
  | .jlt _ => .jlt
  | .j _ => .j
  | .and _ => .and
  | .or _ => .or
  | .jsub _ => .jsub
  | .rsub _ => .rsub
  | .ldch _ => .ldch
  | .stch _ => .stch
  | .rd _ => .rd
  | .wd _ => .wd
  | .td _ => .td
  | .stsw _ => .stsw

/-- The operand part of an instruction. -/
def Instr.operand : Instr → Operand
  | .lda o | .ldx o | .ldl o | .sta o | .stx o | .stl o | .add o | .sub o | .mul o | .div o
  | .comp o | .tix o | .jeq o | .jgt o | .jlt o | .j o | .and o | .or o | .jsub o | .rsub o
  | .ldch o | .stch o | .rd o | .wd o | .td o | .stsw o => o

/-- The instruction of a mnemonic and an operand part. -/
def Mnemonic.instr : Mnemonic → Operand → Instr
  | .lda => .lda
  | .ldx => .ldx
  | .ldl => .ldl
  | .sta => .sta
  | .stx => .stx
  | .stl => .stl
  | .add => .add
  | .sub => .sub
  | .mul => .mul
  | .div => .div
  | .comp => .comp
  | .tix => .tix
  | .jeq => .jeq
  | .jgt => .jgt
  | .jlt => .jlt
  | .j => .j
  | .and => .and
  | .or => .or
  | .jsub => .jsub
  | .rsub => .rsub
  | .ldch => .ldch
  | .stch => .stch
  | .rd => .rd
  | .wd => .wd
  | .td => .td
  | .stsw => .stsw

/-! ### The fields of the operand part (R64 to R66) -/

/-- The flags n and i of `B0` (R64, R65): both 0 selects the standard-SIC form (R66). -/
def addressingOf (b0 : Byte) : Option Addressing :=
  if b0.getLsbD 1 then
    if b0.getLsbD 0 then some .simple else some .indirect
  else if b0.getLsbD 0 then some .immediate
  else none

/-- Whether the instruction is 4 bytes long: n and i not both 0 and e = 1 (R67, R69). -/
def isFormat4 (b0 b1 : Byte) : Bool :=
  (addressingOf b0).isSome && b1.getLsbD 4

/-- The operand part in the bytes of an instruction (R67). `b3` is looked at in Format 4 only. -/
def decodeOperand (b0 b1 b2 b3 : Byte) : Operand :=
  match addressingOf b0 with
  | none => .sic (b1.getLsbD 7) (b1.extractLsb' 0 7 ++ b2)
  | some ni =>
    if b1.getLsbD 4 then
      .f4 ni (b1.getLsbD 7) (b1.getLsbD 6) (b1.getLsbD 5) (b1.extractLsb' 0 4 ++ b2 ++ b3)
    else
      .f3 ni (b1.getLsbD 7) (b1.getLsbD 6) (b1.getLsbD 5) (b1.extractLsb' 0 4 ++ b2)

/-- The length of an instruction in bytes, by the form of its operand part (R67, R69). -/
def Operand.length : Operand → Nat
  | .sic _ _ => 3
  | .f3 _ _ _ _ _ => 3
  | .f4 _ _ _ _ _ => 4

/-- How the operand part uses the target address: n = i is simple (R75). -/
def Operand.addressing : Operand → Addressing
  | .sic _ _ => .simple
  | .f3 ni _ _ _ _ => ni
  | .f4 ni _ _ _ _ => ni

/-- The flag x (R73). -/
def Operand.indexed : Operand → Bool
  | .sic x _ => x
  | .f3 _ x _ _ _ => x
  | .f4 _ x _ _ _ => x

/-- What the flags b and p make the field relative to; none for R74 a and b. -/
def Operand.relative? : Operand → Option Relative
  | .sic _ _ => some .direct
  | .f3 _ _ b p _ =>
    match b, p with
    | false, false => some .direct
    | true, false => some .base
    | false, true => some .pc
    | true, true => none
  | .f4 _ _ b p _ => if b || p then none else some .direct

/-! ### The check of the flags (R74, R78) -/

/-- What the operand is relative to when R74 allows its flags for the mnemonic: none is condition a or b
(no `relative?`), c (indexing that is not simple) or d (an immediate location). -/
def legalRelative (m : Mnemonic) (o : Operand) : Option Relative :=
  if o.indexed && o.addressing != .simple then none
  else if o.addressing == .immediate && m.operandClass == .loc then none
  else o.relative?

/-- R74: the flags of the operand are legal for the mnemonic. RSUB is exempt (42_compare_jump.md R149). -/
def flagsLegal (m : Mnemonic) (o : Operand) : Bool :=
  m.operandClass == .none || (legalRelative m o).isSome

/-! ### Decoding (R67, R68) -/

/-- Why bytes are no instruction. -/
inductive Reject where
  /-- there is no byte at all -/
  | noByte
  /-- the top six bits of the first byte are none of the 26 assigned values (R82) -/
  | unassignedOpcode (b0 : Byte)
  /-- the instruction is longer than the bytes given -/
  | tooShort (m : Mnemonic)
deriving DecidableEq, Repr

/-- The instruction at the head of a list of bytes, and the bytes after it. Legality of the flags is
no part of decoding (10_state.md R18: steps 3 and 5). -/
def decode : List Byte → Except Reject (Instr × List Byte)
  | [] => .error .noByte
  | b0 :: rest =>
    match Mnemonic.ofByte? b0 with
    | none => .error (.unassignedOpcode b0)
    | some m =>
      match rest with
      | b1 :: b2 :: rest' =>
        if isFormat4 b0 b1 then
          match rest' with
          | b3 :: rest'' => .ok (m.instr (decodeOperand b0 b1 b2 b3), rest'')
          | [] => .error (.tooShort m)
        else .ok (m.instr (decodeOperand b0 b1 b2 0#8), rest')
      | _ => .error (.tooShort m)

/-! ### Encoding -/

/-- The flags n and i of an addressing in Formats 3 and 4 (R75). -/
def Addressing.ni : Addressing → BitVec 2
  | .simple => 0b11#2
  | .immediate => 0b01#2
  | .indirect => 0b10#2

/-- The bytes of a mnemonic with an operand part, first byte first (R64 to R66). -/
def encodeParts (m : Mnemonic) : Operand → List Byte
  | .sic x addr15 =>
    [m.op ++ 0b00#2,
     BitVec.ofBool x ++ addr15.extractLsb' 8 7,
     addr15.extractLsb' 0 8]
  | .f3 ni x b p disp =>
    [m.op ++ ni.ni,
     BitVec.ofBool x ++ BitVec.ofBool b ++ BitVec.ofBool p ++ 0#1 ++ disp.extractLsb' 8 4,
     disp.extractLsb' 0 8]
  | .f4 ni x b p addr20 =>
    [m.op ++ ni.ni,
     BitVec.ofBool x ++ BitVec.ofBool b ++ BitVec.ofBool p ++ 1#1 ++ addr20.extractLsb' 16 4,
     addr20.extractLsb' 8 8,
     addr20.extractLsb' 0 8]

/-- The bytes of an instruction, first byte first. -/
def encode (i : Instr) : List Byte := encodeParts i.mnemonic i.operand

/-! ### Formats 1 and 2: a layout without an instruction (R61 to R63) -/

/-- The one field of Format 1 (R61). -/
def format1Op (b0 : Byte) : Byte := b0

/-- The fields op, r1 and r2 of Format 2 (R62). -/
def format2Fields (b0 b1 : Byte) : Byte × BitVec 4 × BitVec 4 :=
  (b0, b1.extractLsb' 4 4, b1.extractLsb' 0 4)

/-- The number of a register (10_state.md R10, R24). -/
def Reg.number : Reg → BitVec 4
  | .a => 0#4
  | .x => 1#4
  | .l => 2#4
  | .b => 3#4
  | .s => 4#4
  | .t => 5#4
  | .f => 6#4
  | .pc => 8#4
  | .sw => 9#4

/-- The register a number names; 7 and 10 to 15 name none (10_state.md R24). -/
def Reg.ofNumber? (n : BitVec 4) : Option Reg :=
  [Reg.a, .x, .l, .b, .s, .t, .f, .pc, .sw].find? fun r => r.number == n

/-! ### Naming a refused first byte (93_implementation_defined.md section 3) -/

/-- PRESUMED (log 21): the instruction of full SIC/XE, not in the source, that a first byte would begin.
For a diagnostic only: every such byte raises IllegalInstruction (R82). -/
def unlistedName (b0 : Byte) : Option String :=
  match (b0 &&& 0xFC#8).toNat with
  | 0x58 => some "ADDF"
  | 0x88 => some "COMPF"
  | 0x64 => some "DIVF"
  | 0x68 => some "LDB"
  | 0x70 => some "LDF"
  | 0x6C => some "LDS"
  | 0x74 => some "LDT"
  | 0xD0 => some "LPS"
  | 0x60 => some "MULF"
  | 0xEC => some "SSK"
  | 0x78 => some "STB"
  | 0x80 => some "STF"
  | 0xD4 => some "STI"
  | 0x7C => some "STS"
  | 0x84 => some "STT"
  | 0x5C => some "SUBF"
  | _ =>
    match b0.toNat with
    | 0x90 => some "ADDR"
    | 0xB4 => some "CLEAR"
    | 0xA0 => some "COMPR"
    | 0x9C => some "DIVR"
    | 0x98 => some "MULR"
    | 0xAC => some "RMO"
    | 0xA4 => some "SHIFTL"
    | 0xA8 => some "SHIFTR"
    | 0x94 => some "SUBR"
    | 0xB0 => some "SVC"
    | 0xB8 => some "TIXR"
    | 0xC4 => some "FIX"
    | 0xC0 => some "FLOAT"
    | 0xF4 => some "HIO"
    | 0xC8 => some "NORM"
    | 0xF0 => some "SIO"
    | 0xF8 => some "TIO"
    | _ => none

/-! ### The host's view of the opcode table (R83) -/

/-- The bytes of a table word of `nbits` bits, first byte first, and zeros up to the longest instruction.
The table numbers `I`, in which `B0` is most significant (R60, R83; log 16). -/
def tableBytes (nbits w : Nat) : List Byte :=
  (List.range (nbits / 8)).map (fun k => BitVec.ofNat 8 (w >>> (nbits - 8 * (k + 1))))
    ++ List.replicate (4 - nbits / 8) 0#8

/-- The instruction the decoder reads from a table word. -/
def decodeTableWord (nbits w : Nat) : Option Instr :=
  match decode (tableBytes nbits w) with
  | .ok (i, _) => some i
  | .error _ => none

end Sys2Proof
end

