-- ==== Sys2Proof/Config.lean ====
section
/-! DEFINITION. What the spec fixes in size (00_scope.md R4), the names its parameters speak of, and
its open parameters (R5) as constants without a body: no proof can learn a value of one, so what is
proved of the machine holds for every choice. `EXIT_ADDR`, `LAUNCH_MODE`, `UNINIT_POLICY` and `ENTRY`
are launch inputs and stand in the state instead. -/

namespace Sys2Proof

/-- The condition code's three values, written `<`, `=`, `>` by the source (10_state.md R21). -/
inductive CC where
  | lt | eq | gt
deriving DecidableEq, Repr, Inhabited

/-- The privilege mode (10_state.md R23). -/
inductive Mode where
  | user | supervisor
deriving DecidableEq, Repr, Inhabited

/-- The six 24-bit registers that R8 writes `x[r]`. -/
inductive WordReg where
  | a | x | l | b | s | t
deriving DecidableEq, Repr, Inhabited

/-- `UNINIT_POLICY`: what reading state that nothing has given a value does (10_state.md R33,
60_exceptions.md R187). -/
inductive UninitPolicy where
  | fault | draw
deriving DecidableEq, Repr, Inhabited

/-- Where inside one step a read happens. Two reads of the same unspecified state need not agree
(60_exceptions.md R187), so a draw is told where it is made. -/
inductive ReadSite where
  /-- an instruction byte (30_encoding.md R67) -/
  | fetch
  /-- the base or index of the target address (30_encoding.md R70) -/
  | address
  /-- the pointer word of indirect addressing (30_encoding.md R75) -/
  | pointer
  /-- the operand in memory (30_encoding.md R75) -/
  | operand
  /-- the instruction's effect (10_state.md R18 step 8) -/
  | effect
deriving DecidableEq, Repr, Inhabited

/-- One question put to `DEVICE`, with its answer (43_io_system.md R160). -/
inductive DeviceEvent where
  /-- `DevTest(d)` and whether the device answered ready -/
  | tested (d : Byte) (ready : Bool)
  /-- `DevRead(d)` and the byte supplied -/
  | read (d : Byte) (byte : Byte)
  /-- `DevWrite(d, byte)` -/
  | wrote (d : Byte) (byte : Byte)
deriving DecidableEq, Repr, Inhabited

namespace Config

/-- `MEM_BYTES`: memory has the addresses 0 to 2^20 - 1 (00_scope.md R4, 10_state.md R25). -/
abbrev memBytes : Nat := 2 ^ 20

/-- `SW_IMAGE(CC, mode)`: the 24-bit value of the status word as a whole (10_state.md R22, D17).
OPEN in the spec (log 8). -/
opaque swImage : CC → Mode → Word

/-- `DevTest(d)`: any answer, at every call, under no law (43_io_system.md R160, D21). It may depend
on all that was asked before. OPEN in the spec (log 7). -/
opaque deviceReady : List DeviceEvent → Byte → Bool

/-- `DevRead(d)`: the next byte the device supplies (43_io_system.md R160, D21). OPEN in the spec
(log 7). -/
opaque deviceByte : List DeviceEvent → Byte → Byte

/-- What a register that was never given a value reads as under `UNINIT_POLICY = draw`
(60_exceptions.md R187, D28; log 6). -/
opaque drawWord : Nat → ReadSite → WordReg → Word

/-- What a memory byte that was never given a value reads as under `UNINIT_POLICY = draw` (R187, D28;
log 6). -/
opaque drawByte : Nat → ReadSite → Nat → Byte

/-- What the condition code reads as under `UNINIT_POLICY = draw` before anything has set it
(R187, D28; log 6). -/
opaque drawCC : Nat → CC

/-- DESIGN CHOICE (log 1): the value a register holds at reset where the spec gives none. The spec
forbids choosing a number (10_state.md R33: "A model must not pick zero"), so the value is named and
has no body. -/
opaque resetWord : WordReg → Word

/-- DESIGN CHOICE (log 1): what F holds at reset. -/
opaque resetF : Float48

/-- DESIGN CHOICE (log 1): what the condition code is at reset. -/
opaque resetCC : CC

end Config

end Sys2Proof
end

