-- ==== Sys2Proof/Machine/Flags.lean ====
section
/-! DEFINITION. The integer helpers of 00_scope.md R7, the arithmetic of 41_arith_logic.md R127 and every
computation of the condition code (42_compare_jump.md R140, 43_io_system.md R163). -/

namespace Sys2Proof.Machine

/-- `wrap24`: an integer modulo 2^24 (R7). -/
def wrap24 (z : Int) : Word := BitVec.ofInt 24 z

/-- `signed24`: the integer a 24-bit value stands for in two's complement (R7, 10_state.md R29). -/
def signed24 (v : Word) : Int := v.toInt

/-- `sext_12`: a 12-bit value as a two's-complement integer (R7). -/
def sext12 (d : BitVec 12) : Int := d.toInt

/-- `tdiv`: division rounding toward zero (R7). -/
def tdiv (a b : Int) : Int := Int.tdiv a b

/-- `cmp`: which of two integers is the smaller (R7). -/
def cmp (a b : Int) : CC :=
  if a < b then .lt else if a = b then .eq else .gt

/-- The sum of ADD and of TIX's increment (R121, R142, D6; log 11). -/
def addWords (a v : Word) : Word := wrap24 (a.toNat + v.toNat)

/-- The difference of SUB: `a` minus the operand (R122). -/
def subWords (a v : Word) : Word := wrap24 (a.toNat - v.toNat)

/-- The low 24 bits of MUL's signed product (R123). -/
def mulWords (a v : Word) : Word := wrap24 (signed24 a * signed24 v)

/-- DIV's quotient, signed and rounded toward zero (R124, R127, D7; log 11). The divisor is not 0. -/
def divWords (a v : Word) : Word := wrap24 (tdiv (signed24 a) (signed24 v))

/-- The bits of AND (R125). -/
def andWords (a v : Word) : Word := a &&& v

/-- The bits of OR, the inclusive or (R126). -/
def orWords (a v : Word) : Word := a ||| v

/-- The signed comparison of COMP and TIX, `p` on the left (R140, D9; log 11). -/
def compareWords (p q : Word) : CC := cmp (signed24 p) (signed24 q)

/-- What TD sets: ready is LT, not ready is EQ, never GT (43_io_system.md R163, D19; log 11). -/
def readyCC (ready : Bool) : CC := if ready then .lt else .eq

/-- Bits 23:8 of a register kept and its rightmost byte replaced (40_load_store.md R104,
43_io_system.md R164). -/
def replaceByte (a : Word) (byte : Byte) : Word := a.extractLsb' 8 16 ++ byte

/-- The rightmost byte of a register (10_state.md R11). -/
def rightmostByte (a : Word) : Byte := a.extractLsb' 0 8

end Sys2Proof.Machine
end

