-- ==== Sys2Proof/Machine/State.lean ====
section
/-! DEFINITION. The state of the machine (10_state.md R10 to R34), its faults (60_exceptions.md R180,
R181) and its state at reset (R33). -/

namespace Sys2Proof.Machine

/-- The kind of a memory access (R181). -/
inductive AccessKind where
  | fetch | read | write
deriving DecidableEq, Repr

/-- State that may hold no specified value (R187): a 24-bit register, the condition code, a byte of
memory. No instruction reads F. -/
inductive Unspecified where
  | register (r : WordReg)
  | conditionCode
  | memoryByte (addr : Nat)
deriving DecidableEq, Repr

/-- The faults of the spec with the `info` each records (R180, R181). -/
inductive Cause where
  /-- 1, 4, 5: an access touches an address of 2^20 or more (R182) -/
  | addressFault (kind : AccessKind) (addr : Nat)
  /-- 2: an unassigned opcode or an illegal combination of flags (R184); `bits` are the instruction's
  bytes, `B0` or `B0 ++ B1` -/
  | illegalInstruction (bits : List Byte)
  /-- 3: RD, TD, WD or STSW in user mode (R190) -/
  | privilegeViolation (m : Mnemonic)
  /-- 6: DIV with a zero operand (R185) -/
  | divideByZero
  /-- 7: RD or WD on a device no TD has found ready since the last transfer (R186) -/
  | deviceNotReady (d : Byte)
  /-- 8: a read of unspecified state under `UNINIT_POLICY = fault` (R187) -/
  | uninitializedRead (what : Unspecified)
deriving DecidableEq, Repr

/-- The run status (10_state.md R28). -/
inductive Status where
  | running
  | exited
  /-- the fault and the address of the faulting instruction -/
  | faulted (cause : Cause) (at_ : Word)
deriving DecidableEq, Repr

/-- Which registers have been given a value, by the launch or by a write (60_exceptions.md R187). -/
structure Known where
  a : Bool
  x : Bool
  l : Bool
  b : Bool
  s : Bool
  t : Bool
  f : Bool
  cc : Bool
deriving DecidableEq, Repr

/-- Every register has been given a value. -/
def Known.all : Known := ⟨true, true, true, true, true, true, true, true⟩

/-- Memory: the bytes that have been given a value, by address (10_state.md R25, 20_memory.md R40). An
address that is not listed holds unspecified state (R33, R44; log 5). Addresses rise strictly and are
below 2^20 (`Memory.wf`). -/
abbrev Memory := List Host.Cell

/-- Everything the spec gives the machine (INVENTORY.md, State). -/
structure State where
  /-- register A, the accumulator (R11) -/
  rA : Word
  /-- register X, the index register (R12) -/
  rX : Word
  /-- register L, the linkage register (R13) -/
  rL : Word
  /-- register B, the base register (R14) -/
  rB : Word
  /-- register S (R15) -/
  rS : Word
  /-- register T (R15) -/
  rT : Word
  /-- register F, the floating-point accumulator (R16) -/
  rF : Float48
  /-- the program counter: between steps, the address of the next instruction (R17) -/
  pc : Word
  /-- the condition code, a component of SW (R20, R21) -/
  cc : CC
  /-- the privilege mode, a component of SW (R20, R23) -/
  mode : Mode
  /-- which registers hold a specified value (60_exceptions.md R187) -/
  known : Known
  /-- memory (R25) -/
  mem : Memory
  /-- the readiness latch of each device code (R27) -/
  ready : Vector Bool 256
  /-- every question put to `DEVICE`, in program order, the oldest first (R53, R160, R221) -/
  deviceLog : List DeviceEvent
  /-- the run status (R28) -/
  status : Status
  /-- the launch's parameter `EXIT_ADDR` (00_scope.md R5, 70_reset_and_hazards.md R216) -/
  exitAddr : Word
  /-- the launch's parameter `UNINIT_POLICY` (00_scope.md R5, 60_exceptions.md R187) -/
  policy : UninitPolicy
  /-- the model's own: the index of the next draws for unspecified state (log 6) -/
  draws : Nat
  /-- the model's own: answers to TD stated in advance, for each device in the order given (log 7) -/
  testAnswers : List (Byte × Bool)
  /-- the model's own: bytes for RD stated in advance, for each device in the order given (log 7) -/
  readAnswers : List (Byte × Byte)
deriving DecidableEq, Repr

/-- Why a step gives no state: there is no step (10_state.md R18 step 0, R28). Raised by `step` alone.
Safe: the spec says so of both. -/
inductive Fault where
  /-- the run is over; raised by `step` where `status` is Exited. Safe. -/
  | runOver
  /-- the machine has stopped with a fault of the spec; raised by `step` where `status` is Faulted. The
  fault itself was taken by the step before, which gave a state. Safe. -/
  | stopped (cause : Cause) (at_ : Word)
deriving DecidableEq, Repr

/-- Why the model has no answer. -/
inductive Refusal where
  /-- an instruction without a meaning in the model; raised by no arm of `exec`, since every instruction
  has one. Safe. -/
  | notModelled (mnemonic : String)
deriving DecidableEq, Repr

/-- The value a 24-bit register holds (00_scope.md R8). -/
def State.word (s : State) : WordReg → Word
  | .a => s.rA
  | .x => s.rX
  | .l => s.rL
  | .b => s.rB
  | .s => s.rS
  | .t => s.rT

/-- Whether a 24-bit register holds a specified value (60_exceptions.md R187). -/
def Known.word (k : Known) : WordReg → Bool
  | .a => k.a
  | .x => k.x
  | .l => k.l
  | .b => k.b
  | .s => k.s
  | .t => k.t

/-- The machine at reset: the launch (10_state.md R33, 70_reset_and_hazards.md R213) with no program
placed and every register's value stated. `ENTRY` is 0 (log 2), `EXIT_ADDR` 0xFFFFFF (log 3),
`LAUNCH_MODE` supervisor (log 4), `UNINIT_POLICY` fault (log 5); the values the spec leaves unspecified
are constants without a body (log 1). -/
def State.reset : State where
  rA := Config.resetWord .a
  rX := Config.resetWord .x
  rL := 0xFFFFFF#24
  rB := Config.resetWord .b
  rS := Config.resetWord .s
  rT := Config.resetWord .t
  rF := Config.resetF
  pc := 0x000000#24
  cc := Config.resetCC
  mode := .supervisor
  known := Known.all
  mem := []
  ready := Vector.replicate 256 false
  deviceLog := []
  status := .running
  exitAddr := 0xFFFFFF#24
  policy := .fault
  draws := 0
  testAnswers := []
  readAnswers := []

end Sys2Proof.Machine
end

