-- ==== Sys2Proof/Machine/Ops.lean ====
section
/-! DEFINITION. The named operations of 00_scope.md R8: registers, memory, devices, raising a fault. A
read answers a value or the fault it raises (`Access`), and nothing is written before every read and
every check of a step has succeeded, so that a fault changes nothing (60_exceptions.md R183). -/

namespace Sys2Proof.Machine

/-- A value, or the fault that getting it raises. -/
abbrev Access (α : Type) := Except Cause α

/-! ### Taking a fault (60_exceptions.md R183)

There is no return from it: "There is no trap entry, so there is no return instruction" (R192). -/

/-- `raise E(info)`: nothing changes but the run status, which records the fault and the address of the
instruction, which is what `pc` still holds (R183, R28; log 9). -/
def State.raise (c : Cause) (s : State) : State :=
  { s with status := .faulted c s.pc }

/-- The outcome of an instruction that began in `s`: the state its effect gives, or the faulted state of
the fault it raises. -/
def conclude (s : State) (r : Access State) : Host.Outcome State Fault Refusal :=
  .next <|
    match r with
    | .ok t => t
    | .error c => s.raise c

/-! ### Unspecified state (10_state.md R33, 60_exceptions.md R187) -/

/-- A read of state that was never given a value: the fault, or the value drawn. -/
def readUnspecified {α : Type} (policy : UninitPolicy) (what : Unspecified) (drawn : α) : Access α :=
  match policy with
  | .fault => .error (.uninitializedRead what)
  | .draw => .ok drawn

/-! ### Registers -/

/-- `x[r]` read at a site of the step. -/
def State.readReg (s : State) (site : ReadSite) (r : WordReg) : Access Word :=
  if s.known.word r then .ok (s.word r)
  else readUnspecified s.policy (.register r) (Config.drawWord s.draws site r)

/-- `CC` read. -/
def State.readCC (s : State) : Access CC :=
  if s.known.cc then .ok s.cc
  else readUnspecified s.policy .conditionCode (Config.drawCC s.draws)

/-- `x[A] <- v`. -/
def State.setA (v : Word) (s : State) : State :=
  { s with rA := v, known := { s.known with a := true } }

/-- `x[X] <- v`. -/
def State.setX (v : Word) (s : State) : State :=
  { s with rX := v, known := { s.known with x := true } }

/-- `x[L] <- v`. -/
def State.setL (v : Word) (s : State) : State :=
  { s with rL := v, known := { s.known with l := true } }

/-- `CC <- c`. -/
def State.setCC (c : CC) (s : State) : State :=
  { s with cc := c, known := { s.known with cc := true } }

/-- SW as a whole: the parameter `SW_IMAGE` of its components (10_state.md R20, R22; log 8). -/
def State.sw (s : State) : Word := Config.swImage s.cc s.mode

/-! ### The program counter (10_state.md R17, R18) -/

/-- `pc_next <- wrap24(a + len)`, where `pc` still holds the address `a` of the instruction (R18 step 4). -/
def State.pcNext (s : State) (o : Operand) : Word := wrap24 (s.pc.toNat + o.length)

/-- The end of an instruction: `pc <- target`, and the draws move on (log 6). -/
def State.jump (target : Word) (s : State) : State :=
  { s with pc := target, draws := s.draws + 1 }

/-- The end of an instruction that does not write `pc`: `pc <- pc_next` (R18 step 9). -/
def State.advance (o : Operand) (s : State) : State := s.jump (s.pcNext o)

/-! ### Memory (20_memory.md R40 to R44) -/

/-- The byte at an address, if it has been given a value. -/
def Memory.read : Memory → Nat → Option Byte
  | [], _ => none
  | (k, b) :: m, a => if a = k then some b else Memory.read m a

/-- Give the byte at an address a value. -/
def Memory.write : Memory → Nat → Byte → Memory
  | [], a, b => [(a, b)]
  | (k, c) :: m, a, b =>
    if a < k then (a, b) :: (k, c) :: m
    else if a = k then (a, b) :: m
    else (k, c) :: Memory.write m a b

/-- Give consecutive bytes from an address a value; a byte outside memory is left out. -/
def Memory.writeBytes (m : Memory) (a : Nat) : List Byte → Memory
  | [] => m
  | b :: bs =>
    Memory.writeBytes (if a < Config.memBytes then Memory.write m a b else m) (a + 1) bs

/-- The canonical form: addresses rise strictly and lie in memory. -/
abbrev Memory.wf (m : Memory) : Prop :=
  (m.map Prod.fst).Pairwise (· < ·) ∧ ∀ c ∈ m, c.1 < Config.memBytes

/-- The three bytes of a word, the one at the lowest address first and most significant (R41, D1;
log 10). -/
def wordBytes (v : Word) : List Byte :=
  [v.extractLsb' 16 8, v.extractLsb' 8 8, v.extractLsb' 0 8]

/-- The word of three bytes, the most significant first (R41). -/
def wordOfBytes (b0 b1 b2 : Byte) : Word := b0 ++ b1 ++ b2

/-- One byte of memory at an address inside it, read at a site of the step. -/
def State.loadByte (s : State) (site : ReadSite) (a : Nat) : Access Byte :=
  match Memory.read s.mem a with
  | some b => .ok b
  | none => readUnspecified s.policy (.memoryByte a) (Config.drawByte s.draws site a)

/-- `MemRead(addr, 1)` (R44). -/
def State.memReadByte (s : State) (site : ReadSite) (addr : Word) : Access Byte :=
  if addr.toNat < Config.memBytes then s.loadByte site addr.toNat
  else .error (.addressFault .read addr.toNat)

/-- `MemRead(addr, 3)` (R44). -/
def State.memReadWord (s : State) (site : ReadSite) (addr : Word) : Access Word :=
  if addr.toNat + 2 < Config.memBytes then do
    let b0 ← s.loadByte site addr.toNat
    let b1 ← s.loadByte site (addr.toNat + 1)
    let b2 ← s.loadByte site (addr.toNat + 2)
    pure (wordOfBytes b0 b1 b2)
  else .error (.addressFault .read addr.toNat)

/-- `MemWrite(addr, 1, b)` (R44). -/
def State.memWriteByte (s : State) (addr : Word) (b : Byte) : Access State :=
  if addr.toNat < Config.memBytes then
    .ok { s with mem := Memory.write s.mem addr.toNat b }
  else .error (.addressFault .write addr.toNat)

/-- `MemWrite(addr, 3, v)` (R44): checked as a whole before any byte is written. -/
def State.memWriteWord (s : State) (addr : Word) (v : Word) : Access State :=
  if addr.toNat + 2 < Config.memBytes then
    .ok { s with mem := Memory.writeBytes s.mem addr.toNat (wordBytes v) }
  else .error (.addressFault .write addr.toNat)

/-! ### Devices (43_io_system.md R160, 10_state.md R26, R27) -/

/-- `ready[d]`. -/
def State.isReady (s : State) (d : Byte) : Bool := s.ready[d.toNat]'(d.isLt)

/-- `ready[d] <- r`. -/
def State.setReady (d : Byte) (r : Bool) (s : State) : State :=
  { s with ready := s.ready.set d.toNat r d.isLt }

/-- The first answer stated in advance for a device, and the answers that are left (log 7). -/
def takeAnswer {α : Type} (d : Byte) : List (Byte × α) → Option (α × List (Byte × α))
  | [] => none
  | (k, v) :: rest =>
    if k = d then some (v, rest)
    else (takeAnswer d rest).map fun (w, left) => (w, (k, v) :: left)

/-- `DevTest(d)`: the answer, and the state after the question. -/
def State.deviceTest (s : State) (d : Byte) : Bool × State :=
  match takeAnswer d s.testAnswers with
  | some (r, left) =>
    (r, { s with testAnswers := left, deviceLog := s.deviceLog ++ [.tested d r] })
  | none =>
    let r := Config.deviceReady s.deviceLog d
    (r, { s with deviceLog := s.deviceLog ++ [.tested d r] })

/-- `DevRead(d)`: the byte supplied, and the state after the question. -/
def State.deviceRead (s : State) (d : Byte) : Byte × State :=
  match takeAnswer d s.readAnswers with
  | some (b, left) =>
    (b, { s with readAnswers := left, deviceLog := s.deviceLog ++ [.read d b] })
  | none =>
    let b := Config.deviceByte s.deviceLog d
    (b, { s with deviceLog := s.deviceLog ++ [.read d b] })

/-- `DevWrite(d, byte)`. -/
def State.deviceWrite (d : Byte) (byte : Byte) (s : State) : State :=
  { s with deviceLog := s.deviceLog ++ [.wrote d byte] }

/-- `out[d]`: the bytes written to a device, the oldest first (R160, R221). -/
def State.out (s : State) (d : Byte) : List Byte :=
  s.deviceLog.filterMap fun
    | .wrote k b => if k = d then some b else none
    | _ => none

end Sys2Proof.Machine
end

