-- ==== Sys2Proof/Machine/Operands.lean ====
section
/-! DEFINITION. Steps 5 to 7 of the instruction cycle (10_state.md R18): the check of the flags, the check
of privilege, the target address and the operand (30_encoding.md R70 to R76). -/

namespace Sys2Proof.Machine

/-- Step 5: an illegal combination of flags raises IllegalInstruction with the first two bytes of the
instruction (R74, 60_exceptions.md R184). -/
def checkFlags (m : Mnemonic) (o : Operand) : Access Relative :=
  match legalRelative m o with
  | some r => .ok r
  | none => .error (.illegalInstruction ((encodeParts m o).take 2))

/-- Step 6: a privileged instruction in user mode raises PrivilegeViolation (60_exceptions.md R190,
43_io_system.md R162). -/
def checkPrivilege (m : Mnemonic) (s : State) : Access Unit :=
  if m.privileged && s.mode == .user then .error (.privilegeViolation m) else .ok ()

/-- The displacement or address field as an integer: signed when PC-relative, else unsigned (R70 to R72). -/
def fieldOffset (r : Relative) : Operand → Int
  | .sic _ addr15 => addr15.toNat
  | .f3 _ _ _ _ disp =>
    match r with
    | .pc => sext12 disp
    | .direct | .base => disp.toNat
  | .f4 _ _ _ _ addr20 => addr20.toNat

/-- The base of the target address (R70). -/
def State.baseValue (s : State) (o : Operand) : Relative → Access Word
  | .direct => .ok 0#24
  | .base => s.readReg .address .b
  | .pc => .ok (s.pcNext o)

/-- The index of the target address (R73). -/
def State.indexValue (s : State) (o : Operand) : Access Word :=
  if o.indexed then s.readReg .address .x else .ok 0#24

/-- `TA <- wrap24(base + d + idx)` (R70, D4). -/
def State.targetAddress (s : State) (r : Relative) (o : Operand) : Access Word := do
  let base ← s.baseValue o r
  let idx ← s.indexValue o
  pure (wrap24 (base.toNat + fieldOffset r o + idx.toNat))

/-- The operand's location `m` from the target address: the address itself, or the word it points to
(R75, D30). Immediate addressing has no location; the classes that reach here with it use the address
as the value instead. -/
def State.location (s : State) (o : Operand) (ta : Word) : Access Word :=
  match o.addressing with
  | .indirect => s.memReadWord .pointer ta
  | .simple | .immediate => .ok ta

/-- Steps 5 to 7 up to the target address. -/
def State.resolveTarget (s : State) (m : Mnemonic) (o : Operand) : Access Word := do
  let r ← checkFlags m o
  checkPrivilege m s
  s.targetAddress r o

/-- Steps 5 to 7 for class LOC: the location `m` (R75). -/
def State.resolveLoc (s : State) (m : Mnemonic) (o : Operand) : Access Word := do
  let ta ← s.resolveTarget m o
  s.location o ta

/-- Steps 5 to 7 for class WORD: the 24-bit value `v` (R75). -/
def State.resolveWord (s : State) (m : Mnemonic) (o : Operand) : Access Word := do
  let ta ← s.resolveTarget m o
  match o.addressing with
  | .immediate => pure ta
  | .simple | .indirect => do
    let loc ← s.location o ta
    s.memReadWord .operand loc

/-- Steps 5 to 7 for class BYTE: the 8-bit value `v` (R75, D14; log 11). -/
def State.resolveByte (s : State) (m : Mnemonic) (o : Operand) : Access Byte := do
  let ta ← s.resolveTarget m o
  match o.addressing with
  | .immediate => pure (rightmostByte ta)
  | .simple | .indirect => do
    let loc ← s.location o ta
    s.memReadByte .operand loc

end Sys2Proof.Machine
end

