-- ==== Sys2Proof/Machine/Arithmetic.lean ====
section
/-! DEFINITION. The arithmetic and logical instructions of 41_arith_logic.md (R120 to R128). -/

namespace Sys2Proof.Machine

/-- What ADD, SUB, MUL, AND and OR share: the operand is read before A is written, and A is written only if
nothing raised (R120). -/
def accumulate (m : Mnemonic) (f : Word → Word → Word) (o : Operand) (s : State) : Access State := do
  let v ← s.resolveWord m o
  let a ← s.readReg .effect .a
  pure ((s.setA (f a v)).advance o)

/-- ADD m: `x[A] <- wrap24(x[A] + v)` (R121). -/
def execAdd (o : Operand) (s : State) : Host.Outcome State Fault Refusal :=
  conclude s (accumulate .add addWords o s)

/-- SUB m: `x[A] <- wrap24(x[A] - v)` (R122). -/
def execSub (o : Operand) (s : State) : Host.Outcome State Fault Refusal :=
  conclude s (accumulate .sub subWords o s)

/-- MUL m: `x[A] <- wrap24(signed24(x[A]) * signed24(v))` (R123). -/
def execMul (o : Operand) (s : State) : Host.Outcome State Fault Refusal :=
  conclude s (accumulate .mul mulWords o s)

/-- DIV m: a zero operand raises DivideByZero, before A is read; else
`x[A] <- wrap24(tdiv(signed24(x[A]), signed24(v)))` (R124, R185). -/
def execDiv (o : Operand) (s : State) : Host.Outcome State Fault Refusal :=
  conclude s do
    let v ← s.resolveWord .div o
    if v = 0#24 then .error .divideByZero
    else do
      let a ← s.readReg .effect .a
      pure ((s.setA (divWords a v)).advance o)

/-- AND m: `x[A] <- x[A] AND v` (R125). -/
def execAnd (o : Operand) (s : State) : Host.Outcome State Fault Refusal :=
  conclude s (accumulate .and andWords o s)

/-- OR m: `x[A] <- x[A] OR v` (R126). -/
def execOr (o : Operand) (s : State) : Host.Outcome State Fault Refusal :=
  conclude s (accumulate .or orWords o s)

end Sys2Proof.Machine
end

