-- ==== Sys2Proof/Machine/CompareJump.lean ====
section
/-! DEFINITION. The comparisons and the control transfers of 42_compare_jump.md (R140 to R149). -/

namespace Sys2Proof.Machine

/-- What JEQ, JGT and JLT share: the location is resolved first, whether or not the jump is taken (R144,
D29). -/
def jumpIf (m : Mnemonic) (want : CC) (o : Operand) (s : State) : Access State := do
  let loc ← s.resolveLoc m o
  let c ← s.readCC
  pure (s.jump (if c = want then loc else s.pcNext o))

/-- COMP m: `CC <- cmp(signed24(x[A]), signed24(v))` (R141). -/
def execComp (o : Operand) (s : State) : Host.Outcome State Fault Refusal :=
  conclude s do
    let v ← s.resolveWord .comp o
    let a ← s.readReg .effect .a
    pure ((s.setCC (compareWords a v)).advance o)

/-- TIX m: X is incremented and the new X compared with the operand (R142). -/
def execTix (o : Operand) (s : State) : Host.Outcome State Fault Refusal :=
  conclude s do
    let v ← s.resolveWord .tix o
    let x ← s.readReg .effect .x
    let t := addWords x 1#24
    pure (((s.setX t).setCC (compareWords t v)).advance o)

/-- J m: `pc <- m` (R143). -/
def execJ (o : Operand) (s : State) : Host.Outcome State Fault Refusal :=
  conclude s do
    let loc ← s.resolveLoc .j o
    pure (s.jump loc)

/-- JEQ m: `pc <- m` if CC = EQ (R144). -/
def execJeq (o : Operand) (s : State) : Host.Outcome State Fault Refusal :=
  conclude s (jumpIf .jeq .eq o s)

/-- JGT m: `pc <- m` if CC = GT (R145). -/
def execJgt (o : Operand) (s : State) : Host.Outcome State Fault Refusal :=
  conclude s (jumpIf .jgt .gt o s)

/-- JLT m: `pc <- m` if CC = LT (R146; the source's cell is corrected by 90_conflicts.md C1, log 11). -/
def execJlt (o : Operand) (s : State) : Host.Outcome State Fault Refusal :=
  conclude s (jumpIf .jlt .lt o s)

/-- JSUB m: `x[L] <- pc_next; pc <- m` (R147). -/
def execJsub (o : Operand) (s : State) : Host.Outcome State Fault Refusal :=
  conclude s do
    let loc ← s.resolveLoc .jsub o
    pure ((s.setL (s.pcNext o)).jump loc)

/-- RSUB: `pc <- x[L]`. Its flags and field are ignored: they are not checked and no operand is resolved
(R149, D15; log 11). -/
def execRsub (_ : Operand) (s : State) : Host.Outcome State Fault Refusal :=
  conclude s do
    let l ← s.readReg .effect .l
    pure (s.jump l)

end Sys2Proof.Machine
end

