-- ==== Sys2Proof/Machine/IoSystem.lean ====
section
/-! DEFINITION. The privileged instructions of 43_io_system.md (R160 to R166). -/

namespace Sys2Proof.Machine

/-- The latch check of RD and WD (R164, R165, 60_exceptions.md R186). -/
def requireReady (d : Byte) (s : State) : Access Unit :=
  if s.isReady d then .ok () else .error (.deviceNotReady d)

/-- TD m: the device is asked; CC and the latch take the answer (R163). -/
def execTd (o : Operand) (s : State) : Host.Outcome State Fault Refusal :=
  conclude s do
    let d ← s.resolveByte .td o
    let q := s.deviceTest d
    pure (((q.2.setCC (readyCC q.1)).setReady d q.1).advance o)

/-- RD m: a byte of the device replaces the rightmost byte of A; the latch is cleared (R164). -/
def execRd (o : Operand) (s : State) : Host.Outcome State Fault Refusal :=
  conclude s do
    let d ← s.resolveByte .rd o
    requireReady d s
    let a ← s.readReg .effect .a
    let q := s.deviceRead d
    pure (((q.2.setA (replaceByte a q.1)).setReady d false).advance o)

/-- WD m: the rightmost byte of A goes to the device; the latch is cleared (R165). -/
def execWd (o : Operand) (s : State) : Host.Outcome State Fault Refusal :=
  conclude s do
    let d ← s.resolveByte .wd o
    requireReady d s
    let a ← s.readReg .effect .a
    pure (((s.deviceWrite d (rightmostByte a)).setReady d false).advance o)

/-- STSW m: `MemWrite(m, 3, SW_IMAGE(CC, mode))` (R166). -/
def execStsw (o : Operand) (s : State) : Host.Outcome State Fault Refusal :=
  conclude s do
    let loc ← s.resolveLoc .stsw o
    let c ← s.readCC
    let t ← s.memWriteWord loc (Config.swImage c s.mode)
    pure (t.advance o)

end Sys2Proof.Machine
end

