-- ==== Sys2Proof/Machine/LoadStore.lean ====
section
/-! DEFINITION. The loads and stores of 40_load_store.md (R100 to R108). -/

namespace Sys2Proof.Machine

/-- A word load: steps 5 to 7 for class WORD, then the register is written (R100). -/
def loadWord (m : Mnemonic) (write : Word → State → State) (o : Operand) (s : State) : Access State := do
  let v ← s.resolveWord m o
  pure ((write v s).advance o)

/-- A word store of a register: steps 5 to 7 for class LOC, then the memory write (R100). -/
def storeReg (m : Mnemonic) (r : WordReg) (o : Operand) (s : State) : Access State := do
  let loc ← s.resolveLoc m o
  let v ← s.readReg .effect r
  let t ← s.memWriteWord loc v
  pure (t.advance o)

/-- LDA m: `x[A] <- v` (R101). -/
def execLda (o : Operand) (s : State) : Host.Outcome State Fault Refusal :=
  conclude s (loadWord .lda State.setA o s)

/-- LDX m: `x[X] <- v` (R102). -/
def execLdx (o : Operand) (s : State) : Host.Outcome State Fault Refusal :=
  conclude s (loadWord .ldx State.setX o s)

/-- LDL m: `x[L] <- v` (R103). -/
def execLdl (o : Operand) (s : State) : Host.Outcome State Fault Refusal :=
  conclude s (loadWord .ldl State.setL o s)

/-- LDCH m: `x[A] <- x[A][23:8] ++ v` (R104). -/
def execLdch (o : Operand) (s : State) : Host.Outcome State Fault Refusal :=
  conclude s do
    let v ← s.resolveByte .ldch o
    let a ← s.readReg .effect .a
    pure ((s.setA (replaceByte a v)).advance o)

/-- STA m: `MemWrite(m, 3, x[A])` (R105). -/
def execSta (o : Operand) (s : State) : Host.Outcome State Fault Refusal :=
  conclude s (storeReg .sta .a o s)

/-- STX m: `MemWrite(m, 3, x[X])` (R106). -/
def execStx (o : Operand) (s : State) : Host.Outcome State Fault Refusal :=
  conclude s (storeReg .stx .x o s)

/-- STL m: `MemWrite(m, 3, x[L])` (R107). -/
def execStl (o : Operand) (s : State) : Host.Outcome State Fault Refusal :=
  conclude s (storeReg .stl .l o s)

/-- STCH m: `MemWrite(m, 1, x[A][7:0])` (R108). -/
def execStch (o : Operand) (s : State) : Host.Outcome State Fault Refusal :=
  conclude s do
    let loc ← s.resolveLoc .stch o
    let a ← s.readReg .effect .a
    let t ← s.memWriteByte loc (rightmostByte a)
    pure (t.advance o)

end Sys2Proof.Machine
end

