-- ==== Sys2Proof/Machine/Fetch.lean ====
section
/-! DEFINITION. Fetching and decoding the instruction at `pc` (30_encoding.md R67, R68). -/

namespace Sys2Proof.Machine

/-- `FetchByte(k)` of the instruction at `pc` (R67). -/
def State.fetchByte (s : State) (k : Nat) : Access Byte :=
  if s.pc.toNat + k < Config.memBytes then s.loadByte .fetch (s.pc.toNat + k)
  else .error (.addressFault .fetch (s.pc.toNat + k))

/-- The instruction at `pc`: the opcode is checked before any other byte is fetched, and a fourth byte is
fetched in Format 4 only (R67, D16). -/
def State.fetchInstr (s : State) : Access Instr := do
  let b0 ← s.fetchByte 0
  match Mnemonic.ofByte? b0 with
  | none => .error (.illegalInstruction [b0])
  | some m => do
    let b1 ← s.fetchByte 1
    let b2 ← s.fetchByte 2
    let b3 ← if isFormat4 b0 b1 then s.fetchByte 3 else pure 0#8
    pure (m.instr (decodeOperand b0 b1 b2 b3))

/-- Step 1 of the instruction cycle where it applies: the run is over (10_state.md R18,
70_reset_and_hazards.md R216). -/
def State.endRun (s : State) : State := { s with status := .exited }

/-- The state with the bytes of a table word placed where the next instruction is fetched. -/
def State.placeAtPc (s : State) (bytes : List Byte) : State :=
  { s with mem := Memory.writeBytes s.mem s.pc.toNat bytes }

end Sys2Proof.Machine
end

