-- ==== Sys2Proof/Machine/Step.lean ====
section
/-! DEFINITION. One step of the processor: the whole of one instruction (10_state.md R18). -/

namespace Sys2Proof.Machine

/-- The instruction cycle (R18). Step 0: no step leaves Exited or Faulted (R28). Step 1: at `EXIT_ADDR`
the run is over (70_reset_and_hazards.md R216). Then fetch, decode and execute. -/
def step (s : State) : Host.Outcome State Fault Refusal :=
  match s.status with
  | .exited => .fault .runOver
  | .faulted c a => .fault (.stopped c a)
  | .running =>
    if s.pc = s.exitAddr then .next s.endRun
    else
      match s.fetchInstr with
      | .error c => .next (s.raise c)
      | .ok i => exec i s

/-- The state with the instruction of a table word where `step` fetches its next instruction (log 15). -/
def State.withFetchWord (s : State) (nbits w : Nat) : State := s.placeAtPc (tableBytes nbits w)

end Sys2Proof.Machine
end

