-- ==== Sys2Proof/Machine/FloatFormat.lean ====
section
/-! DEFINITION. The floating-point format of register F (10_state.md R31). No instruction reads or writes F
(R16), so nothing in a step depends on this file. -/

namespace Sys2Proof.Machine

/-- The field `s`, 1 bit (R31). -/
def floatSign (v : Float48) : Bool := v.getLsbD 47

/-- The field `exponent`, 11 bits, an unsigned number (R31). -/
def floatExponent (v : Float48) : BitVec 11 := v.extractLsb' 36 11

/-- The field `fraction`, 36 bits (R31). -/
def floatFraction (v : Float48) : BitVec 36 := v.extractLsb' 0 36

/-- The fraction as a value between 0 and 1: the binary point stands before its high-order bit (R31). -/
def floatFractionValue (v : Float48) : ℚ := (floatFraction v).toNat / 2 ^ 36

/-- A normalized number: the high-order bit of the fraction is 1 (R31). -/
def floatNormalized (v : Float48) : Bool := (floatFraction v).getLsbD 35

/-- The absolute value of the number represented, `f * 2^(e-1024)` (R31). DESIGN CHOICE (log 14): the
formula is applied to every value, normalized or not, a zero fraction among them; the source does not say
what an unnormalized value stands for (91_not_in_source.md N-10-3, 93_implementation_defined.md U16). -/
def floatMagnitude (v : Float48) : ℚ :=
  floatFractionValue v * (2 : ℚ) ^ ((floatExponent v).toNat - 1024 : ℤ)

/-- PRESUMED (R31, D35; log 14): s = 0 is positive and s = 1 negative. -/
def floatValue (v : Float48) : ℚ :=
  if floatSign v then -floatMagnitude v else floatMagnitude v

/-- PRESUMED (R31, D35; log 14): zero is written as 48 bits of zero. -/
def floatIsZero (v : Float48) : Bool := v == 0#48

end Sys2Proof.Machine
end

