-- ==== Sys2Proof/Machine/ObjectProgram.lean ====
section
/-! DEFINITION. The object program and its records, written as columns of ASCII characters (30_encoding.md
R88 to R91). -/

namespace Sys2Proof.Machine

/-- One Text record: where its object code is placed, and the code (R90). -/
structure TextRecord where
  start : Word
  code : List Byte
deriving DecidableEq, Repr

/-- An object program: the Header's name, starting address and length, the Text records in order, and the
End record's address (R88 to R91). -/
structure ObjectProgram where
  name : List Byte
  start : Word
  length : Word
  texts : List TextRecord
  entry : Word
deriving DecidableEq, Repr

/-- One record (R88). -/
inductive Record where
  | header (name : List Byte) (start length : Word)
  | text (start : Word) (code : List Byte)
  | end_ (entry : Word)
deriving DecidableEq, Repr

/-- The most bytes of object code in a Text record: columns 10 to 69, two to a byte (R90). -/
def maxTextBytes : Nat := 30

/-! ### Hexadecimal columns -/

/-- The value of a hexadecimal digit in ASCII. Small letters are taken too (log 12). -/
def hexDigit? (c : Byte) : Option Nat :=
  let n := c.toNat
  if 0x30 ≤ n ∧ n ≤ 0x39 then some (n - 0x30)
  else if 0x41 ≤ n ∧ n ≤ 0x46 then some (n - 0x41 + 10)
  else if 0x61 ≤ n ∧ n ≤ 0x66 then some (n - 0x61 + 10)
  else none

/-- The number that hexadecimal digits write, given what the digits before them write. -/
def hexNat? (before : Nat) : List Byte → Option Nat
  | [] => some before
  | c :: cs =>
    match hexDigit? c with
    | some d => hexNat? (16 * before + d) cs
    | none => none

/-- The bytes that pairs of hexadecimal digits write, in order (R90). -/
def hexBytes? : List Byte → Option (List Byte)
  | [] => some []
  | [_] => none
  | c :: d :: rest =>
    match hexDigit? c, hexDigit? d, hexBytes? rest with
    | some h, some l, some bs => some (BitVec.ofNat 8 (16 * h + l) :: bs)
    | _, _, _ => none

/-- The ASCII character of a hexadecimal digit below 16. -/
def hexChar (d : Nat) : Byte :=
  if d < 10 then BitVec.ofNat 8 (0x30 + d) else BitVec.ofNat 8 (0x41 + (d - 10))

/-- A number in a given count of hexadecimal digits, the most significant first. -/
def hexColumns : Nat → Nat → List Byte
  | 0, _ => []
  | k + 1, n => hexColumns k (n / 16) ++ [hexChar (n % 16)]

/-! ### Writing and reading records (R89 to R91) -/

/-- The program name in columns 2 to 7 of a Header. PRESUMED (R89, log 25): blanks fill a shorter name on the
right. DESIGN CHOICE (log 25): a longer name is cut to its first six characters. -/
def nameColumns (name : List Byte) : List Byte := (name ++ List.replicate 6 0x20#8).take 6

/-- The columns of a record. -/
def Record.columns : Record → List Byte
  | .header name start length =>
    [0x48#8] ++ nameColumns name ++ hexColumns 6 start.toNat ++ hexColumns 6 length.toNat
  | .text start code =>
    [0x54#8] ++ hexColumns 6 start.toNat ++ hexColumns 2 code.length
      ++ code.flatMap fun b => hexColumns 2 b.toNat
  | .end_ entry => [0x45#8] ++ hexColumns 6 entry.toNat

/-- The record that columns write; none where they follow no record's layout (log 12). -/
def Record.ofColumns? : List Byte → Option Record
  | [] => none
  | kind :: cols =>
    if kind = 0x48#8 then
      if cols.length = 18 then
        match hexNat? 0 ((cols.drop 6).take 6), hexNat? 0 (cols.drop 12) with
        | some start, some length =>
          some (.header (cols.take 6) (BitVec.ofNat 24 start) (BitVec.ofNat 24 length))
        | _, _ => none
      else none
    else if kind = 0x54#8 then
      match hexNat? 0 (cols.take 6), hexNat? 0 ((cols.drop 6).take 2), hexBytes? (cols.drop 8) with
      | some start, some k, some code =>
        if 8 ≤ cols.length ∧ code.length = k ∧ k ≤ maxTextBytes then
          some (.text (BitVec.ofNat 24 start) code)
        else none
      | _, _, _ => none
    else if kind = 0x45#8 then
      if cols.length = 6 then
        match hexNat? 0 cols with
        | some entry => some (.end_ (BitVec.ofNat 24 entry))
        | none => none
      else none
    else none

/-- The Text records and the entry address of the records after the Header. -/
def collectTexts : List Record → Option (List TextRecord × Word)
  | [.end_ entry] => some ([], entry)
  | .text start code :: rest =>
    (collectTexts rest).map fun (texts, entry) => (⟨start, code⟩ :: texts, entry)
  | _ => none

/-- The object program of its records: a Header, Text records and an End record, in that order (R88). -/
def ObjectProgram.ofRecords? : List Record → Option ObjectProgram
  | .header name start length :: rest =>
    (collectTexts rest).map fun (texts, entry) => ⟨name, start, length, texts, entry⟩
  | _ => none

/-- The records of an object program (R88). -/
def ObjectProgram.records (p : ObjectProgram) : List Record :=
  .header p.name p.start p.length :: p.texts.map (fun t => .text t.start t.code) ++ [.end_ p.entry]

/-- The object program written by lines of columns. -/
def ObjectProgram.ofColumns? (lines : List (List Byte)) : Option ObjectProgram :=
  match lines.mapM Record.ofColumns? with
  | some records => ObjectProgram.ofRecords? records
  | none => none

end Sys2Proof.Machine
end

