-- ==== Sys2Proof/Machine/Launch.lean ====
section
/-! DEFINITION. The launch: the one action of the host, which puts an object program in memory and starts
the processor at its entry address (70_reset_and_hazards.md R210 to R213, 10_state.md R33). -/

namespace Sys2Proof.Machine

/-- The values a launch states for what the spec leaves unspecified: registers, the condition code, bytes
of memory outside the Text records (R213), and the answers of devices that a claim assumes (R160). -/
structure Stated where
  a : Option Word
  x : Option Word
  b : Option Word
  s : Option Word
  t : Option Word
  f : Option Float48
  cc : Option CC
  bytes : List Host.Cell
  testAnswers : List (Byte × Bool)
  readAnswers : List (Byte × Byte)
deriving DecidableEq, Repr

/-- A launch that states nothing. -/
def Stated.nothing : Stated := ⟨none, none, none, none, none, none, none, [], [], []⟩

/-- Why a launch is refused: it is then no run (R211). -/
inductive LaunchRefusal where
  /-- the Header's range ends beyond memory -/
  | headerOutsideMemory
  /-- a Text record places a byte outside the Header's range -/
  | textOutsideHeader
  /-- a stated byte lies outside memory (log 24) -/
  | statedOutsideMemory
deriving DecidableEq, Repr

/-- The bytes a Text record places, with their addresses (R212). -/
def TextRecord.cells (t : TextRecord) : List Host.Cell :=
  t.code.zipIdx.map fun (b, k) => (t.start.toNat + k, b)

/-- The bytes an object program places, in the order they are placed (R212). -/
def ObjectProgram.cells (p : ObjectProgram) : List Host.Cell := p.texts.flatMap TextRecord.cells

/-- Place bytes in order: of two for one address the later stays (R212). -/
def Memory.place (m : Memory) (cells : List Host.Cell) : Memory :=
  cells.foldl (fun m c => Memory.write m c.1 c.2) m

/-- The check of the Header (R211). -/
def ObjectProgram.check (p : ObjectProgram) : Except LaunchRefusal Unit :=
  if Config.memBytes < p.start.toNat + p.length.toNat then .error .headerOutsideMemory
  else if p.cells.all fun c => p.start.toNat ≤ c.1 && c.1 < p.start.toNat + p.length.toNat then .ok ()
  else .error .textOutsideHeader

/-- The state a launch starts in when the checks pass (R213, R33). A register without a stated value is
not known, and what its field holds is a constant without a body. -/
def launchState (p : ObjectProgram) (exitAddr : Word) (mode : Mode) (policy : UninitPolicy)
    (given : Stated) : State where
  rA := given.a.getD (Config.resetWord .a)
  rX := given.x.getD (Config.resetWord .x)
  rL := exitAddr
  rB := given.b.getD (Config.resetWord .b)
  rS := given.s.getD (Config.resetWord .s)
  rT := given.t.getD (Config.resetWord .t)
  rF := given.f.getD Config.resetF
  pc := p.entry
  cc := given.cc.getD Config.resetCC
  mode := mode
  known :=
    { a := given.a.isSome
      x := given.x.isSome
      l := true
      b := given.b.isSome
      s := given.s.isSome
      t := given.t.isSome
      f := given.f.isSome
      cc := given.cc.isSome }
  mem := Memory.place (Memory.place [] given.bytes) p.cells
  ready := Vector.replicate 256 false
  deviceLog := []
  status := .running
  exitAddr := exitAddr
  policy := policy
  draws := 0
  testAnswers := given.testAnswers
  readAnswers := given.readAnswers

/-- The launch of an object program (R211 to R213). -/
def launch (p : ObjectProgram) (exitAddr : Word) (mode : Mode) (policy : UninitPolicy)
    (given : Stated) : Except LaunchRefusal State := do
  p.check
  if given.bytes.all fun c => c.1 < Config.memBytes then
    pure (launchState p exitAddr mode policy given)
  else .error .statedOutsideMemory

end Sys2Proof.Machine
end

