-- ==== Sys2Proof/Safety.lean ====
section
/-! DEFINITION. What a run is, when it is over and what it is observed by, in the terms statements use. -/

namespace Sys2Proof

open Sys2Proof.Machine

/-- The machine has stopped with a fault (60_exceptions.md R183). -/
def Machine.State.isFaulted (s : State) : Bool :=
  match s.status with
  | .faulted _ _ => true
  | .running | .exited => false

/-- `t` is reached from `s` by some number of steps. -/
def Reaches (s t : State) : Prop := ∃ k : Nat, Host.Core.run core k s = .next t

/-- A run from `s` ends in `t` (70_reset_and_hazards.md R216): a faulted run does not end. -/
def Ends (s t : State) : Prop := Reaches s t ∧ t.status = .exited

/-- A run is safe when no state it reaches is faulted. -/
def Safe (s : State) : Prop := ∀ t, Reaches s t → t.isFaulted = false

/-- What a finished run is observed by (70_reset_and_hazards.md R221). State that was never given a value is
unspecified (10_state.md R33): a register or CC is then `none`, as a byte of memory is not listed. -/
structure Observation where
  a : Option Word
  x : Option Word
  l : Option Word
  b : Option Word
  s : Option Word
  t : Option Word
  f : Option Float48
  pc : Word
  cc : Option CC
  mode : Mode
  mem : Memory
  /-- the questions put to the devices with their answers, from which `out[d]` is read -/
  devices : List DeviceEvent
deriving DecidableEq, Repr

/-- The value a 24-bit register has been given, if any (60_exceptions.md R187). -/
def Machine.State.given (s : State) (r : WordReg) : Option Word :=
  if s.known.word r then some (s.word r) else none

/-- The observation of a state (R221). -/
def observe (s : State) : Observation where
  a := s.given .a
  x := s.given .x
  l := s.given .l
  b := s.given .b
  s := s.given .s
  t := s.given .t
  f := if s.known.f then some s.rF else none
  pc := s.pc
  cc := if s.known.cc then some s.cc else none
  mode := s.mode
  mem := s.mem
  devices := s.deviceLog

/-! ### Memory, byte by byte -/

/-- The bytes listed are given bytes of memory, from address `a` up, all of them inside memory. -/
def BytesAt (m : Memory) (a : Nat) (bytes : List Byte) : Prop :=
  ∀ (k : Nat) (b : Byte), bytes[k]? = some b →
    a + k < Config.memBytes ∧ Memory.read m (a + k) = some b

/-- The three bytes from address `a` up are given and hold the word `v`, the most significant first
(20_memory.md R41). -/
def WordAt (m : Memory) (a : Nat) (v : Word) : Prop :=
  a + 2 < Config.memBytes ∧ Memory.read m a = some (v.extractLsb' 16 8) ∧
    Memory.read m (a + 1) = some (v.extractLsb' 8 8) ∧
    Memory.read m (a + 2) = some (v.extractLsb' 0 8)

/-! ### The device discipline (70_reset_and_hazards.md R218) -/

/-- What the readiness latch of a device is after a sequence of events: set by a TD that answered ready,
cleared by a TD that did not and by every transfer (10_state.md R27). -/
def latchAfter (d : Byte) (log : List DeviceEvent) : Bool :=
  log.foldl (init := false) fun r e =>
    match e with
    | .tested k ready => if k = d then ready else r
    | .read k _ => if k = d then false else r
    | .wrote k _ => if k = d then false else r

/-- The device of a transfer. -/
def transferOf : DeviceEvent → Option Byte
  | .tested _ _ => none
  | .read d _ => some d
  | .wrote d _ => some d

/-- Every transfer in the log follows a TD on its device that answered ready, with no other transfer on
the device between (R218). -/
def Disciplined (log : List DeviceEvent) : Prop :=
  ∀ pre e post d, log = pre ++ e :: post → transferOf e = some d → latchAfter d pre = true

/-- The latch of every device is what the log makes it, and the log is disciplined. -/
def LatchInvariant (s : State) : Prop :=
  (∀ d, s.isReady d = latchAfter d s.deviceLog) ∧ Disciplined s.deviceLog

/-! ### Registers no rule touches -/

/-- The state with other values in S, T and F (10_state.md R15, R16). -/
def withIdle (s : State) (vs vt : Word) (vf : Float48) : State :=
  { s with rS := vs, rT := vt, rF := vf }

/-- A change of the state of a next outcome. -/
def mapNext (f : State → State) : Host.Outcome State Fault Refusal → Host.Outcome State Fault Refusal
  | .next t => .next (f t)
  | .fault r => .fault r
  | .refused r => .refused r

end Sys2Proof
end

