-- ==== Sys2Proof/WellFormed.lean ====
section
/-! DEFINITION. Which instructions are well formed: those whose flags 30_encoding.md R74 allows. Every
other property of an encoding (a register number, an opcode, the field widths) holds of any term of
`Instr` by its type. The check itself, `flagsLegal`, stands in Decode.lean. -/

namespace Sys2Proof

/-- R74, R78: the combination of flags is legal for the instruction. Executing one that is not raises
IllegalInstruction (60_exceptions.md R184). -/
abbrev Instr.wellFormed (i : Instr) : Bool := flagsLegal i.mnemonic i.operand

end Sys2Proof
end

