-- ==== Sys2Proof/Certificates/Slice0/Obligations.lean ====
section
/-! DEFINITION. The statements for the provers. Each docstring names the rule or section it formalises. In
a statement of what an instruction does, `s` is the state in which it is executed: `pc` still holds its
own address, and `s.pcNext o` is the address after it. -/

open Sys2Proof Sys2Proof.Machine

/-! ## Encoding -/

/-- Decoding the encoding of any instruction gives it back, with every flag and field at every value,
whatever bytes follow (30_encoding.md sections 1 and 2). -/
def Obligations.DecodeOfEncodeIsTheInstruction : Prop :=
  ∀ (i : Instr) (rest : List Byte), decode (encode i ++ rest) = .ok (i, rest)

/-- Bytes that decode are the encoding of what they decode to: each instruction has one encoding
(30_encoding.md sections 1 and 2). -/
def Obligations.BytesDecodedAreTheEncoding : Prop :=
  ∀ (bytes : List Byte) (i : Instr) (rest : List Byte),
    decode bytes = .ok (i, rest) → bytes = encode i ++ rest

/-- The form and the length of an instruction are decided by n, i and e: n = i = 0 is the standard-SIC form,
3 bytes whatever the bit at e's place; else e = 0 is Format 3, 3 bytes, and e = 1 Format 4, 4 bytes, used
immediately (n = 0), indirectly (i = 0) or simply (30_encoding.md sections 1, 2 and 4). -/
def Obligations.FormAndLengthFromFlags : Prop :=
  ∀ (b0 b1 b2 b3 : Byte) (rest : List Byte) (m : Mnemonic) (n i : Bool),
    Mnemonic.ofByte? b0 = some m → b0.getLsbD 1 = n → b0.getLsbD 0 = i →
    (n = false → i = false → decode (b0 :: b1 :: b2 :: rest) =
      .ok (m.instr (.sic (b1.getLsbD 7) (b1.extractLsb' 0 7 ++ b2)), rest)) ∧
    (n = true ∨ i = true → b1.getLsbD 4 = false → decode (b0 :: b1 :: b2 :: rest) =
      .ok (m.instr (.f3 (if n then if i then .simple else .indirect else .immediate)
        (b1.getLsbD 7) (b1.getLsbD 6) (b1.getLsbD 5) (b1.extractLsb' 0 4 ++ b2)), rest)) ∧
    (n = true ∨ i = true → b1.getLsbD 4 = true → decode (b0 :: b1 :: b2 :: b3 :: rest) =
      .ok (m.instr (.f4 (if n then if i then .simple else .indirect else .immediate)
        (b1.getLsbD 7) (b1.getLsbD 6) (b1.getLsbD 5) (b1.extractLsb' 0 4 ++ b2 ++ b3)), rest))

/-- Words written out in the spec decode to the instructions they stand for (the examples of R101, R104,
R105, R107, R108, R142, R144, R147, R149, R163, R166). -/
def Obligations.WordsOfTheSpecDecode : Prop :=
  decode [0x03#8, 0x01#8, 0x00#8] = .ok (.lda (.f3 .simple false false false 0x100#12), []) ∧
  decode [0x53#8, 0x81#8, 0x00#8] = .ok (.ldch (.f3 .simple true false false 0x100#12), []) ∧
  decode [0x0F#8, 0x11#8, 0x23#8, 0x45#8] = .ok (.sta (.f4 .simple false false false 0x12345#20), []) ∧
  decode [0x17#8, 0x40#8, 0x10#8] = .ok (.stl (.f3 .simple false true false 0x010#12), []) ∧
  decode [0x54#8, 0x10#8, 0x00#8] = .ok (.stch (.sic false 0x1000#15), []) ∧
  decode [0x2F#8, 0x00#8, 0x50#8] = .ok (.tix (.f3 .simple false false false 0x050#12), []) ∧
  decode [0x33#8, 0x20#8, 0x03#8] = .ok (.jeq (.f3 .simple false false true 0x003#12), []) ∧
  decode [0x4B#8, 0x10#8, 0x01#8, 0x00#8] = .ok (.jsub (.f4 .simple false false false 0x00100#20), []) ∧
  decode [0x4F#8, 0x00#8, 0x00#8] = .ok (.rsub (.f3 .simple false false false 0x000#12), []) ∧
  decode [0xE3#8, 0x00#8, 0x40#8] = .ok (.td (.f3 .simple false false false 0x040#12), []) ∧
  decode [0xEB#8, 0x01#8, 0x00#8] = .ok (.stsw (.f3 .simple false false false 0x100#12), [])

/-- 30_encoding.md R82: an unassigned opcode raises IllegalInstruction(B0); the bytes after `B0` are not
read, so nothing is asked of them. -/
def Obligations.UnassignedOpcodeRaisesOnFirstByte : Prop :=
  ∀ (s : State) (b0 : Byte), s.status = .running → s.pc ≠ s.exitAddr →
    BytesAt s.mem s.pc.toNat [b0] →
    (∀ m : Mnemonic, m.opcode.extractLsb' 2 6 ≠ b0.extractLsb' 2 6) →
    step s = .next (s.raise (.illegalInstruction [b0]))

/-- 30_encoding.md R74: the complete list of illegal flag combinations, with RSUB exempt and the SIC form
never illegal; an illegal one raises IllegalInstruction with the first two bytes, in either mode. -/
def Obligations.IllegalFlagCombinations : Prop :=
  (∀ m x addr15, flagsLegal m (.sic x addr15) = true) ∧
  (∀ o, flagsLegal .rsub o = true) ∧
  (∀ m ni x b p disp, m ≠ .rsub →
    (flagsLegal m (.f3 ni x b p disp) = false ↔
      (b = true ∧ p = true) ∨ (x = true ∧ ni ≠ .simple) ∨
      (ni = .immediate ∧ m.operandClass = .loc))) ∧
  (∀ m ni x b p addr20, m ≠ .rsub →
    (flagsLegal m (.f4 ni x b p addr20) = false ↔
      (b = true ∨ p = true) ∨ (x = true ∧ ni ≠ .simple) ∨
      (ni = .immediate ∧ m.operandClass = .loc))) ∧
  (∀ i s, i.wellFormed = false →
    ∃ b0 b1 rest, encode i = b0 :: b1 :: rest ∧
      exec i s = .next (s.raise (.illegalInstruction [b0, b1])))

/-! ## The instruction cycle -/

/-- A step runs the decoded instruction: when the bytes at the program counter decode to an instruction, the
step is `exec` of it, with nothing added (10_state.md R18). -/
def Obligations.StepRunsTheDecodedInstruction : Prop :=
  ∀ (s : State) (bytes : List Byte) (i : Instr) (rest : List Byte),
    s.status = .running → s.pc ≠ s.exitAddr → BytesAt s.mem s.pc.toNat bytes →
    decode bytes = .ok (i, rest) → step s = exec i s

/-- 70_reset_and_hazards.md R216: at `EXIT_ADDR` the run is over, nothing is fetched and nothing else
changes; and a run ends in no other way. -/
def Obligations.RunEndsAtExitAddressOnly : Prop :=
  (∀ s : State, s.status = .running → s.pc = s.exitAddr →
    step s = .next { s with status := .exited }) ∧
  (∀ s t : State, step s = .next t → t.status = .exited →
    s.status = .running ∧ s.pc = s.exitAddr ∧ t = { s with status := .exited })

/-- A running machine always steps, and no step exists from Exited or Faulted (10_state.md section 5). The
two outcomes' names are the model's (log 9). -/
def Obligations.ExactlyRunningMachinesStep : Prop :=
  (∀ s : State, (∃ t, step s = .next t) ↔ s.status = .running) ∧
  (∀ s : State, s.status = .exited → step s = .fault .runOver) ∧
  (∀ (s : State) (c : Cause) (a : Word), s.status = .faulted c a → step s = .fault (.stopped c a))

/-- 60_exceptions.md R183: a fault is precise. The faulted state is the state before the step but for the
run status, which records the cause and the address of the instruction, and it has no step. -/
def Obligations.FaultsArePrecise : Prop :=
  ∀ (s t : State) (c : Cause) (a : Word), step s = .next t → t.status = .faulted c a →
    a = s.pc ∧ t = { s with status := .faulted c s.pc } ∧ ∀ u, step t ≠ .next u

/-- A fetch at or over the top of memory raises AddressFault(fetch) with the first such address: at once
where `pc` is outside memory, and at 2^20 where the bytes up to the top begin a longer instruction
(10_state.md section 2, 30_encoding.md section 2). -/
def Obligations.FetchOutsideMemoryRaises : Prop :=
  (∀ s : State, s.status = .running → s.pc ≠ s.exitAddr → Config.memBytes ≤ s.pc.toNat →
    step s = .next (s.raise (.addressFault .fetch s.pc.toNat))) ∧
  (∀ (s : State) (bytes : List Byte) (m : Mnemonic),
    s.status = .running → s.pc ≠ s.exitAddr → BytesAt s.mem s.pc.toNat bytes →
    decode bytes = .error (.tooShort m) → s.pc.toNat + bytes.length = Config.memBytes →
    step s = .next (s.raise (.addressFault .fetch Config.memBytes)))

/-- `pc_next` never wraps in a step: an instruction that can be fetched lies inside memory (10_state.md
section 2). -/
def Obligations.NextAddressDoesNotWrap : Prop :=
  ∀ (s : State) (i : Instr), s.fetchInstr = .ok i →
    (s.pcNext i.operand).toNat = s.pc.toNat + i.operand.length ∧
    s.pc.toNat + i.operand.length ≤ Config.memBytes

/-! ## Memory -/

/-- The primitives MemRead and MemWrite, in and out of range (20_memory.md section 4). A byte never given a
value is unspecified state: reading it raises UninitializedRead or answers some value, and a word's other
bytes are as they are (60_exceptions.md section 1); of a word's bytes without a value the lowest is the one
recorded (log 18). -/
def Obligations.MemoryPrimitives : Prop :=
  ∀ (s : State) (site : ReadSite) (addr : Word),
    (Config.memBytes ≤ addr.toNat →
      s.memReadByte site addr = .error (.addressFault .read addr.toNat) ∧
      ∀ b, s.memWriteByte addr b = .error (.addressFault .write addr.toNat)) ∧
    (Config.memBytes ≤ addr.toNat + 2 →
      s.memReadWord site addr = .error (.addressFault .read addr.toNat) ∧
      ∀ v, s.memWriteWord addr v = .error (.addressFault .write addr.toNat)) ∧
    (addr.toNat < Config.memBytes →
      (∀ b, Memory.read s.mem addr.toNat = some b → s.memReadByte site addr = .ok b) ∧
      (Memory.read s.mem addr.toNat = none →
        match s.policy with
        | .fault =>
          s.memReadByte site addr = .error (.uninitializedRead (.memoryByte addr.toNat))
        | .draw => ∃ b, s.memReadByte site addr = .ok b) ∧
      ∀ b, ∃ mem, s.memWriteByte addr b = .ok { s with mem := mem } ∧
        Memory.read mem addr.toNat = some b ∧
        ∀ a, a ≠ addr.toNat → Memory.read mem a = Memory.read s.mem a) ∧
    (addr.toNat + 2 < Config.memBytes →
      (∀ v, WordAt s.mem addr.toNat v → s.memReadWord site addr = .ok v) ∧
      (∀ k < 3, Memory.read s.mem (addr.toNat + k) = none →
        (∀ j < k, Memory.read s.mem (addr.toNat + j) ≠ none) →
        match s.policy with
        | .fault =>
          s.memReadWord site addr = .error (.uninitializedRead (.memoryByte (addr.toNat + k)))
        | .draw => ∃ v, s.memReadWord site addr = .ok v ∧
          ∀ j < 3, ∀ b, Memory.read s.mem (addr.toNat + j) = some b →
            v.extractLsb' (16 - 8 * j) 8 = b) ∧
      ∀ v, ∃ mem, s.memWriteWord addr v = .ok { s with mem := mem } ∧
        WordAt mem addr.toNat v ∧
        ∀ a, a < addr.toNat ∨ addr.toNat + 3 ≤ a → Memory.read mem a = Memory.read s.mem a)

/-- The byte order seen by a mixed-width access: after a word store a byte load sees one byte of it, and
after a byte store at `a + 2` a word load sees the byte in bits 7:0 (20_memory.md section 2). -/
def Obligations.MixedWidthAccessSeesByteOrder : Prop :=
  (∀ (s t : State) (site : ReadSite) (a v : Word), s.memWriteWord a v = .ok t →
    t.memReadByte site a = .ok (v.extractLsb' 16 8) ∧
    t.memReadByte site (a + 1#24) = .ok (v.extractLsb' 8 8) ∧
    t.memReadByte site (a + 2#24) = .ok (v.extractLsb' 0 8) ∧
    t.memReadWord site a = .ok v) ∧
  (∀ (s t : State) (site : ReadSite) (a v : Word) (c : Byte), WordAt s.mem a.toNat v →
    s.memWriteByte (a + 2#24) c = .ok t →
    t.memReadWord site a = .ok (v.extractLsb' 8 16 ++ c))

/-- A store is seen by the next fetch: after STA completes, fetching any of its three bytes gives the byte
of A stored there (20_memory.md section 6, R51 in part). -/
def Obligations.StoredBytesAreFetched : Prop :=
  ∀ (o : Operand) (s t : State) (m v : Word), s.status = .running →
    s.resolveLoc .sta o = .ok m → s.readReg .effect .a = .ok v →
    exec (.sta o) s = .next t → t.status = .running →
    ∀ (u : State) (k j : Nat) (b : Byte), u.mem = t.mem → u.pc.toNat + k = m.toNat + j →
      [v.extractLsb' 16 8, v.extractLsb' 8 8, v.extractLsb' 0 8][j]? = some b →
      u.fetchByte k = .ok b

/-! ## Addressing -/

/-- 30_encoding.md R70: the target address of every legal form, modulo 2^24; every other combination of form,
b and p is illegal. B need be readable only where it is the base, X only where x is 1. -/
def Obligations.TargetAddressFormulas : Prop :=
  ∀ (s : State) (m : Mnemonic) (xv : Word),
    (m.privileged = true → s.mode = .supervisor) →
    (∀ x addr15, (x = true → s.readReg .address .x = .ok xv) →
      s.resolveTarget m (.sic x addr15) =
        .ok (BitVec.ofNat 24 (addr15.toNat + if x then xv.toNat else 0))) ∧
    (∀ ni x addr20, (x = true → s.readReg .address .x = .ok xv) →
      legalRelative m (.f4 ni x false false addr20) ≠ none →
      s.resolveTarget m (.f4 ni x false false addr20) =
        .ok (BitVec.ofNat 24 (addr20.toNat + if x then xv.toNat else 0))) ∧
    (∀ ni x disp, (x = true → s.readReg .address .x = .ok xv) →
      legalRelative m (.f3 ni x false false disp) ≠ none →
      s.resolveTarget m (.f3 ni x false false disp) =
        .ok (BitVec.ofNat 24 (disp.toNat + if x then xv.toNat else 0))) ∧
    (∀ ni x disp bv, s.readReg .address .b = .ok bv →
      (x = true → s.readReg .address .x = .ok xv) →
      legalRelative m (.f3 ni x true false disp) ≠ none →
      s.resolveTarget m (.f3 ni x true false disp) =
        .ok (BitVec.ofNat 24 (bv.toNat + disp.toNat + if x then xv.toNat else 0))) ∧
    (∀ ni x disp, (x = true → s.readReg .address .x = .ok xv) →
      legalRelative m (.f3 ni x false true disp) ≠ none →
      s.resolveTarget m (.f3 ni x false true disp) =
        .ok (BitVec.ofInt 24 (((s.pc.toNat + 3 : Nat) : Int) + disp.toInt
          + if x then (xv.toNat : Int) else 0))) ∧
    (∀ ni x disp, legalRelative m (.f3 ni x true true disp) = none) ∧
    (∀ ni x b p addr20, (b = true ∨ p = true) → legalRelative m (.f4 ni x b p addr20) = none)

/-- How the target address is used: immediate, simple and indirect addressing for each operand class
(30_encoding.md R75), over the bytes of memory. What raises in the target address, in the read of the
pointer or in the read of the operand is what the resolution raises. -/
def Obligations.OperandResolution : Prop :=
  ∀ (s : State) (m : Mnemonic) (o : Operand),
    (∀ c, s.resolveTarget m o = .error c →
      s.resolveLoc m o = .error c ∧ s.resolveWord m o = .error c ∧ s.resolveByte m o = .error c) ∧
    ∀ ta, s.resolveTarget m o = .ok ta →
      (o.addressing = .immediate →
        s.resolveWord m o = .ok ta ∧ s.resolveByte m o = .ok (ta.extractLsb' 0 8)) ∧
      (o.addressing = .simple →
        s.resolveLoc m o = .ok ta ∧
        (∀ v, WordAt s.mem ta.toNat v → s.resolveWord m o = .ok v) ∧
        (∀ b, BytesAt s.mem ta.toNat [b] → s.resolveByte m o = .ok b) ∧
        (∀ c, s.memReadWord .operand ta = .error c → s.resolveWord m o = .error c) ∧
        (∀ c, s.memReadByte .operand ta = .error c → s.resolveByte m o = .error c)) ∧
      (o.addressing = .indirect →
        (∀ c, s.memReadWord .pointer ta = .error c →
          s.resolveLoc m o = .error c ∧ s.resolveWord m o = .error c ∧
          s.resolveByte m o = .error c) ∧
        ∀ loc, WordAt s.mem ta.toNat loc →
          s.resolveLoc m o = .ok loc ∧
          (∀ v, WordAt s.mem loc.toNat v → s.resolveWord m o = .ok v) ∧
          (∀ b, BytesAt s.mem loc.toNat [b] → s.resolveByte m o = .ok b) ∧
          (∀ c, s.memReadWord .operand loc = .error c → s.resolveWord m o = .error c) ∧
          (∀ c, s.memReadByte .operand loc = .error c → s.resolveByte m o = .error c))

/-! ## Loads and stores -/

/-- LDA, LDX and LDL complete with the operand in their register; nothing else changes but `pc` (40_load_store.md
LDA, LDX, LDL). -/
def Obligations.WordLoadsComplete : Prop :=
  ∀ (o : Operand) (s : State) (v : Word),
    (s.resolveWord .lda o = .ok v → exec (.lda o) s =
      .next { s with rA := v, known := { s.known with a := true }, pc := s.pcNext o,
                     draws := s.draws + 1 }) ∧
    (s.resolveWord .ldx o = .ok v → exec (.ldx o) s =
      .next { s with rX := v, known := { s.known with x := true }, pc := s.pcNext o,
                     draws := s.draws + 1 }) ∧
    (s.resolveWord .ldl o = .ok v → exec (.ldl o) s =
      .next { s with rL := v, known := { s.known with l := true }, pc := s.pcNext o,
                     draws := s.draws + 1 })

/-- LDCH completes with the operand in bits 7:0 of A and bits 23:8 kept (40_load_store.md LDCH). -/
def Obligations.LdchReplacesTheRightmostByte : Prop :=
  ∀ (o : Operand) (s : State) (v : Byte) (a : Word),
    s.resolveByte .ldch o = .ok v → s.readReg .effect .a = .ok a →
    ∃ r : Word, r.extractLsb' 8 16 = a.extractLsb' 8 16 ∧ r.extractLsb' 0 8 = v ∧
      exec (.ldch o) s =
        .next { s with rA := r, known := { s.known with a := true }, pc := s.pcNext o,
                       draws := s.draws + 1 }

/-- STA, STX and STL complete with the register in the three bytes at the location, every other byte and
everything else but `pc` unchanged (40_load_store.md STA, STX, STL). -/
def Obligations.WordStoresComplete : Prop :=
  ∀ (o : Operand) (s : State) (m v : Word), m.toNat + 2 < Config.memBytes →
    ∃ mem, WordAt mem m.toNat v ∧
      (∀ a, a < m.toNat ∨ m.toNat + 3 ≤ a → Memory.read mem a = Memory.read s.mem a) ∧
      (s.resolveLoc .sta o = .ok m → s.readReg .effect .a = .ok v → exec (.sta o) s =
        .next { s with mem := mem, pc := s.pcNext o, draws := s.draws + 1 }) ∧
      (s.resolveLoc .stx o = .ok m → s.readReg .effect .x = .ok v → exec (.stx o) s =
        .next { s with mem := mem, pc := s.pcNext o, draws := s.draws + 1 }) ∧
      (s.resolveLoc .stl o = .ok m → s.readReg .effect .l = .ok v → exec (.stl o) s =
        .next { s with mem := mem, pc := s.pcNext o, draws := s.draws + 1 })

/-- STCH completes with bits 7:0 of A in the one byte at the location, every other byte and everything else
but `pc` unchanged (40_load_store.md STCH). -/
def Obligations.StchStoresOneByte : Prop :=
  ∀ (o : Operand) (s : State) (m a : Word), m.toNat < Config.memBytes →
    s.resolveLoc .stch o = .ok m → s.readReg .effect .a = .ok a →
    ∃ mem, Memory.read mem m.toNat = some (a.extractLsb' 0 8) ∧
      (∀ k, k ≠ m.toNat → Memory.read mem k = Memory.read s.mem k) ∧
      exec (.stch o) s = .next { s with mem := mem, pc := s.pcNext o, draws := s.draws + 1 }

/-- A store whose bytes reach an address of 2^20 raises AddressFault(write) and writes no byte
(40_load_store.md STA to STCH, 43_io_system.md STSW). -/
def Obligations.StoresOutsideMemoryRaise : Prop :=
  ∀ (o : Operand) (s : State) (m v : Word) (c : CC), Config.memBytes ≤ m.toNat + 2 →
    (s.resolveLoc .sta o = .ok m → s.readReg .effect .a = .ok v →
      exec (.sta o) s = .next (s.raise (.addressFault .write m.toNat))) ∧
    (s.resolveLoc .stx o = .ok m → s.readReg .effect .x = .ok v →
      exec (.stx o) s = .next (s.raise (.addressFault .write m.toNat))) ∧
    (s.resolveLoc .stl o = .ok m → s.readReg .effect .l = .ok v →
      exec (.stl o) s = .next (s.raise (.addressFault .write m.toNat))) ∧
    (s.resolveLoc .stsw o = .ok m → s.readCC = .ok c →
      exec (.stsw o) s = .next (s.raise (.addressFault .write m.toNat))) ∧
    (Config.memBytes ≤ m.toNat → s.resolveLoc .stch o = .ok m → s.readReg .effect .a = .ok v →
      exec (.stch o) s = .next (s.raise (.addressFault .write m.toNat)))

/-! ## Arithmetic and logic -/

/-- ADD, SUB and MUL complete with the exact result modulo 2^24 in A, and set no condition code
(41_arith_logic.md ADD, SUB, MUL). -/
def Obligations.SumDifferenceProductWrap : Prop :=
  ∀ (o : Operand) (s : State) (v a : Word), s.readReg .effect .a = .ok a →
    (s.resolveWord .add o = .ok v → ∃ r : Word,
      (r.toNat : Int) = ((a.toNat : Int) + v.toNat) % 2 ^ 24 ∧ exec (.add o) s =
        .next { s with rA := r, known := { s.known with a := true }, pc := s.pcNext o,
                       draws := s.draws + 1 }) ∧
    (s.resolveWord .sub o = .ok v → ∃ r : Word,
      (r.toNat : Int) = ((a.toNat : Int) - v.toNat) % 2 ^ 24 ∧ exec (.sub o) s =
        .next { s with rA := r, known := { s.known with a := true }, pc := s.pcNext o,
                       draws := s.draws + 1 }) ∧
    (s.resolveWord .mul o = .ok v → ∃ r : Word,
      (r.toNat : Int) = (a.toInt * v.toInt) % 2 ^ 24 ∧ exec (.mul o) s =
        .next { s with rA := r, known := { s.known with a := true }, pc := s.pcNext o,
                       draws := s.draws + 1 })

/-- For ADD, SUB and MUL the bits kept are the same whether the operands are read as signed or unsigned, and
DIV's quotient is the signed quotient of bit vectors, the overflowing case included (41_arith_logic.md, the
integer arithmetic laws, MUL and DIV). -/
def Obligations.ArithmeticOnBitVectors : Prop :=
  ∀ a v : Word,
    addWords a v = wrap24 (a.toInt + v.toInt) ∧ addWords a v = wrap24 (a.toNat + v.toNat) ∧
    subWords a v = wrap24 (a.toInt - v.toInt) ∧ subWords a v = wrap24 (a.toNat - v.toNat) ∧
    mulWords a v = wrap24 (a.toInt * v.toInt) ∧ mulWords a v = wrap24 (a.toNat * v.toNat) ∧
    (v ≠ 0#24 → divWords a v = a.sdiv v)

/-- DIV by an operand that is not zero completes with the quotient rounded toward zero, modulo 2^24, in A
(41_arith_logic.md DIV). The quotient is given by its size and its sign. -/
def Obligations.DivRoundsTowardZero : Prop :=
  ∀ (o : Operand) (s : State) (v a : Word), s.resolveWord .div o = .ok v → v ≠ 0#24 →
    s.readReg .effect .a = .ok a →
    ∃ (q : Int) (r : Word), q.natAbs = a.toInt.natAbs / v.toInt.natAbs ∧
      (0 ≤ a.toInt * v.toInt → 0 ≤ q) ∧ (a.toInt * v.toInt ≤ 0 → q ≤ 0) ∧
      (r.toNat : Int) = q % 2 ^ 24 ∧ exec (.div o) s =
        .next { s with rA := r, known := { s.known with a := true }, pc := s.pcNext o,
                       draws := s.draws + 1 }

/-- 60_exceptions.md R185: DIV with a zero operand raises DivideByZero, and A is unchanged. -/
def Obligations.DivByZeroRaises : Prop :=
  ∀ (o : Operand) (s : State), s.resolveWord .div o = .ok 0#24 →
    exec (.div o) s = .next (s.raise .divideByZero) ∧ (s.raise .divideByZero).rA = s.rA

/-- 41_arith_logic.md R128: the results of DIV at every sign combination and at zero. -/
def Obligations.DivisionTable : Prop :=
  ∀ (o : Operand) (s : State) (v a : Word), s.resolveWord .div o = .ok v →
    s.readReg .effect .a = .ok a →
    (∀ q : Word,
      (a, v, q) ∈
        [(0x000007#24, 0x000002#24, 0x000003#24), (0xFFFFF9#24, 0x000002#24, 0xFFFFFD#24),
         (0x000007#24, 0xFFFFFE#24, 0xFFFFFD#24), (0xFFFFF9#24, 0xFFFFFE#24, 0x000003#24),
         (0x000001#24, 0x000002#24, 0x000000#24), (0xFFFFFF#24, 0x000002#24, 0x000000#24),
         (0x800000#24, 0xFFFFFF#24, 0x800000#24), (0x800000#24, 0x000001#24, 0x800000#24),
         (0x7FFFFF#24, 0xFFFFFF#24, 0x800001#24)] →
      ∃ t, exec (.div o) s = .next t ∧ t.rA = q) ∧
    (a = 0#24 → v ≠ 0#24 → ∃ t, exec (.div o) s = .next t ∧ t.rA = 0#24) ∧
    (v = 0#24 → exec (.div o) s = .next (s.raise .divideByZero))

/-- AND and OR complete with each bit of A combined with the operand's bit (41_arith_logic.md AND, OR). -/
def Obligations.LogicalInstructionsComplete : Prop :=
  ∀ (o : Operand) (s : State) (v a : Word), s.readReg .effect .a = .ok a →
    (s.resolveWord .and o = .ok v → ∃ r : Word,
      (∀ k, r.getLsbD k = (a.getLsbD k && v.getLsbD k)) ∧ exec (.and o) s =
        .next { s with rA := r, known := { s.known with a := true }, pc := s.pcNext o,
                       draws := s.draws + 1 }) ∧
    (s.resolveWord .or o = .ok v → ∃ r : Word,
      (∀ k, r.getLsbD k = (a.getLsbD k || v.getLsbD k)) ∧ exec (.or o) s =
        .next { s with rA := r, known := { s.known with a := true }, pc := s.pcNext o,
                       draws := s.draws + 1 })

/-! ## Compare and control transfer -/

/-- COMP completes with CC the signed comparison of A with the operand; A is unchanged (42_compare_jump.md
COMP). -/
def Obligations.CompSetsSignedComparison : Prop :=
  ∀ (o : Operand) (s : State) (v a : Word), s.resolveWord .comp o = .ok v →
    s.readReg .effect .a = .ok a →
    exec (.comp o) s =
      .next { s with cc := if a.slt v then .lt else if a = v then .eq else .gt,
                     known := { s.known with cc := true }, pc := s.pcNext o, draws := s.draws + 1 }

/-- TIX completes with X incremented, wrapping, and CC the signed comparison of the new X with the operand
(42_compare_jump.md TIX). -/
def Obligations.TixIncrementsThenCompares : Prop :=
  ∀ (o : Operand) (s : State) (v x : Word), s.resolveWord .tix o = .ok v →
    s.readReg .effect .x = .ok x →
    exec (.tix o) s =
      .next { s with rX := x + 1#24,
                     cc := if (x + 1#24).slt v then .lt else if x + 1#24 = v then .eq else .gt,
                     known := { s.known with x := true, cc := true }, pc := s.pcNext o,
                     draws := s.draws + 1 }

/-- J completes at its location, even one outside memory; JSUB also leaves the address after itself in L
(42_compare_jump.md J, JSUB). -/
def Obligations.JumpsComplete : Prop :=
  ∀ (o : Operand) (s : State) (m : Word),
    (s.resolveLoc .j o = .ok m →
      exec (.j o) s = .next { s with pc := m, draws := s.draws + 1 }) ∧
    (s.resolveLoc .jsub o = .ok m →
      exec (.jsub o) s =
        .next { s with rL := BitVec.ofNat 24 (s.pc.toNat + o.length),
                       known := { s.known with l := true }, pc := m, draws := s.draws + 1 })

/-- RSUB completes at the address in L, whatever its flags and field, in either mode; L is unchanged
(42_compare_jump.md RSUB). -/
def Obligations.RsubReturnsThroughL : Prop :=
  ∀ (o : Operand) (s : State) (l : Word), s.readReg .effect .l = .ok l →
    exec (.rsub o) s = .next { s with pc := l, draws := s.draws + 1 }

/-- JEQ, JGT and JLT complete at their location if CC is EQ, GT, LT and after themselves if not; CC is
unchanged (42_compare_jump.md JEQ, JGT, JLT; 90_conflicts.md C1). -/
def Obligations.ConditionalJumpsComplete : Prop :=
  ∀ (o : Operand) (s : State) (m : Word) (c : CC), s.readCC = .ok c →
    (s.resolveLoc .jeq o = .ok m → exec (.jeq o) s =
      .next { s with pc := if c = .eq then m else s.pcNext o, draws := s.draws + 1 }) ∧
    (s.resolveLoc .jgt o = .ok m → exec (.jgt o) s =
      .next { s with pc := if c = .gt then m else s.pcNext o, draws := s.draws + 1 }) ∧
    (s.resolveLoc .jlt o = .ok m → exec (.jlt o) s =
      .next { s with pc := if c = .lt then m else s.pcNext o, draws := s.draws + 1 })

/-- Every instruction raises what the resolution of its operand raises, whatever its operand class
(60_exceptions.md section 1): an AddressFault or UninitializedRead of the read, or what the target address
raises. A conditional jump does so whether or not it would be taken (42_compare_jump.md JEQ), and a store
before its register is read. -/
def Obligations.ResolutionFaultsAreRaised : Prop :=
  ∀ (m : Mnemonic) (o : Operand) (s : State) (c : Cause),
    (m.operandClass = .word → s.resolveWord m o = .error c →
      exec (m.instr o) s = .next (s.raise c)) ∧
    (m.operandClass = .byte → s.resolveByte m o = .error c →
      exec (m.instr o) s = .next (s.raise c)) ∧
    (m.operandClass = .loc → s.resolveLoc m o = .error c →
      exec (m.instr o) s = .next (s.raise c)) ∧
    (m.operandClass = .none ↔ m = .rsub)

/-! ## Devices and the status word -/

/-- TD completes: the device's answer decides CC (ready LT, not ready EQ) and the latch, and is recorded. The
answer is the first one stated in advance for the device, else a free value (43_io_system.md TD; the
place of the stated answers is the model's, log 7). -/
def Obligations.TdRecordsTheAnswer : Prop :=
  ∀ (o : Operand) (s : State) (d : Byte), s.resolveByte .td o = .ok d →
    (∀ (before after : List (Byte × Bool)) (r : Bool),
      s.testAnswers = before ++ (d, r) :: after → (∀ e ∈ before, e.1 ≠ d) →
      exec (.td o) s =
        .next { s with cc := if r then .lt else .eq, known := { s.known with cc := true },
                       ready := s.ready.set d.toNat r d.isLt,
                       deviceLog := s.deviceLog ++ [.tested d r], testAnswers := before ++ after,
                       pc := s.pcNext o, draws := s.draws + 1 }) ∧
    ((∀ e ∈ s.testAnswers, e.1 ≠ d) → ∃ r : Bool, r = Config.deviceReady s.deviceLog d ∧
      exec (.td o) s =
        .next { s with cc := if r then .lt else .eq, known := { s.known with cc := true },
                       ready := s.ready.set d.toNat r d.isLt,
                       deviceLog := s.deviceLog ++ [.tested d r],
                       pc := s.pcNext o, draws := s.draws + 1 })

/-- RD on a ready device completes: the byte supplied replaces bits 7:0 of A, bits 23:8 and CC stay, the
latch is cleared (43_io_system.md RD; the place of the stated answers is the model's, log 7). -/
def Obligations.RdTransfersOneByte : Prop :=
  ∀ (o : Operand) (s : State) (d : Byte) (a : Word), s.resolveByte .rd o = .ok d →
    s.isReady d = true → s.readReg .effect .a = .ok a →
    (∀ (before after : List (Byte × Byte)) (b : Byte),
      s.readAnswers = before ++ (d, b) :: after → (∀ e ∈ before, e.1 ≠ d) →
      exec (.rd o) s =
        .next { s with rA := a.extractLsb' 8 16 ++ b, known := { s.known with a := true },
                       ready := s.ready.set d.toNat false d.isLt,
                       deviceLog := s.deviceLog ++ [.read d b], readAnswers := before ++ after,
                       pc := s.pcNext o, draws := s.draws + 1 }) ∧
    ((∀ e ∈ s.readAnswers, e.1 ≠ d) → ∃ b : Byte, b = Config.deviceByte s.deviceLog d ∧
      exec (.rd o) s =
        .next { s with rA := a.extractLsb' 8 16 ++ b, known := { s.known with a := true },
                       ready := s.ready.set d.toNat false d.isLt,
                       deviceLog := s.deviceLog ++ [.read d b],
                       pc := s.pcNext o, draws := s.draws + 1 })

/-- WD on a ready device completes: bits 7:0 of A are appended to the device's output and to no other, A
and CC stay, the latch is cleared (43_io_system.md WD). -/
def Obligations.WdTransfersOneByte : Prop :=
  ∀ (o : Operand) (s : State) (d : Byte) (a : Word), s.resolveByte .wd o = .ok d →
    s.isReady d = true → s.readReg .effect .a = .ok a →
    ∃ t, exec (.wd o) s = .next t ∧
      t = { s with ready := s.ready.set d.toNat false d.isLt,
                   deviceLog := s.deviceLog ++ [.wrote d (a.extractLsb' 0 8)],
                   pc := s.pcNext o, draws := s.draws + 1 } ∧
      t.out d = s.out d ++ [a.extractLsb' 0 8] ∧ ∀ k, k ≠ d → t.out k = s.out k

/-- 60_exceptions.md R186: RD and WD on a device whose latch is 0 raise DeviceNotReady, and the device is
not asked anything. -/
def Obligations.TransferWithoutTestRaises : Prop :=
  ∀ (o : Operand) (s : State) (d : Byte), s.isReady d = false →
    (s.resolveByte .rd o = .ok d → exec (.rd o) s = .next (s.raise (.deviceNotReady d))) ∧
    (s.resolveByte .wd o = .ok d → exec (.wd o) s = .next (s.raise (.deviceNotReady d))) ∧
    (s.raise (.deviceNotReady d)).deviceLog = s.deviceLog

/-- STSW completes with the three bytes of `SW_IMAGE(CC, mode)` at the location, most significant first;
every other byte and everything else but `pc` is unchanged (43_io_system.md STSW). -/
def Obligations.StswStoresTheStatusWord : Prop :=
  ∀ (o : Operand) (s : State) (m : Word) (c : CC), m.toNat + 2 < Config.memBytes →
    s.resolveLoc .stsw o = .ok m → s.readCC = .ok c →
    ∃ mem, WordAt mem m.toNat (Config.swImage c s.mode) ∧
      (∀ a, a < m.toNat ∨ m.toNat + 3 ≤ a → Memory.read mem a = Memory.read s.mem a) ∧
      exec (.stsw o) s = .next { s with mem := mem, pc := s.pcNext o, draws := s.draws + 1 }

/-- 43_io_system.md R162: RD, TD, WD and STSW raise PrivilegeViolation in user mode before any operand is
resolved, so whatever memory and registers hold; in supervisor mode, or for another instruction, the check
never fires; and no step changes the mode. -/
def Obligations.PrivilegedInstructionsInUserMode : Prop :=
  (∀ (m : Mnemonic) (o : Operand) (s : State), m = .rd ∨ m = .td ∨ m = .wd ∨ m = .stsw →
    flagsLegal m o = true → s.mode = .user →
    exec (m.instr o) s = .next (s.raise (.privilegeViolation m))) ∧
  (∀ (i : Instr) (s t : State) (m : Mnemonic) (a : Word), s.status = .running →
    exec i s = .next t → t.status = .faulted (.privilegeViolation m) a →
    i.mnemonic = m ∧ (m = .rd ∨ m = .td ∨ m = .wd ∨ m = .stsw) ∧ s.mode = .user) ∧
  (∀ s t : State, step s = .next t → t.mode = s.mode)

/-! ## Unspecified state -/

/-- `UNINIT_POLICY = draw`: no step raises UninitializedRead, and a register or CC without a value reads as
a free value (60_exceptions.md section 1). -/
def Obligations.DrawPolicyNeverFaults : Prop :=
  (∀ (s t : State) (w : Unspecified) (a : Word), s.policy = .draw → step s = .next t →
    t.status ≠ .faulted (.uninitializedRead w) a) ∧
  (∀ (s : State) (site : ReadSite) (r : WordReg), s.policy = .draw → s.known.word r = false →
    s.readReg site r = .ok (Config.drawWord s.draws site r)) ∧
  (∀ s : State, s.policy = .draw → s.known.cc = false → s.readCC = .ok (Config.drawCC s.draws))

/-- `UNINIT_POLICY = fault`: every instruction that reads A, X, L or CC for its effect while it has no value
raises UninitializedRead of it, LDCH included, which keeps the upper 16 bits only; so does every instruction
that reads X or B for its target address (60_exceptions.md section 1). DIV by zero and a transfer on a device
that is not ready raise before A is read (log 18), and each of X and B is spoken of where the other can be
read. -/
def Obligations.UninitializedRegistersRaise : Prop :=
  ∀ (m : Mnemonic) (o : Operand) (s : State), s.policy = .fault →
    (s.known.a = false →
      (∀ v, m ∈ [.add, .sub, .mul, .div, .and, .or, .comp] → s.resolveWord m o = .ok v →
        (m = .div → v ≠ 0#24) →
        exec (m.instr o) s = .next (s.raise (.uninitializedRead (.register .a)))) ∧
      (∀ d, m ∈ [.ldch, .rd, .wd] → s.resolveByte m o = .ok d →
        (m ≠ .ldch → s.isReady d = true) →
        exec (m.instr o) s = .next (s.raise (.uninitializedRead (.register .a)))) ∧
      (∀ loc, m ∈ [.sta, .stch] → s.resolveLoc m o = .ok loc →
        exec (m.instr o) s = .next (s.raise (.uninitializedRead (.register .a))))) ∧
    (s.known.x = false →
      (∀ v, m = .tix → s.resolveWord m o = .ok v →
        exec (m.instr o) s = .next (s.raise (.uninitializedRead (.register .x)))) ∧
      (∀ loc, m = .stx → s.resolveLoc m o = .ok loc →
        exec (m.instr o) s = .next (s.raise (.uninitializedRead (.register .x))))) ∧
    (s.known.l = false →
      (m = .rsub → exec (m.instr o) s = .next (s.raise (.uninitializedRead (.register .l)))) ∧
      (∀ loc, m = .stl → s.resolveLoc m o = .ok loc →
        exec (m.instr o) s = .next (s.raise (.uninitializedRead (.register .l))))) ∧
    (s.known.cc = false → ∀ loc, m ∈ [.jeq, .jgt, .jlt, .stsw] → s.resolveLoc m o = .ok loc →
      exec (m.instr o) s = .next (s.raise (.uninitializedRead .conditionCode))) ∧
    (∀ r, m ≠ .rsub → legalRelative m o = some r → (m.privileged = true → s.mode = .supervisor) →
      (o.indexed = true → s.known.x = false → (r = .base → s.known.b = true) →
        exec (m.instr o) s = .next (s.raise (.uninitializedRead (.register .x)))) ∧
      (r = .base → s.known.b = false → (o.indexed = true → s.known.x = true) →
        exec (m.instr o) s = .next (s.raise (.uninitializedRead (.register .b)))))

/-- What has been given a value keeps having one: no step makes a register, CC or a byte of memory
unspecified again (60_exceptions.md section 1). -/
def Obligations.GivenStateStaysGiven : Prop :=
  ∀ s t : State, step s = .next t →
    (∀ r, s.known.word r = true → t.known.word r = true) ∧
    (s.known.f = true → t.known.f = true) ∧ (s.known.cc = true → t.known.cc = true) ∧
    ∀ a, (Memory.read s.mem a).isSome = true → (Memory.read t.mem a).isSome = true

/-! ## Rules of the whole machine -/

/-- No step changes B, S, T, F, the mode or the launch's parameters (10_state.md sections 1 and 3). -/
def Obligations.NoStepChangesIdleRegistersOrMode : Prop :=
  ∀ s t : State, step s = .next t →
    t.rB = s.rB ∧ t.rS = s.rS ∧ t.rT = s.rT ∧ t.rF = s.rF ∧ t.mode = s.mode ∧
    t.exitAddr = s.exitAddr ∧ t.policy = s.policy

/-- 10_state.md R15, R16: no instruction reads or writes S, T or F. With other values in them, every step
gives the same outcome, with those values still there. -/
def Obligations.IdleRegistersAreNeitherReadNorWritten : Prop :=
  ∀ (s : State) (vs vt : Word) (vf : Float48),
    step (withIdle s vs vt vf) = mapNext (fun t => withIdle t vs vt vf) (step s)

/-- Only COMP, TIX and TD change CC, and TD never sets GT (10_state.md section 3, 43_io_system.md TD). -/
def Obligations.ConditionCodeWriters : Prop :=
  (∀ (i : Instr) (s t : State), exec i s = .next t →
    i.mnemonic ≠ .comp → i.mnemonic ≠ .tix → i.mnemonic ≠ .td →
    t.cc = s.cc ∧ t.known.cc = s.known.cc) ∧
  (∀ (o : Operand) (s t : State), s.status = .running → exec (.td o) s = .next t →
    t.status = .running → t.cc = .lt ∨ t.cc = .eq)

/-- Only the instructions that name A, X or L as a destination change it (10_state.md section 1). -/
def Obligations.WordRegisterWriters : Prop :=
  ∀ (i : Instr) (s t : State), exec i s = .next t →
    (i.mnemonic ∉ [.add, .sub, .mul, .div, .and, .or, .lda, .ldch, .rd] →
      t.rA = s.rA ∧ t.known.a = s.known.a) ∧
    (i.mnemonic ∉ [.ldx, .tix] → t.rX = s.rX ∧ t.known.x = s.known.x) ∧
    (i.mnemonic ∉ [.ldl, .jsub] → t.rL = s.rL ∧ t.known.l = s.known.l) ∧
    (s.known.a = true → i.mnemonic = .ldch ∨ i.mnemonic = .rd →
      t.rA.extractLsb' 8 16 = s.rA.extractLsb' 8 16)

/-- Frame of the instructions that store nothing in memory: every byte of memory reads as before
(20_memory.md section 4). -/
def Obligations.OnlyStoresChangeMemory : Prop :=
  ∀ (i : Instr) (s t : State), exec i s = .next t →
    i.mnemonic ∉ [.sta, .stx, .stl, .stch, .stsw] →
    ∀ a, Memory.read t.mem a = Memory.read s.mem a

/-- Frame of the instructions that store: STA, STX, STL and STSW change no byte outside the three at the
location the operand gives, STCH none but the one there, and no register, flag, device or latch changes
(20_memory.md section 4). -/
def Obligations.StoresChangeOnlyTheirBytes : Prop :=
  ∀ (m : Mnemonic) (o : Operand) (s t : State) (loc : Word),
    m ∈ [.sta, .stx, .stl, .stch, .stsw] → s.resolveLoc m o = .ok loc →
    exec (m.instr o) s = .next t →
    (∀ a, a < loc.toNat ∨ loc.toNat + (if m = .stch then 1 else 3) ≤ a →
      Memory.read t.mem a = Memory.read s.mem a) ∧
    t = { s with mem := t.mem, pc := t.pc, status := t.status, draws := t.draws }

/-- Frame of the devices: only TD, RD and WD put a question, each that completes exactly one, appended to the
log; only they change a latch, and only that of the device they name (20_memory.md section 6, 10_state.md
section 5). -/
def Obligations.OnlyDeviceInstructionsAskDevices : Prop :=
  (∀ (i : Instr) (s t : State), exec i s = .next t → i.mnemonic ∉ [.td, .rd, .wd] →
    t.deviceLog = s.deviceLog ∧ t.ready = s.ready ∧ t.testAnswers = s.testAnswers ∧
    t.readAnswers = s.readAnswers) ∧
  (∀ (m : Mnemonic) (o : Operand) (s t : State) (d : Byte), m ∈ [.td, .rd, .wd] →
    s.status = .running → s.resolveByte m o = .ok d → exec (m.instr o) s = .next t →
    t.status = .running →
    (∃ e, t.deviceLog = s.deviceLog ++ [e] ∧
      (m = .td → ∃ r, e = .tested d r) ∧ (m = .rd → ∃ b, e = .read d b) ∧
      (m = .wd → ∃ b, e = .wrote d b)) ∧
    ∀ k, k ≠ d → t.isReady k = s.isReady k)

/-- In user mode no step touches the devices: no question is put and no latch changes (60_exceptions.md
section 3). -/
def Obligations.UserModeNeverTouchesDevices : Prop :=
  ∀ s t : State, s.mode = .user → step s = .next t →
    t.deviceLog = s.deviceLog ∧ t.ready = s.ready

/-- Every step keeps memory in its canonical form: addresses rise strictly and lie below 2^20 (20_memory.md
section 1; the form is the model's, log 5). -/
def Obligations.StepKeepsMemoryCanonical : Prop :=
  ∀ s t : State, Memory.wf s.mem → step s = .next t → Memory.wf t.mem

/-- The device discipline is kept by every step: each latch is what the questions so far make it, and every
transfer follows a TD that answered ready with no transfer on the device between (70_reset_and_hazards.md
section 3, 10_state.md section 5). -/
def Obligations.StepKeepsDeviceDiscipline : Prop :=
  ∀ s t : State, LatchInvariant s → step s = .next t → LatchInvariant t

/-! ## Launch and reset -/

/-- The state a launch gives (70_reset_and_hazards.md section 1). Every byte of memory is the last one a Text
record places there, else the one the launch states, else unspecified; that a Text record's byte stays where
the launch states one for its address too is the model's choice (log 24), and so is where the answers of
devices that a launch states are kept (log 7). -/
def Obligations.LaunchGivesTheSpecsState : Prop :=
  ∀ (p : ObjectProgram) (exitAddr : Word) (mode : Mode) (policy : UninitPolicy) (g : Stated) (s : State),
    launch p exitAddr mode policy g = .ok s →
    (∀ a, Memory.read s.mem a =
      (((g.bytes ++ p.cells).filter fun c => c.1 = a).getLast?).map Prod.snd) ∧
    s.pc = p.entry ∧ s.rL = exitAddr ∧ s.known.l = true ∧ s.exitAddr = exitAddr ∧ s.mode = mode ∧
    s.policy = policy ∧ s.testAnswers = g.testAnswers ∧ s.readAnswers = g.readAnswers ∧
    (∀ d, s.isReady d = false) ∧ (∀ d, s.out d = []) ∧ s.status = .running ∧
    (∀ v, g.a = some v → s.rA = v) ∧ s.known.a = g.a.isSome ∧
    (∀ v, g.x = some v → s.rX = v) ∧ s.known.x = g.x.isSome ∧
    (∀ v, g.b = some v → s.rB = v) ∧ s.known.b = g.b.isSome ∧
    (∀ v, g.s = some v → s.rS = v) ∧ s.known.s = g.s.isSome ∧
    (∀ v, g.t = some v → s.rT = v) ∧ s.known.t = g.t.isSome ∧
    (∀ v, g.f = some v → s.rF = v) ∧ s.known.f = g.f.isSome ∧
    (∀ v, g.cc = some v → s.cc = v) ∧ s.known.cc = g.cc.isSome ∧
    (p.entry = exitAddr → step s = .next { s with status := .exited })

/-- 70_reset_and_hazards.md R211: a launch is refused exactly when the Header's range ends beyond memory or a
Text record places a byte outside it (a byte stated outside memory, which the spec does not speak of,
is refused too, log 24). -/
def Obligations.LaunchIsRefusedOutsideTheHeader : Prop :=
  ∀ (p : ObjectProgram) (exitAddr : Word) (mode : Mode) (policy : UninitPolicy) (g : Stated),
    (∀ c ∈ g.bytes, c.1 < Config.memBytes) →
    ((∃ s, launch p exitAddr mode policy g = .ok s) ↔
      p.start.toNat + p.length.toNat ≤ Config.memBytes ∧
      ∀ r ∈ p.texts, ∀ k < r.code.length,
        p.start.toNat ≤ r.start.toNat + k ∧
        r.start.toNat + k < p.start.toNat + p.length.toNat)

/-- The invariants hold wherever a launch starts: memory is canonical and the device discipline holds
(70_reset_and_hazards.md section 1; the form of memory is the model's, log 5). -/
def Obligations.LaunchMeetsTheInvariants : Prop :=
  ∀ (p : ObjectProgram) (exitAddr : Word) (mode : Mode) (policy : UninitPolicy) (g : Stated) (s : State),
    launch p exitAddr mode policy g = .ok s → Memory.wf s.mem ∧ LatchInvariant s

/-- The invariants hold at reset, where every latch is 0 and the run status is Running (10_state.md section
7; the form of memory is the model's, log 5). -/
def Obligations.ResetMeetsTheInvariants : Prop :=
  Memory.wf State.reset.mem ∧ LatchInvariant State.reset ∧ (∀ d, State.reset.isReady d = false) ∧
    State.reset.status = .running

/-- The reset state is a launch: that of an object program without bytes, with the model's own choices for
ENTRY, EXIT_ADDR, LAUNCH_MODE, UNINIT_POLICY and the registers' values (logs 1 to 5). -/
def Obligations.ResetIsALaunch : Prop :=
  launch ⟨[], 0#24, 0#24, [], 0#24⟩ 0xFFFFFF#24 .supervisor .fault
    { a := some (Config.resetWord .a), x := some (Config.resetWord .x),
      b := some (Config.resetWord .b), s := some (Config.resetWord .s),
      t := some (Config.resetWord .t), f := some Config.resetF, cc := some Config.resetCC,
      bytes := [], testAnswers := [], readAnswers := [] } = .ok State.reset

/-! ## The object program and the data formats -/

/-- Reading the columns of a record gives the record back: Header with a name of six characters, Text with at
most 30 bytes, End (30_encoding.md section 9). A Header has 19 columns whatever its name, which reads back
as its first six characters with blanks for those it lacks (the padding and the cut are the model's, log
25). -/
def Obligations.RecordColumnsReadBack : Prop :=
  (∀ r : Record,
    (∀ name start length, r = .header name start length → name.length = 6) →
    (∀ start code, r = .text start code → code.length ≤ 30) →
    Record.ofColumns? r.columns = some r) ∧
  ∀ (name : List Byte) (start length : Word), ∃ six : List Byte,
    six.length = 6 ∧ (∀ k < 6, six[k]? = some (name[k]?.getD 0x20#8)) ∧
    (Record.header name start length).columns.length = 19 ∧
    Record.ofColumns? (Record.header name start length).columns = some (.header six start length)

/-- The fraction of a floating-point value is below 1, and of a normalized one at least 1/2; the magnitude
is f * 2^(e-1024) (10_state.md section 6; that the formula speaks of unnormalized values too is the model's
choice, log 14). -/
def Obligations.NormalizedFractionIsAtLeastHalf : Prop :=
  ∀ v : Float48, 0 ≤ floatFractionValue v ∧ floatFractionValue v < 1 ∧
    (floatNormalized v = true ↔ 1 / 2 ≤ floatFractionValue v) ∧
    floatMagnitude v =
      floatFractionValue v * (2 : ℚ) ^ ((v.extractLsb' 36 11).toNat - 1024 : ℤ)
end

