-- ==== Sys2Proof/Laws/Access.lean ====
section
/-! SUPPORT. How reads that may raise a fault are taken apart (`Access`), and what `conclude` answers. -/

namespace Sys2Proof.Machine

@[simp] theorem access_ok_bind {α β : Type} (a : α) (f : α → Access β) :
    ((Except.ok a : Access α) >>= f) = f a := rfl

@[simp] theorem access_error_bind {α β : Type} (c : Cause) (f : α → Access β) :
    ((Except.error c : Access α) >>= f) = Except.error c := rfl

@[simp] theorem access_pure {α : Type} (a : α) : (pure a : Access α) = Except.ok a := rfl

/-- A sequence of two reads succeeds where both do. -/
theorem access_bind_eq_ok {α β : Type} {x : Access α} {f : α → Access β} {b : β} :
    (x >>= f) = .ok b ↔ ∃ a, x = .ok a ∧ f a = .ok b := by
  cases x <;> simp

/-- A sequence of two reads raises what the first raises, or what the second does after it. -/
theorem access_bind_eq_error {α β : Type} {x : Access α} {f : α → Access β} {c : Cause} :
    (x >>= f) = .error c ↔ x = .error c ∨ ∃ a, x = .ok a ∧ f a = .error c := by
  cases x <;> simp

@[simp] theorem conclude_ok (s t : State) : conclude s (.ok t) = .next t := rfl

@[simp] theorem conclude_error (s : State) (c : Cause) : conclude s (.error c) = .next (s.raise c) := rfl

/-- Everything `conclude` can answer: the state the effect gives, or the faulted state. -/
theorem conclude_eq_next {s t : State} {r : Access State} :
    conclude s r = .next t ↔ r = .ok t ∨ ∃ c, r = .error c ∧ t = s.raise c := by
  cases r with
  | ok u => simp [conclude, eq_comm]
  | error c => simp [conclude, eq_comm]

/-- `conclude` never stops the machine. -/
theorem conclude_answers_next (s : State) (r : Access State) : ∃ t, conclude s r = .next t := ⟨_, rfl⟩

@[simp] theorem readUnspecified_fault {α : Type} (w : Unspecified) (v : α) :
    readUnspecified .fault w v = .error (.uninitializedRead w) := rfl

@[simp] theorem readUnspecified_draw {α : Type} (w : Unspecified) (v : α) :
    readUnspecified .draw w v = .ok v := rfl

/-- A known register reads as what it holds. -/
theorem readReg_of_known {s : State} {site : ReadSite} {r : WordReg} (h : s.known.word r = true) :
    s.readReg site r = .ok (s.word r) := by
  simp [State.readReg, h]

/-- Everything a register read can answer. -/
theorem readReg_eq_ok {s : State} {site : ReadSite} {r : WordReg} {v : Word} :
    s.readReg site r = .ok v ↔
      (s.known.word r = true ∧ v = s.word r) ∨
      (s.known.word r = false ∧ s.policy = .draw ∧ v = Config.drawWord s.draws site r) := by
  unfold State.readReg
  cases hk : s.known.word r <;> cases hp : s.policy <;> simp [eq_comm]

/-- The known condition code reads as what it is. -/
theorem readCC_of_known {s : State} (h : s.known.cc = true) : s.readCC = .ok s.cc := by
  simp [State.readCC, h]

/-- Everything a read of the condition code can answer. -/
theorem readCC_eq_ok {s : State} {c : CC} :
    s.readCC = .ok c ↔
      (s.known.cc = true ∧ c = s.cc) ∨
      (s.known.cc = false ∧ s.policy = .draw ∧ c = Config.drawCC s.draws) := by
  unfold State.readCC
  cases hk : s.known.cc <;> cases hp : s.policy <;> simp [eq_comm]

end Sys2Proof.Machine
end

