-- ==== Sys2Proof/Laws/State.lean ====
section
/-! SUPPORT. What each update of the state leaves in each field: one lemma for each field of each update, so
that no proof unfolds an update of the record. -/

namespace Sys2Proof.Machine

/-! ### `State.raise` -/

@[simp] theorem State.raise_rA (c : Cause) (s : State) : (s.raise c).rA = s.rA := rfl
@[simp] theorem State.raise_rX (c : Cause) (s : State) : (s.raise c).rX = s.rX := rfl
@[simp] theorem State.raise_rL (c : Cause) (s : State) : (s.raise c).rL = s.rL := rfl
@[simp] theorem State.raise_rB (c : Cause) (s : State) : (s.raise c).rB = s.rB := rfl
@[simp] theorem State.raise_rS (c : Cause) (s : State) : (s.raise c).rS = s.rS := rfl
@[simp] theorem State.raise_rT (c : Cause) (s : State) : (s.raise c).rT = s.rT := rfl
@[simp] theorem State.raise_rF (c : Cause) (s : State) : (s.raise c).rF = s.rF := rfl
@[simp] theorem State.raise_pc (c : Cause) (s : State) : (s.raise c).pc = s.pc := rfl
@[simp] theorem State.raise_cc (c : Cause) (s : State) : (s.raise c).cc = s.cc := rfl
@[simp] theorem State.raise_mode (c : Cause) (s : State) : (s.raise c).mode = s.mode := rfl
@[simp] theorem State.raise_known (c : Cause) (s : State) : (s.raise c).known = s.known := rfl
@[simp] theorem State.raise_mem (c : Cause) (s : State) : (s.raise c).mem = s.mem := rfl
@[simp] theorem State.raise_ready (c : Cause) (s : State) : (s.raise c).ready = s.ready := rfl
@[simp] theorem State.raise_deviceLog (c : Cause) (s : State) : (s.raise c).deviceLog = s.deviceLog := rfl
@[simp] theorem State.raise_status (c : Cause) (s : State) : (s.raise c).status = .faulted c s.pc := rfl
@[simp] theorem State.raise_exitAddr (c : Cause) (s : State) : (s.raise c).exitAddr = s.exitAddr := rfl
@[simp] theorem State.raise_policy (c : Cause) (s : State) : (s.raise c).policy = s.policy := rfl
@[simp] theorem State.raise_draws (c : Cause) (s : State) : (s.raise c).draws = s.draws := rfl
@[simp] theorem State.raise_testAnswers (c : Cause) (s : State) : (s.raise c).testAnswers = s.testAnswers := rfl
@[simp] theorem State.raise_readAnswers (c : Cause) (s : State) : (s.raise c).readAnswers = s.readAnswers := rfl

/-! ### `State.setA` -/

@[simp] theorem State.setA_rA (v : Word) (s : State) : (s.setA v).rA = v := rfl
@[simp] theorem State.setA_rX (v : Word) (s : State) : (s.setA v).rX = s.rX := rfl
@[simp] theorem State.setA_rL (v : Word) (s : State) : (s.setA v).rL = s.rL := rfl
@[simp] theorem State.setA_rB (v : Word) (s : State) : (s.setA v).rB = s.rB := rfl
@[simp] theorem State.setA_rS (v : Word) (s : State) : (s.setA v).rS = s.rS := rfl
@[simp] theorem State.setA_rT (v : Word) (s : State) : (s.setA v).rT = s.rT := rfl
@[simp] theorem State.setA_rF (v : Word) (s : State) : (s.setA v).rF = s.rF := rfl
@[simp] theorem State.setA_pc (v : Word) (s : State) : (s.setA v).pc = s.pc := rfl
@[simp] theorem State.setA_cc (v : Word) (s : State) : (s.setA v).cc = s.cc := rfl
@[simp] theorem State.setA_mode (v : Word) (s : State) : (s.setA v).mode = s.mode := rfl
@[simp] theorem State.setA_known (v : Word) (s : State) : (s.setA v).known = { s.known with a := true } := rfl
@[simp] theorem State.setA_mem (v : Word) (s : State) : (s.setA v).mem = s.mem := rfl
@[simp] theorem State.setA_ready (v : Word) (s : State) : (s.setA v).ready = s.ready := rfl
@[simp] theorem State.setA_deviceLog (v : Word) (s : State) : (s.setA v).deviceLog = s.deviceLog := rfl
@[simp] theorem State.setA_status (v : Word) (s : State) : (s.setA v).status = s.status := rfl
@[simp] theorem State.setA_exitAddr (v : Word) (s : State) : (s.setA v).exitAddr = s.exitAddr := rfl
@[simp] theorem State.setA_policy (v : Word) (s : State) : (s.setA v).policy = s.policy := rfl
@[simp] theorem State.setA_draws (v : Word) (s : State) : (s.setA v).draws = s.draws := rfl
@[simp] theorem State.setA_testAnswers (v : Word) (s : State) : (s.setA v).testAnswers = s.testAnswers := rfl
@[simp] theorem State.setA_readAnswers (v : Word) (s : State) : (s.setA v).readAnswers = s.readAnswers := rfl

/-! ### `State.setX` -/

@[simp] theorem State.setX_rA (v : Word) (s : State) : (s.setX v).rA = s.rA := rfl
@[simp] theorem State.setX_rX (v : Word) (s : State) : (s.setX v).rX = v := rfl
@[simp] theorem State.setX_rL (v : Word) (s : State) : (s.setX v).rL = s.rL := rfl
@[simp] theorem State.setX_rB (v : Word) (s : State) : (s.setX v).rB = s.rB := rfl
@[simp] theorem State.setX_rS (v : Word) (s : State) : (s.setX v).rS = s.rS := rfl
@[simp] theorem State.setX_rT (v : Word) (s : State) : (s.setX v).rT = s.rT := rfl
@[simp] theorem State.setX_rF (v : Word) (s : State) : (s.setX v).rF = s.rF := rfl
@[simp] theorem State.setX_pc (v : Word) (s : State) : (s.setX v).pc = s.pc := rfl
@[simp] theorem State.setX_cc (v : Word) (s : State) : (s.setX v).cc = s.cc := rfl
@[simp] theorem State.setX_mode (v : Word) (s : State) : (s.setX v).mode = s.mode := rfl
@[simp] theorem State.setX_known (v : Word) (s : State) : (s.setX v).known = { s.known with x := true } := rfl
@[simp] theorem State.setX_mem (v : Word) (s : State) : (s.setX v).mem = s.mem := rfl
@[simp] theorem State.setX_ready (v : Word) (s : State) : (s.setX v).ready = s.ready := rfl
@[simp] theorem State.setX_deviceLog (v : Word) (s : State) : (s.setX v).deviceLog = s.deviceLog := rfl
@[simp] theorem State.setX_status (v : Word) (s : State) : (s.setX v).status = s.status := rfl
@[simp] theorem State.setX_exitAddr (v : Word) (s : State) : (s.setX v).exitAddr = s.exitAddr := rfl
@[simp] theorem State.setX_policy (v : Word) (s : State) : (s.setX v).policy = s.policy := rfl
@[simp] theorem State.setX_draws (v : Word) (s : State) : (s.setX v).draws = s.draws := rfl
@[simp] theorem State.setX_testAnswers (v : Word) (s : State) : (s.setX v).testAnswers = s.testAnswers := rfl
@[simp] theorem State.setX_readAnswers (v : Word) (s : State) : (s.setX v).readAnswers = s.readAnswers := rfl

/-! ### `State.setL` -/

@[simp] theorem State.setL_rA (v : Word) (s : State) : (s.setL v).rA = s.rA := rfl
@[simp] theorem State.setL_rX (v : Word) (s : State) : (s.setL v).rX = s.rX := rfl
@[simp] theorem State.setL_rL (v : Word) (s : State) : (s.setL v).rL = v := rfl
@[simp] theorem State.setL_rB (v : Word) (s : State) : (s.setL v).rB = s.rB := rfl
@[simp] theorem State.setL_rS (v : Word) (s : State) : (s.setL v).rS = s.rS := rfl
@[simp] theorem State.setL_rT (v : Word) (s : State) : (s.setL v).rT = s.rT := rfl
@[simp] theorem State.setL_rF (v : Word) (s : State) : (s.setL v).rF = s.rF := rfl
@[simp] theorem State.setL_pc (v : Word) (s : State) : (s.setL v).pc = s.pc := rfl
@[simp] theorem State.setL_cc (v : Word) (s : State) : (s.setL v).cc = s.cc := rfl
@[simp] theorem State.setL_mode (v : Word) (s : State) : (s.setL v).mode = s.mode := rfl
@[simp] theorem State.setL_known (v : Word) (s : State) : (s.setL v).known = { s.known with l := true } := rfl
@[simp] theorem State.setL_mem (v : Word) (s : State) : (s.setL v).mem = s.mem := rfl
@[simp] theorem State.setL_ready (v : Word) (s : State) : (s.setL v).ready = s.ready := rfl
@[simp] theorem State.setL_deviceLog (v : Word) (s : State) : (s.setL v).deviceLog = s.deviceLog := rfl
@[simp] theorem State.setL_status (v : Word) (s : State) : (s.setL v).status = s.status := rfl
@[simp] theorem State.setL_exitAddr (v : Word) (s : State) : (s.setL v).exitAddr = s.exitAddr := rfl
@[simp] theorem State.setL_policy (v : Word) (s : State) : (s.setL v).policy = s.policy := rfl
@[simp] theorem State.setL_draws (v : Word) (s : State) : (s.setL v).draws = s.draws := rfl
@[simp] theorem State.setL_testAnswers (v : Word) (s : State) : (s.setL v).testAnswers = s.testAnswers := rfl
@[simp] theorem State.setL_readAnswers (v : Word) (s : State) : (s.setL v).readAnswers = s.readAnswers := rfl

/-! ### `State.setCC` -/

@[simp] theorem State.setCC_rA (c : CC) (s : State) : (s.setCC c).rA = s.rA := rfl
@[simp] theorem State.setCC_rX (c : CC) (s : State) : (s.setCC c).rX = s.rX := rfl
@[simp] theorem State.setCC_rL (c : CC) (s : State) : (s.setCC c).rL = s.rL := rfl
@[simp] theorem State.setCC_rB (c : CC) (s : State) : (s.setCC c).rB = s.rB := rfl
@[simp] theorem State.setCC_rS (c : CC) (s : State) : (s.setCC c).rS = s.rS := rfl
@[simp] theorem State.setCC_rT (c : CC) (s : State) : (s.setCC c).rT = s.rT := rfl
@[simp] theorem State.setCC_rF (c : CC) (s : State) : (s.setCC c).rF = s.rF := rfl
@[simp] theorem State.setCC_pc (c : CC) (s : State) : (s.setCC c).pc = s.pc := rfl
@[simp] theorem State.setCC_cc (c : CC) (s : State) : (s.setCC c).cc = c := rfl
@[simp] theorem State.setCC_mode (c : CC) (s : State) : (s.setCC c).mode = s.mode := rfl
@[simp] theorem State.setCC_known (c : CC) (s : State) : (s.setCC c).known = { s.known with cc := true } := rfl
@[simp] theorem State.setCC_mem (c : CC) (s : State) : (s.setCC c).mem = s.mem := rfl
@[simp] theorem State.setCC_ready (c : CC) (s : State) : (s.setCC c).ready = s.ready := rfl
@[simp] theorem State.setCC_deviceLog (c : CC) (s : State) : (s.setCC c).deviceLog = s.deviceLog := rfl
@[simp] theorem State.setCC_status (c : CC) (s : State) : (s.setCC c).status = s.status := rfl
@[simp] theorem State.setCC_exitAddr (c : CC) (s : State) : (s.setCC c).exitAddr = s.exitAddr := rfl
@[simp] theorem State.setCC_policy (c : CC) (s : State) : (s.setCC c).policy = s.policy := rfl
@[simp] theorem State.setCC_draws (c : CC) (s : State) : (s.setCC c).draws = s.draws := rfl
@[simp] theorem State.setCC_testAnswers (c : CC) (s : State) : (s.setCC c).testAnswers = s.testAnswers := rfl
@[simp] theorem State.setCC_readAnswers (c : CC) (s : State) : (s.setCC c).readAnswers = s.readAnswers := rfl

/-! ### `State.jump` -/

@[simp] theorem State.jump_rA (t : Word) (s : State) : (s.jump t).rA = s.rA := rfl
@[simp] theorem State.jump_rX (t : Word) (s : State) : (s.jump t).rX = s.rX := rfl
@[simp] theorem State.jump_rL (t : Word) (s : State) : (s.jump t).rL = s.rL := rfl
@[simp] theorem State.jump_rB (t : Word) (s : State) : (s.jump t).rB = s.rB := rfl
@[simp] theorem State.jump_rS (t : Word) (s : State) : (s.jump t).rS = s.rS := rfl
@[simp] theorem State.jump_rT (t : Word) (s : State) : (s.jump t).rT = s.rT := rfl
@[simp] theorem State.jump_rF (t : Word) (s : State) : (s.jump t).rF = s.rF := rfl
@[simp] theorem State.jump_pc (t : Word) (s : State) : (s.jump t).pc = t := rfl
@[simp] theorem State.jump_cc (t : Word) (s : State) : (s.jump t).cc = s.cc := rfl
@[simp] theorem State.jump_mode (t : Word) (s : State) : (s.jump t).mode = s.mode := rfl
@[simp] theorem State.jump_known (t : Word) (s : State) : (s.jump t).known = s.known := rfl
@[simp] theorem State.jump_mem (t : Word) (s : State) : (s.jump t).mem = s.mem := rfl
@[simp] theorem State.jump_ready (t : Word) (s : State) : (s.jump t).ready = s.ready := rfl
@[simp] theorem State.jump_deviceLog (t : Word) (s : State) : (s.jump t).deviceLog = s.deviceLog := rfl
@[simp] theorem State.jump_status (t : Word) (s : State) : (s.jump t).status = s.status := rfl
@[simp] theorem State.jump_exitAddr (t : Word) (s : State) : (s.jump t).exitAddr = s.exitAddr := rfl
@[simp] theorem State.jump_policy (t : Word) (s : State) : (s.jump t).policy = s.policy := rfl
@[simp] theorem State.jump_draws (t : Word) (s : State) : (s.jump t).draws = s.draws + 1 := rfl
@[simp] theorem State.jump_testAnswers (t : Word) (s : State) : (s.jump t).testAnswers = s.testAnswers := rfl
@[simp] theorem State.jump_readAnswers (t : Word) (s : State) : (s.jump t).readAnswers = s.readAnswers := rfl

/-! ### `State.advance` -/

@[simp] theorem State.advance_rA (o : Operand) (s : State) : (s.advance o).rA = s.rA := rfl
@[simp] theorem State.advance_rX (o : Operand) (s : State) : (s.advance o).rX = s.rX := rfl
@[simp] theorem State.advance_rL (o : Operand) (s : State) : (s.advance o).rL = s.rL := rfl
@[simp] theorem State.advance_rB (o : Operand) (s : State) : (s.advance o).rB = s.rB := rfl
@[simp] theorem State.advance_rS (o : Operand) (s : State) : (s.advance o).rS = s.rS := rfl
@[simp] theorem State.advance_rT (o : Operand) (s : State) : (s.advance o).rT = s.rT := rfl
@[simp] theorem State.advance_rF (o : Operand) (s : State) : (s.advance o).rF = s.rF := rfl
@[simp] theorem State.advance_pc (o : Operand) (s : State) : (s.advance o).pc = s.pcNext o := rfl
@[simp] theorem State.advance_cc (o : Operand) (s : State) : (s.advance o).cc = s.cc := rfl
@[simp] theorem State.advance_mode (o : Operand) (s : State) : (s.advance o).mode = s.mode := rfl
@[simp] theorem State.advance_known (o : Operand) (s : State) : (s.advance o).known = s.known := rfl
@[simp] theorem State.advance_mem (o : Operand) (s : State) : (s.advance o).mem = s.mem := rfl
@[simp] theorem State.advance_ready (o : Operand) (s : State) : (s.advance o).ready = s.ready := rfl
@[simp] theorem State.advance_deviceLog (o : Operand) (s : State) : (s.advance o).deviceLog = s.deviceLog := rfl
@[simp] theorem State.advance_status (o : Operand) (s : State) : (s.advance o).status = s.status := rfl
@[simp] theorem State.advance_exitAddr (o : Operand) (s : State) : (s.advance o).exitAddr = s.exitAddr := rfl
@[simp] theorem State.advance_policy (o : Operand) (s : State) : (s.advance o).policy = s.policy := rfl
@[simp] theorem State.advance_draws (o : Operand) (s : State) : (s.advance o).draws = s.draws + 1 := rfl
@[simp] theorem State.advance_testAnswers (o : Operand) (s : State) : (s.advance o).testAnswers = s.testAnswers := rfl
@[simp] theorem State.advance_readAnswers (o : Operand) (s : State) : (s.advance o).readAnswers = s.readAnswers := rfl

/-! ### `State.setReady` -/

@[simp] theorem State.setReady_rA (d : Byte) (r : Bool) (s : State) : (s.setReady d r).rA = s.rA := rfl
@[simp] theorem State.setReady_rX (d : Byte) (r : Bool) (s : State) : (s.setReady d r).rX = s.rX := rfl
@[simp] theorem State.setReady_rL (d : Byte) (r : Bool) (s : State) : (s.setReady d r).rL = s.rL := rfl
@[simp] theorem State.setReady_rB (d : Byte) (r : Bool) (s : State) : (s.setReady d r).rB = s.rB := rfl
@[simp] theorem State.setReady_rS (d : Byte) (r : Bool) (s : State) : (s.setReady d r).rS = s.rS := rfl
@[simp] theorem State.setReady_rT (d : Byte) (r : Bool) (s : State) : (s.setReady d r).rT = s.rT := rfl
@[simp] theorem State.setReady_rF (d : Byte) (r : Bool) (s : State) : (s.setReady d r).rF = s.rF := rfl
@[simp] theorem State.setReady_pc (d : Byte) (r : Bool) (s : State) : (s.setReady d r).pc = s.pc := rfl
@[simp] theorem State.setReady_cc (d : Byte) (r : Bool) (s : State) : (s.setReady d r).cc = s.cc := rfl
@[simp] theorem State.setReady_mode (d : Byte) (r : Bool) (s : State) : (s.setReady d r).mode = s.mode := rfl
@[simp] theorem State.setReady_known (d : Byte) (r : Bool) (s : State) : (s.setReady d r).known = s.known := rfl
@[simp] theorem State.setReady_mem (d : Byte) (r : Bool) (s : State) : (s.setReady d r).mem = s.mem := rfl
@[simp] theorem State.setReady_ready (d : Byte) (r : Bool) (s : State) : (s.setReady d r).ready = s.ready.set d.toNat r d.isLt := rfl
@[simp] theorem State.setReady_deviceLog (d : Byte) (r : Bool) (s : State) : (s.setReady d r).deviceLog = s.deviceLog := rfl
@[simp] theorem State.setReady_status (d : Byte) (r : Bool) (s : State) : (s.setReady d r).status = s.status := rfl
@[simp] theorem State.setReady_exitAddr (d : Byte) (r : Bool) (s : State) : (s.setReady d r).exitAddr = s.exitAddr := rfl
@[simp] theorem State.setReady_policy (d : Byte) (r : Bool) (s : State) : (s.setReady d r).policy = s.policy := rfl
@[simp] theorem State.setReady_draws (d : Byte) (r : Bool) (s : State) : (s.setReady d r).draws = s.draws := rfl
@[simp] theorem State.setReady_testAnswers (d : Byte) (r : Bool) (s : State) : (s.setReady d r).testAnswers = s.testAnswers := rfl
@[simp] theorem State.setReady_readAnswers (d : Byte) (r : Bool) (s : State) : (s.setReady d r).readAnswers = s.readAnswers := rfl

/-! ### `State.deviceWrite` -/

@[simp] theorem State.deviceWrite_rA (d b : Byte) (s : State) : (s.deviceWrite d b).rA = s.rA := rfl
@[simp] theorem State.deviceWrite_rX (d b : Byte) (s : State) : (s.deviceWrite d b).rX = s.rX := rfl
@[simp] theorem State.deviceWrite_rL (d b : Byte) (s : State) : (s.deviceWrite d b).rL = s.rL := rfl
@[simp] theorem State.deviceWrite_rB (d b : Byte) (s : State) : (s.deviceWrite d b).rB = s.rB := rfl
@[simp] theorem State.deviceWrite_rS (d b : Byte) (s : State) : (s.deviceWrite d b).rS = s.rS := rfl
@[simp] theorem State.deviceWrite_rT (d b : Byte) (s : State) : (s.deviceWrite d b).rT = s.rT := rfl
@[simp] theorem State.deviceWrite_rF (d b : Byte) (s : State) : (s.deviceWrite d b).rF = s.rF := rfl
@[simp] theorem State.deviceWrite_pc (d b : Byte) (s : State) : (s.deviceWrite d b).pc = s.pc := rfl
@[simp] theorem State.deviceWrite_cc (d b : Byte) (s : State) : (s.deviceWrite d b).cc = s.cc := rfl
@[simp] theorem State.deviceWrite_mode (d b : Byte) (s : State) : (s.deviceWrite d b).mode = s.mode := rfl
@[simp] theorem State.deviceWrite_known (d b : Byte) (s : State) : (s.deviceWrite d b).known = s.known := rfl
@[simp] theorem State.deviceWrite_mem (d b : Byte) (s : State) : (s.deviceWrite d b).mem = s.mem := rfl
@[simp] theorem State.deviceWrite_ready (d b : Byte) (s : State) : (s.deviceWrite d b).ready = s.ready := rfl
@[simp] theorem State.deviceWrite_deviceLog (d b : Byte) (s : State) : (s.deviceWrite d b).deviceLog = s.deviceLog ++ [.wrote d b] := rfl
@[simp] theorem State.deviceWrite_status (d b : Byte) (s : State) : (s.deviceWrite d b).status = s.status := rfl
@[simp] theorem State.deviceWrite_exitAddr (d b : Byte) (s : State) : (s.deviceWrite d b).exitAddr = s.exitAddr := rfl
@[simp] theorem State.deviceWrite_policy (d b : Byte) (s : State) : (s.deviceWrite d b).policy = s.policy := rfl
@[simp] theorem State.deviceWrite_draws (d b : Byte) (s : State) : (s.deviceWrite d b).draws = s.draws := rfl
@[simp] theorem State.deviceWrite_testAnswers (d b : Byte) (s : State) : (s.deviceWrite d b).testAnswers = s.testAnswers := rfl
@[simp] theorem State.deviceWrite_readAnswers (d b : Byte) (s : State) : (s.deviceWrite d b).readAnswers = s.readAnswers := rfl

/-! ### `State.endRun` -/

@[simp] theorem State.endRun_rA (s : State) : (s.endRun).rA = s.rA := rfl
@[simp] theorem State.endRun_rX (s : State) : (s.endRun).rX = s.rX := rfl
@[simp] theorem State.endRun_rL (s : State) : (s.endRun).rL = s.rL := rfl
@[simp] theorem State.endRun_rB (s : State) : (s.endRun).rB = s.rB := rfl
@[simp] theorem State.endRun_rS (s : State) : (s.endRun).rS = s.rS := rfl
@[simp] theorem State.endRun_rT (s : State) : (s.endRun).rT = s.rT := rfl
@[simp] theorem State.endRun_rF (s : State) : (s.endRun).rF = s.rF := rfl
@[simp] theorem State.endRun_pc (s : State) : (s.endRun).pc = s.pc := rfl
@[simp] theorem State.endRun_cc (s : State) : (s.endRun).cc = s.cc := rfl
@[simp] theorem State.endRun_mode (s : State) : (s.endRun).mode = s.mode := rfl
@[simp] theorem State.endRun_known (s : State) : (s.endRun).known = s.known := rfl
@[simp] theorem State.endRun_mem (s : State) : (s.endRun).mem = s.mem := rfl
@[simp] theorem State.endRun_ready (s : State) : (s.endRun).ready = s.ready := rfl
@[simp] theorem State.endRun_deviceLog (s : State) : (s.endRun).deviceLog = s.deviceLog := rfl
@[simp] theorem State.endRun_status (s : State) : (s.endRun).status = .exited := rfl
@[simp] theorem State.endRun_exitAddr (s : State) : (s.endRun).exitAddr = s.exitAddr := rfl
@[simp] theorem State.endRun_policy (s : State) : (s.endRun).policy = s.policy := rfl
@[simp] theorem State.endRun_draws (s : State) : (s.endRun).draws = s.draws := rfl
@[simp] theorem State.endRun_testAnswers (s : State) : (s.endRun).testAnswers = s.testAnswers := rfl
@[simp] theorem State.endRun_readAnswers (s : State) : (s.endRun).readAnswers = s.readAnswers := rfl

/-! ### `State.placeAtPc` -/

@[simp] theorem State.placeAtPc_rA (bs : List Byte) (s : State) : (s.placeAtPc bs).rA = s.rA := rfl
@[simp] theorem State.placeAtPc_rX (bs : List Byte) (s : State) : (s.placeAtPc bs).rX = s.rX := rfl
@[simp] theorem State.placeAtPc_rL (bs : List Byte) (s : State) : (s.placeAtPc bs).rL = s.rL := rfl
@[simp] theorem State.placeAtPc_rB (bs : List Byte) (s : State) : (s.placeAtPc bs).rB = s.rB := rfl
@[simp] theorem State.placeAtPc_rS (bs : List Byte) (s : State) : (s.placeAtPc bs).rS = s.rS := rfl
@[simp] theorem State.placeAtPc_rT (bs : List Byte) (s : State) : (s.placeAtPc bs).rT = s.rT := rfl
@[simp] theorem State.placeAtPc_rF (bs : List Byte) (s : State) : (s.placeAtPc bs).rF = s.rF := rfl
@[simp] theorem State.placeAtPc_pc (bs : List Byte) (s : State) : (s.placeAtPc bs).pc = s.pc := rfl
@[simp] theorem State.placeAtPc_cc (bs : List Byte) (s : State) : (s.placeAtPc bs).cc = s.cc := rfl
@[simp] theorem State.placeAtPc_mode (bs : List Byte) (s : State) : (s.placeAtPc bs).mode = s.mode := rfl
@[simp] theorem State.placeAtPc_known (bs : List Byte) (s : State) : (s.placeAtPc bs).known = s.known := rfl
@[simp] theorem State.placeAtPc_mem (bs : List Byte) (s : State) : (s.placeAtPc bs).mem = Memory.writeBytes s.mem s.pc.toNat bs := rfl
@[simp] theorem State.placeAtPc_ready (bs : List Byte) (s : State) : (s.placeAtPc bs).ready = s.ready := rfl
@[simp] theorem State.placeAtPc_deviceLog (bs : List Byte) (s : State) : (s.placeAtPc bs).deviceLog = s.deviceLog := rfl
@[simp] theorem State.placeAtPc_status (bs : List Byte) (s : State) : (s.placeAtPc bs).status = s.status := rfl
@[simp] theorem State.placeAtPc_exitAddr (bs : List Byte) (s : State) : (s.placeAtPc bs).exitAddr = s.exitAddr := rfl
@[simp] theorem State.placeAtPc_policy (bs : List Byte) (s : State) : (s.placeAtPc bs).policy = s.policy := rfl
@[simp] theorem State.placeAtPc_draws (bs : List Byte) (s : State) : (s.placeAtPc bs).draws = s.draws := rfl
@[simp] theorem State.placeAtPc_testAnswers (bs : List Byte) (s : State) : (s.placeAtPc bs).testAnswers = s.testAnswers := rfl
@[simp] theorem State.placeAtPc_readAnswers (bs : List Byte) (s : State) : (s.placeAtPc bs).readAnswers = s.readAnswers := rfl

/-! ### Registers by name, after an update -/

@[simp] theorem State.word_a (s : State) : s.word .a = s.rA := rfl
@[simp] theorem State.word_x (s : State) : s.word .x = s.rX := rfl
@[simp] theorem State.word_l (s : State) : s.word .l = s.rL := rfl
@[simp] theorem State.word_b (s : State) : s.word .b = s.rB := rfl
@[simp] theorem State.word_s (s : State) : s.word .s = s.rS := rfl
@[simp] theorem State.word_t (s : State) : s.word .t = s.rT := rfl

end Sys2Proof.Machine
end

