-- ==== Sys2Proof/Laws/Devices.lean ====
section
/-! SUPPORT. The device questions: everything a question can do to the state. -/

namespace Sys2Proof.Machine

/-- Without a stated answer for the device none is taken. -/
theorem takeAnswer_eq_none {α : Type} {d : Byte} {l : List (Byte × α)} (h : ∀ e ∈ l, e.1 ≠ d) :
    takeAnswer d l = none := by
  induction l with
  | nil => rfl
  | cons e l ih =>
    simp only [List.mem_cons, forall_eq_or_imp] at h
    simp [takeAnswer, h.1, ih h.2]

/-- The first stated answer for the device is taken, and the others stay in order. -/
theorem takeAnswer_append {α : Type} {d : Byte} {before after : List (Byte × α)} {v : α}
    (h : ∀ e ∈ before, e.1 ≠ d) :
    takeAnswer d (before ++ (d, v) :: after) = some (v, before ++ after) := by
  induction before with
  | nil => simp [takeAnswer]
  | cons e l ih =>
    simp only [List.mem_cons, forall_eq_or_imp] at h
    simp [takeAnswer, h.1, ih h.2]

/-- A TD question changes the log and the stated answers alone. -/
theorem deviceTest_spec (s : State) (d : Byte) :
    ∃ left, (s.deviceTest d).2 =
      { s with testAnswers := left,
               deviceLog := s.deviceLog ++ [.tested d (s.deviceTest d).1] } := by
  unfold State.deviceTest
  split
  · exact ⟨_, rfl⟩
  · exact ⟨s.testAnswers, rfl⟩

/-- An RD question changes the log and the stated answers alone. -/
theorem deviceRead_spec (s : State) (d : Byte) :
    ∃ left, (s.deviceRead d).2 =
      { s with readAnswers := left,
               deviceLog := s.deviceLog ++ [.read d (s.deviceRead d).1] } := by
  unfold State.deviceRead
  split
  · exact ⟨_, rfl⟩
  · exact ⟨s.readAnswers, rfl⟩

/-- A latch after a latch is set. -/
theorem isReady_setReady (s : State) (d k : Byte) (r : Bool) :
    (s.setReady d r).isReady k = if k = d then r else s.isReady k := by
  unfold State.isReady State.setReady
  by_cases h : k = d
  · subst h; simp
  · have hn : d.toNat ≠ k.toNat := fun e => h (BitVec.eq_of_toNat_eq e.symm)
    simp [h, Vector.getElem_set_ne, hn]

end Sys2Proof.Machine
end

