-- ==== Sys2Proof/Laws/Encoding.lean ====
section
/-! SUPPORT. Mnemonics, opcodes and the fields of the first byte. -/

namespace Sys2Proof

/-- Every mnemonic stands in the list. -/
theorem Mnemonic.mem_all (m : Mnemonic) : m ∈ Mnemonic.all := by cases m <;> decide

/-- The first byte built from a mnemonic and two flag bits selects the mnemonic. -/
theorem Mnemonic.ofByte?_op_append (m : Mnemonic) (ni : BitVec 2) :
    Mnemonic.ofByte? (m.op ++ ni : BitVec (6 + 2)) = some m := by
  revert ni
  cases m <;> decide

/-- A byte selects a mnemonic by its top six bits. -/
theorem Mnemonic.op_of_ofByte? {b0 : Byte} {m : Mnemonic} (h : Mnemonic.ofByte? b0 = some m) :
    m.op = b0.extractLsb' 2 6 := by
  have := List.find?_some h
  simpa using this

@[simp] theorem Mnemonic.mnemonic_instr (m : Mnemonic) (o : Operand) : (m.instr o).mnemonic = m := by
  cases m <;> rfl

@[simp] theorem Mnemonic.operand_instr (m : Mnemonic) (o : Operand) : (m.instr o).operand = o := by
  cases m <;> rfl

/-- An instruction is its mnemonic with its operand part. -/
@[simp] theorem Instr.instr_mnemonic_operand (i : Instr) : i.mnemonic.instr i.operand = i := by
  cases i <;> rfl

/-- The encoding has the length of the form. -/
theorem encodeParts_length (m : Mnemonic) (o : Operand) : (encodeParts m o).length = o.length := by
  cases o <;> rfl

/-- The first byte of an encoding selects its mnemonic. -/
theorem encodeParts_first (m : Mnemonic) (o : Operand) :
    (encodeParts m o).head?.bind Mnemonic.ofByte? = some m := by
  cases o <;> exact Mnemonic.ofByte?_op_append _ _

/-- Legality of the flags, when the mnemonic has an operand. -/
theorem flagsLegal_iff_isSome {m : Mnemonic} {o : Operand} (h : m.operandClass ≠ .none) :
    flagsLegal m o = (legalRelative m o).isSome := by
  cases hm : m.operandClass <;> simp_all [flagsLegal]

end Sys2Proof
end

