-- ==== Sys2Proof/Laws/Memory.lean ====
section
/-! SUPPORT. Memory: what a byte reads as after a write, and that every operation keeps the canonical
form. -/

namespace Sys2Proof.Machine

/-! ### Reading after writing -/

/-- The byte written reads back, and every other byte reads as before. -/
theorem Memory.read_write (m : Memory) (a a' : Nat) (b : Byte) :
    Memory.read (Memory.write m a b) a' = if a' = a then some b else Memory.read m a' := by
  induction m with
  | nil => simp [Memory.write, Memory.read]
  | cons c m ih =>
    obtain ⟨k, d⟩ := c
    simp only [Memory.write]
    split
    · simp [Memory.read]
    · split
      · rename_i hak
        subst hak
        by_cases h : a' = a <;> simp [Memory.read, h]
      · simp only [Memory.read, ih]
        by_cases h : a' = k
        · have : a' ≠ a := by omega
          simp [h]
          omega
        · simp [h]

theorem Memory.read_write_same (m : Memory) (a : Nat) (b : Byte) :
    Memory.read (Memory.write m a b) a = some b := by
  simp [Memory.read_write]

theorem Memory.read_write_other {m : Memory} {a a' : Nat} {b : Byte} (h : a' ≠ a) :
    Memory.read (Memory.write m a b) a' = Memory.read m a' := by
  simp [Memory.read_write, h]

/-- Bytes outside the range written read as before. -/
theorem Memory.read_writeBytes_other {m : Memory} {a a' : Nat} {bs : List Byte}
    (h : a' < a ∨ a + bs.length ≤ a') :
    Memory.read (Memory.writeBytes m a bs) a' = Memory.read m a' := by
  induction bs generalizing m a with
  | nil => rfl
  | cons b bs ih =>
    simp only [List.length_cons] at h
    rw [Memory.writeBytes, ih (by omega)]
    split
    · exact Memory.read_write_other (by omega)
    · rfl

/-- A byte written in a range inside memory reads back. -/
theorem Memory.read_writeBytes_at {m : Memory} {a k : Nat} {bs : List Byte} {b : Byte}
    (hk : bs[k]? = some b) (hm : a + k < Config.memBytes) :
    Memory.read (Memory.writeBytes m a bs) (a + k) = some b := by
  induction bs generalizing m a k with
  | nil => simp at hk
  | cons c bs ih =>
    cases k with
    | zero =>
      simp only [List.getElem?_cons_zero, Option.some.injEq] at hk
      subst hk
      rw [Memory.writeBytes, Memory.read_writeBytes_other (by omega)]
      simp only [Nat.add_zero] at hm ⊢
      simp [hm, Memory.read_write]
    | succ k =>
      rw [List.getElem?_cons_succ] at hk
      rw [Memory.writeBytes, show a + (k + 1) = (a + 1) + k by omega]
      exact ih hk (by omega)

/-! ### The canonical form -/

theorem Memory.mem_write {m : Memory} {a : Nat} {b : Byte} {c : Host.Cell}
    (h : c ∈ Memory.write m a b) : c = (a, b) ∨ c ∈ m := by
  induction m with
  | nil => simpa [Memory.write] using h
  | cons d m ih =>
    obtain ⟨k, e⟩ := d
    simp only [Memory.write] at h
    split at h
    · simpa using h
    · split at h
      · rcases List.mem_cons.mp h with h | h
        · exact .inl h
        · exact .inr (List.mem_cons_of_mem _ h)
      · rcases List.mem_cons.mp h with h | h
        · exact .inr (h ▸ List.mem_cons_self)
        · exact (ih h).imp_right (List.mem_cons_of_mem _)

theorem Memory.wf_nil : Memory.wf [] := ⟨List.Pairwise.nil, fun _ h => nomatch h⟩

theorem Memory.wf_write {m : Memory} {a : Nat} {b : Byte} (h : Memory.wf m)
    (ha : a < Config.memBytes) : Memory.wf (Memory.write m a b) := by
  induction m with
  | nil => exact ⟨by simp [Memory.write], by simpa [Memory.write] using ha⟩
  | cons c m ih =>
    obtain ⟨k, d⟩ := c
    obtain ⟨hp, hb⟩ := h
    rw [List.map_cons, List.pairwise_cons] at hp
    have hm : Memory.wf m := ⟨hp.2, fun c hc => hb c (List.mem_cons_of_mem _ hc)⟩
    have hk := hb (k, d) List.mem_cons_self
    simp only [Memory.write]
    split
    · rename_i hak
      refine ⟨?_, ?_⟩
      · simp only [List.map_cons, List.pairwise_cons, List.mem_cons, forall_eq_or_imp]
        exact ⟨⟨hak, fun k' hk' => Nat.lt_trans hak (hp.1 k' hk')⟩, hp⟩
      · simp only [List.mem_cons, forall_eq_or_imp]
        exact ⟨ha, hk, hm.2⟩
    · split
      · subst_vars
        refine ⟨by simpa using hp, ?_⟩
        simp only [List.mem_cons, forall_eq_or_imp]
        exact ⟨ha, hm.2⟩
      · have hw := ih hm
        refine ⟨?_, ?_⟩
        · simp only [List.map_cons, List.pairwise_cons]
          refine ⟨fun k' hk' => ?_, hw.1⟩
          obtain ⟨c, hc, rfl⟩ := List.mem_map.mp hk'
          rcases Memory.mem_write hc with rfl | hc
          · simp only; omega
          · exact hp.1 _ (List.mem_map_of_mem hc)
        · simp only [List.mem_cons, forall_eq_or_imp]
          exact ⟨hk, hw.2⟩

theorem Memory.wf_writeBytes {m : Memory} {a : Nat} {bs : List Byte} (h : Memory.wf m) :
    Memory.wf (Memory.writeBytes m a bs) := by
  induction bs generalizing m a with
  | nil => exact h
  | cons b bs ih =>
    rw [Memory.writeBytes]
    split
    · exact ih (Memory.wf_write h ‹_›)
    · exact ih h

theorem Memory.wf_place {m : Memory} {cells : List Host.Cell} (h : Memory.wf m)
    (hc : ∀ c ∈ cells, c.1 < Config.memBytes) : Memory.wf (Memory.place m cells) := by
  induction cells generalizing m with
  | nil => exact h
  | cons c cells ih =>
    simp only [List.mem_cons, forall_eq_or_imp] at hc
    exact ih (Memory.wf_write h hc.1) hc.2

/-! ### The primitives of R44 -/

/-- A byte write that succeeds stays inside memory and changes that byte alone. -/
theorem memWriteByte_eq_ok {s t : State} {addr : Word} {b : Byte} :
    s.memWriteByte addr b = .ok t ↔
      addr.toNat < Config.memBytes ∧ t = { s with mem := Memory.write s.mem addr.toNat b } := by
  unfold State.memWriteByte
  split <;> simp_all [eq_comm]

/-- A word write that succeeds stays inside memory and changes its three bytes alone. -/
theorem memWriteWord_eq_ok {s t : State} {addr v : Word} :
    s.memWriteWord addr v = .ok t ↔
      addr.toNat + 2 < Config.memBytes ∧
        t = { s with mem := Memory.writeBytes s.mem addr.toNat (wordBytes v) } := by
  unfold State.memWriteWord
  split <;> simp_all [eq_comm]

/-- Everything a byte read of memory can answer. -/
theorem loadByte_eq_ok {s : State} {site : ReadSite} {a : Nat} {b : Byte} :
    s.loadByte site a = .ok b ↔
      Memory.read s.mem a = some b ∨
      (Memory.read s.mem a = none ∧ s.policy = .draw ∧ b = Config.drawByte s.draws site a) := by
  unfold State.loadByte
  cases Memory.read s.mem a <;> cases s.policy <;> simp [eq_comm]

/-- A word read that succeeds stays inside memory and joins its three bytes. -/
theorem memReadWord_eq_ok {s : State} {site : ReadSite} {addr v : Word} :
    s.memReadWord site addr = .ok v ↔
      addr.toNat + 2 < Config.memBytes ∧
        ∃ b0 b1 b2, s.loadByte site addr.toNat = .ok b0 ∧ s.loadByte site (addr.toNat + 1) = .ok b1 ∧
          s.loadByte site (addr.toNat + 2) = .ok b2 ∧ v = wordOfBytes b0 b1 b2 := by
  unfold State.memReadWord
  split
  · rename_i h
    simp only [h, access_bind_eq_ok, access_pure, Except.ok.injEq, true_and]
    constructor
    · rintro ⟨b0, h0, b1, h1, b2, h2, rfl⟩
      exact ⟨b0, b1, b2, h0, h1, h2, rfl⟩
    · rintro ⟨b0, b1, b2, h0, h1, h2, rfl⟩
      exact ⟨b0, h0, b1, h1, b2, h2, rfl⟩
  · rename_i h
    simp [h]

end Sys2Proof.Machine
end

