-- ==== Sys2Proof/Laws/Operands.lean ====
section
/-! SUPPORT. Steps 5 to 7 of the instruction cycle: everything each shared operation can answer. -/

namespace Sys2Proof.Machine

theorem checkFlags_eq_ok {m : Mnemonic} {o : Operand} {r : Relative} :
    checkFlags m o = .ok r ↔ legalRelative m o = some r := by
  unfold checkFlags
  cases legalRelative m o <;> simp

theorem checkFlags_eq_error {m : Mnemonic} {o : Operand} {c : Cause} :
    checkFlags m o = .error c ↔
      legalRelative m o = none ∧ c = .illegalInstruction ((encodeParts m o).take 2) := by
  unfold checkFlags
  cases legalRelative m o <;> simp [eq_comm]

theorem checkPrivilege_eq_ok {m : Mnemonic} {s : State} {u : Unit} :
    checkPrivilege m s = .ok u ↔ (m.privileged = true → s.mode = .supervisor) := by
  unfold checkPrivilege
  cases m.privileged <;> cases s.mode <;> simp

theorem checkPrivilege_eq_error {m : Mnemonic} {s : State} {c : Cause} :
    checkPrivilege m s = .error c ↔
      m.privileged = true ∧ s.mode = .user ∧ .privilegeViolation m = c := by
  unfold checkPrivilege
  cases m.privileged <;> cases s.mode <;> simp

/-- A target address is reached through legal flags, the privilege the instruction needs, a readable base
and a readable index. -/
theorem resolveTarget_eq_ok {s : State} {m : Mnemonic} {o : Operand} {ta : Word} :
    s.resolveTarget m o = .ok ta ↔
      ∃ r, legalRelative m o = some r ∧ (m.privileged = true → s.mode = .supervisor) ∧
        ∃ base idx, s.baseValue o r = .ok base ∧ s.indexValue o = .ok idx ∧
          ta = wrap24 (base.toNat + fieldOffset r o + idx.toNat) := by
  unfold State.resolveTarget State.targetAddress
  simp only [access_bind_eq_ok, checkFlags_eq_ok, checkPrivilege_eq_ok, access_pure, Except.ok.injEq]
  constructor
  · rintro ⟨r, hr, _, hp, b, hb, i, hi, rfl⟩
    exact ⟨r, hr, hp, b, i, hb, hi, rfl⟩
  · rintro ⟨r, hr, hp, b, i, hb, hi, rfl⟩
    exact ⟨r, hr, (), hp, b, hb, i, hi, rfl⟩

/-- Illegal flags raise before anything else is looked at. -/
theorem resolveTarget_of_illegal {s : State} {m : Mnemonic} {o : Operand}
    (h : legalRelative m o = none) :
    s.resolveTarget m o = .error (.illegalInstruction ((encodeParts m o).take 2)) := by
  have : checkFlags m o = .error (.illegalInstruction ((encodeParts m o).take 2)) :=
    checkFlags_eq_error.mpr ⟨h, rfl⟩
  simp [State.resolveTarget, this]

/-- A privileged instruction in user mode raises before any operand is resolved. -/
theorem resolveTarget_of_user {s : State} {m : Mnemonic} {o : Operand}
    (h : legalRelative m o ≠ none) (hm : m.privileged = true) (hu : s.mode = .user) :
    s.resolveTarget m o = .error (.privilegeViolation m) := by
  obtain ⟨r, hr⟩ := Option.ne_none_iff_exists'.mp h
  have h1 : checkFlags m o = .ok r := checkFlags_eq_ok.mpr hr
  have h2 : checkPrivilege m s = .error (.privilegeViolation m) :=
    checkPrivilege_eq_error.mpr ⟨hm, hu, rfl⟩
  simp [State.resolveTarget, h1, h2]

/-- Everything the location of an operand can be. -/
theorem location_eq_ok {s : State} {o : Operand} {ta loc : Word} :
    s.location o ta = .ok loc ↔
      (o.addressing = .indirect ∧ s.memReadWord .pointer ta = .ok loc) ∨
      (o.addressing ≠ .indirect ∧ loc = ta) := by
  unfold State.location
  cases o.addressing <;> simp [eq_comm]

/-- A location is resolved from a target address. -/
theorem resolveLoc_eq_ok {s : State} {m : Mnemonic} {o : Operand} {loc : Word} :
    s.resolveLoc m o = .ok loc ↔
      ∃ ta, s.resolveTarget m o = .ok ta ∧ s.location o ta = .ok loc := by
  unfold State.resolveLoc
  rw [access_bind_eq_ok]

/-- A word operand is the target address itself, or a word of memory at the location. -/
theorem resolveWord_eq_ok {s : State} {m : Mnemonic} {o : Operand} {v : Word} :
    s.resolveWord m o = .ok v ↔
      ∃ ta, s.resolveTarget m o = .ok ta ∧
        ((o.addressing = .immediate ∧ v = ta) ∨
         (o.addressing ≠ .immediate ∧
           ∃ loc, s.location o ta = .ok loc ∧ s.memReadWord .operand loc = .ok v)) := by
  unfold State.resolveWord
  rw [access_bind_eq_ok]
  refine exists_congr fun ta => and_congr_right fun _ => ?_
  cases o.addressing
  · simp [access_bind_eq_ok]
  · simp [eq_comm]
  · simp [access_bind_eq_ok]

/-- A byte operand is the rightmost byte of the target address, or a byte of memory at the location. -/
theorem resolveByte_eq_ok {s : State} {m : Mnemonic} {o : Operand} {v : Byte} :
    s.resolveByte m o = .ok v ↔
      ∃ ta, s.resolveTarget m o = .ok ta ∧
        ((o.addressing = .immediate ∧ v = rightmostByte ta) ∨
         (o.addressing ≠ .immediate ∧
           ∃ loc, s.location o ta = .ok loc ∧ s.memReadByte .operand loc = .ok v)) := by
  unfold State.resolveByte
  rw [access_bind_eq_ok]
  refine exists_congr fun ta => and_congr_right fun _ => ?_
  cases o.addressing
  · simp [access_bind_eq_ok]
  · simp [eq_comm]
  · simp [access_bind_eq_ok]

end Sys2Proof.Machine
end

