-- ==== Sys2Proof/Laws/Exec.lean ====
section
/-! SUPPORT. The shared operations of the instruction families, and what `exec` and `step` can answer. -/

namespace Sys2Proof.Machine

/-- A word load succeeds with its operand written by its register's write. -/
theorem loadWord_eq_ok {m : Mnemonic} {w : Word → State → State} {o : Operand} {s t : State} :
    loadWord m w o s = .ok t ↔ ∃ v, s.resolveWord m o = .ok v ∧ t = (w v s).advance o := by
  unfold loadWord
  simp only [access_bind_eq_ok, access_pure, Except.ok.injEq]
  exact exists_congr fun _ => and_congr_right fun _ => eq_comm

/-- A word store succeeds with the register's value in memory at the location. -/
theorem storeReg_eq_ok {m : Mnemonic} {r : WordReg} {o : Operand} {s t : State} :
    storeReg m r o s = .ok t ↔
      ∃ loc v u, s.resolveLoc m o = .ok loc ∧ s.readReg .effect r = .ok v ∧
        s.memWriteWord loc v = .ok u ∧ t = u.advance o := by
  unfold storeReg
  simp only [access_bind_eq_ok, access_pure, Except.ok.injEq]
  constructor
  · rintro ⟨loc, h1, v, h2, u, h3, rfl⟩
    exact ⟨loc, v, u, h1, h2, h3, rfl⟩
  · rintro ⟨loc, v, u, h1, h2, h3, rfl⟩
    exact ⟨loc, h1, v, h2, u, h3, rfl⟩

/-- An arithmetic instruction succeeds with its result in A. -/
theorem accumulate_eq_ok {m : Mnemonic} {f : Word → Word → Word} {o : Operand} {s t : State} :
    accumulate m f o s = .ok t ↔
      ∃ v a, s.resolveWord m o = .ok v ∧ s.readReg .effect .a = .ok a ∧
        t = (s.setA (f a v)).advance o := by
  unfold accumulate
  simp only [access_bind_eq_ok, access_pure, Except.ok.injEq]
  constructor
  · rintro ⟨v, h1, a, h2, rfl⟩
    exact ⟨v, a, h1, h2, rfl⟩
  · rintro ⟨v, a, h1, h2, rfl⟩
    exact ⟨v, h1, a, h2, rfl⟩

/-- A conditional jump succeeds at its location or after itself. -/
theorem jumpIf_eq_ok {m : Mnemonic} {want : CC} {o : Operand} {s t : State} :
    jumpIf m want o s = .ok t ↔
      ∃ loc c, s.resolveLoc m o = .ok loc ∧ s.readCC = .ok c ∧
        t = s.jump (if c = want then loc else s.pcNext o) := by
  unfold jumpIf
  simp only [access_bind_eq_ok, access_pure, Except.ok.injEq]
  constructor
  · rintro ⟨loc, h1, c, h2, rfl⟩
    exact ⟨loc, c, h1, h2, rfl⟩
  · rintro ⟨loc, c, h1, h2, rfl⟩
    exact ⟨loc, h1, c, h2, rfl⟩

/-- `exec` always answers a state: an instruction's effect or a faulted state. -/
theorem exec_answers_next (i : Instr) (s : State) : ∃ t, exec i s = .next t := by
  cases i <;> exact conclude_answers_next _ _

/-- What an instruction that completes can do to the state `s` it begins in, one constructor for each shape
of effect; a store lies in memory and a device is asked in supervisor mode, by a transfer only when its
latch is set. -/
inductive Effect (s : State) : State → Prop
  | writeA (v : Word) (o : Operand) : Effect s ((s.setA v).advance o)
  | writeX (v : Word) (o : Operand) : Effect s ((s.setX v).advance o)
  | writeL (v : Word) (o : Operand) : Effect s ((s.setL v).advance o)
  | compare (c : CC) (o : Operand) : Effect s ((s.setCC c).advance o)
  | indexAndCompare (v : Word) (c : CC) (o : Operand) : Effect s (((s.setX v).setCC c).advance o)
  | jump (target : Word) : Effect s (s.jump target)
  | call (v target : Word) : Effect s ((s.setL v).jump target)
  | storeWord (a v : Word) (o : Operand) (inside : a.toNat + 2 < Config.memBytes) :
      Effect s (State.advance o { s with mem := Memory.writeBytes s.mem a.toNat (wordBytes v) })
  | storeByte (a : Word) (b : Byte) (o : Operand) (inside : a.toNat < Config.memBytes) :
      Effect s (State.advance o { s with mem := Memory.write s.mem a.toNat b })
  | test (d : Byte) (c : CC) (o : Operand) (mode : s.mode = .supervisor) :
      Effect s ((((s.deviceTest d).2.setCC c).setReady d (s.deviceTest d).1).advance o)
  | read (d : Byte) (v : Word) (o : Operand) (mode : s.mode = .supervisor)
      (latch : s.isReady d = true) :
      Effect s ((((s.deviceRead d).2.setA v).setReady d false).advance o)
  | write (d b : Byte) (o : Operand) (mode : s.mode = .supervisor) (latch : s.isReady d = true) :
      Effect s (((s.deviceWrite d b).setReady d false).advance o)

/-- A privileged instruction resolves its operand in supervisor mode only. -/
theorem mode_of_resolveByte {s : State} {m : Mnemonic} {o : Operand} {v : Byte}
    (h : s.resolveByte m o = .ok v) (hm : m.privileged = true) : s.mode = .supervisor := by
  obtain ⟨ta, h, _⟩ := resolveByte_eq_ok.mp h
  obtain ⟨r, _, h, _⟩ := resolveTarget_eq_ok.mp h
  exact h hm

/-- The latch check passes on a set latch only. -/
theorem isReady_of_requireReady {d : Byte} {s : State} {u : Unit} (h : requireReady d s = .ok u) :
    s.isReady d = true := by
  unfold requireReady at h
  split at h <;> simp_all

/-- Everything `exec` can answer: a faulted state that changes nothing but the status, or an effect. -/
theorem exec_effect {i : Instr} {s t : State} (h : exec i s = .next t) :
    (∃ c, t = s.raise c) ∨ Effect s t := by
  cases i with
  | lda o | ldx o | ldl o =>
    rcases conclude_eq_next.mp h with h | ⟨c, _, h⟩
    · obtain ⟨v, _, rfl⟩ := loadWord_eq_ok.mp h
      right
      first
      | exact .writeA _ _
      | exact .writeX _ _
      | exact .writeL _ _
    · exact .inl ⟨c, h⟩
  | add o | sub o | mul o | and o | or o =>
    rcases conclude_eq_next.mp h with h | ⟨c, _, h⟩
    · obtain ⟨v, a, _, _, rfl⟩ := accumulate_eq_ok.mp h
      exact .inr (.writeA _ _)
    · exact .inl ⟨c, h⟩
  | sta o | stx o | stl o =>
    rcases conclude_eq_next.mp h with h | ⟨c, _, h⟩
    · obtain ⟨loc, v, u, _, _, hu, rfl⟩ := storeReg_eq_ok.mp h
      obtain ⟨hb, rfl⟩ := memWriteWord_eq_ok.mp hu
      exact .inr (.storeWord _ _ _ hb)
    · exact .inl ⟨c, h⟩
  | jeq o | jgt o | jlt o =>
    rcases conclude_eq_next.mp h with h | ⟨c, _, h⟩
    · obtain ⟨loc, v, _, _, rfl⟩ := jumpIf_eq_ok.mp h
      exact .inr (.jump _)
    · exact .inl ⟨c, h⟩
  | div o =>
    rcases conclude_eq_next.mp h with h | ⟨c, _, h⟩
    · simp only [access_bind_eq_ok] at h
      obtain ⟨v, _, h⟩ := h
      split at h
      · cases h
      · simp only [access_bind_eq_ok, access_pure, Except.ok.injEq] at h
        obtain ⟨a, _, rfl⟩ := h
        exact .inr (.writeA _ _)
    · exact .inl ⟨c, h⟩
  | comp o | tix o | ldch o | j o | jsub o | rsub o =>
    rcases conclude_eq_next.mp h with h | ⟨c, _, h⟩
    · simp only [access_bind_eq_ok, access_pure, Except.ok.injEq] at h
      first
      | obtain ⟨v, _, a, _, rfl⟩ := h
        exact .inr (by first | exact .compare _ _ | exact .indexAndCompare _ _ _ | exact .writeA _ _)
      | obtain ⟨v, _, rfl⟩ := h
        exact .inr (by first | exact .jump _ | exact .call _ _)
    · exact .inl ⟨c, h⟩
  | stch o =>
    rcases conclude_eq_next.mp h with h | ⟨c, _, h⟩
    · simp only [access_bind_eq_ok, access_pure, Except.ok.injEq] at h
      obtain ⟨v, _, a, _, u, hu, rfl⟩ := h
      obtain ⟨hb, rfl⟩ := memWriteByte_eq_ok.mp hu
      exact .inr (.storeByte _ _ _ hb)
    · exact .inl ⟨c, h⟩
  | stsw o =>
    rcases conclude_eq_next.mp h with h | ⟨c, _, h⟩
    · simp only [access_bind_eq_ok, access_pure, Except.ok.injEq] at h
      obtain ⟨v, _, a, _, u, hu, rfl⟩ := h
      obtain ⟨hb, rfl⟩ := memWriteWord_eq_ok.mp hu
      exact .inr (.storeWord _ _ _ hb)
    · exact .inl ⟨c, h⟩
  | td o =>
    rcases conclude_eq_next.mp h with h | ⟨c, _, h⟩
    · simp only [access_bind_eq_ok, access_pure, Except.ok.injEq] at h
      obtain ⟨d, hd, rfl⟩ := h
      exact .inr (.test _ _ _ (mode_of_resolveByte hd rfl))
    · exact .inl ⟨c, h⟩
  | rd o =>
    rcases conclude_eq_next.mp h with h | ⟨c, _, h⟩
    · simp only [access_bind_eq_ok, access_pure, Except.ok.injEq] at h
      obtain ⟨d, hd, _, hr, a, _, rfl⟩ := h
      exact .inr (.read _ _ _ (mode_of_resolveByte hd rfl) (isReady_of_requireReady hr))
    · exact .inl ⟨c, h⟩
  | wd o =>
    rcases conclude_eq_next.mp h with h | ⟨c, _, h⟩
    · simp only [access_bind_eq_ok, access_pure, Except.ok.injEq] at h
      obtain ⟨d, hd, _, hr, a, _, rfl⟩ := h
      exact .inr (.write _ _ _ (mode_of_resolveByte hd rfl) (isReady_of_requireReady hr))
    · exact .inl ⟨c, h⟩

/-- An effect leaves the run status alone: an instruction that completes does not stop the machine. -/
theorem Effect.status_eq {s t : State} (h : Effect s t) : t.status = s.status := by
  cases h
  case test d c o _ =>
    obtain ⟨left, e⟩ := deviceTest_spec s d
    simp [e]
  case read d v o _ _ =>
    obtain ⟨left, e⟩ := deviceRead_spec s d
    simp [e]
  all_goals rfl

/-- A step that answers a state began in a running machine, and ended the run, raised a fault of the fetch or
executed the instruction fetched. -/
theorem step_eq_next {s t : State} (h : step s = .next t) :
    s.status = .running ∧
      ((s.pc = s.exitAddr ∧ t = s.endRun) ∨
       (s.pc ≠ s.exitAddr ∧ ∃ c, s.fetchInstr = .error c ∧ t = s.raise c) ∨
       (s.pc ≠ s.exitAddr ∧ ∃ i, s.fetchInstr = .ok i ∧ exec i s = .next t)) := by
  unfold step at h
  cases hs : s.status with
  | exited => simp [hs] at h
  | faulted c a => simp [hs] at h
  | running =>
    simp only [hs] at h
    refine ⟨rfl, ?_⟩
    by_cases hp : s.pc = s.exitAddr
    · simp only [hp, if_true, Host.Outcome.next.injEq] at h
      exact .inl ⟨hp, h.symm⟩
    · simp only [hp, if_false] at h
      cases hf : s.fetchInstr with
      | error c =>
        simp only [hf, Host.Outcome.next.injEq] at h
        exact .inr (.inl ⟨hp, c, rfl, h.symm⟩)
      | ok i =>
        simp only [hf] at h
        exact .inr (.inr ⟨hp, i, rfl, h⟩)

end Sys2Proof.Machine
end

