-- ==== Sys2Proof/Laws/PerInstr.lean ====
section
/-! SUPPORT. Statements about every instruction as syntax, one lemma for each constructor. -/

namespace Sys2Proof.Laws

/-- The encoding of an instruction: it is as long as its form says and its first byte selects the
instruction's mnemonic; and the mnemonic with the operand part is the instruction. -/
def Encoding.Statement (i : Instr) : Prop :=
  i.mnemonic.instr i.operand = i ∧ (encode i).length = i.operand.length ∧
    (encode i).head?.bind Mnemonic.ofByte? = some i.mnemonic

/-- The family's statement for any instruction, from the lemmas over mnemonics. -/
theorem encoding_statement (i : Instr) : Encoding.Statement i :=
  ⟨i.instr_mnemonic_operand, encodeParts_length _ _, encodeParts_first _ _⟩

theorem Encoding.lda (o : Operand) : Encoding.Statement (.lda o) := encoding_statement _
theorem Encoding.ldx (o : Operand) : Encoding.Statement (.ldx o) := encoding_statement _
theorem Encoding.ldl (o : Operand) : Encoding.Statement (.ldl o) := encoding_statement _
theorem Encoding.sta (o : Operand) : Encoding.Statement (.sta o) := encoding_statement _
theorem Encoding.stx (o : Operand) : Encoding.Statement (.stx o) := encoding_statement _
theorem Encoding.stl (o : Operand) : Encoding.Statement (.stl o) := encoding_statement _
theorem Encoding.add (o : Operand) : Encoding.Statement (.add o) := encoding_statement _
theorem Encoding.sub (o : Operand) : Encoding.Statement (.sub o) := encoding_statement _
theorem Encoding.mul (o : Operand) : Encoding.Statement (.mul o) := encoding_statement _
theorem Encoding.div (o : Operand) : Encoding.Statement (.div o) := encoding_statement _
theorem Encoding.comp (o : Operand) : Encoding.Statement (.comp o) := encoding_statement _
theorem Encoding.tix (o : Operand) : Encoding.Statement (.tix o) := encoding_statement _
theorem Encoding.jeq (o : Operand) : Encoding.Statement (.jeq o) := encoding_statement _
theorem Encoding.jgt (o : Operand) : Encoding.Statement (.jgt o) := encoding_statement _
theorem Encoding.jlt (o : Operand) : Encoding.Statement (.jlt o) := encoding_statement _
theorem Encoding.j (o : Operand) : Encoding.Statement (.j o) := encoding_statement _
theorem Encoding.and (o : Operand) : Encoding.Statement (.and o) := encoding_statement _
theorem Encoding.or (o : Operand) : Encoding.Statement (.or o) := encoding_statement _
theorem Encoding.jsub (o : Operand) : Encoding.Statement (.jsub o) := encoding_statement _
theorem Encoding.rsub (o : Operand) : Encoding.Statement (.rsub o) := encoding_statement _
theorem Encoding.ldch (o : Operand) : Encoding.Statement (.ldch o) := encoding_statement _
theorem Encoding.stch (o : Operand) : Encoding.Statement (.stch o) := encoding_statement _
theorem Encoding.rd (o : Operand) : Encoding.Statement (.rd o) := encoding_statement _
theorem Encoding.wd (o : Operand) : Encoding.Statement (.wd o) := encoding_statement _
theorem Encoding.td (o : Operand) : Encoding.Statement (.td o) := encoding_statement _
theorem Encoding.stsw (o : Operand) : Encoding.Statement (.stsw o) := encoding_statement _

end Sys2Proof.Laws
end

