-- ==== Sys2Proof/Machine/Assembler.lean ====
section
/-! DEFINITION. The assembler directives (30_encoding.md R85, R86) and the object program they and the
instructions give (R88). Statements are taken as already read: an instruction stands as its term and an
operand as its value (log 13). Reading them is SourceText.lean's (R84). -/

namespace Sys2Proof.Machine

/-- The constant of BYTE: one byte a character, or one byte for two hexadecimal digits (R85, 90_conflicts.md
C4). -/
inductive ByteConstant where
  | chars (cs : List Byte)
  | hex (digits : List (BitVec 4 × BitVec 4))
deriving DecidableEq, Repr

/-- The bytes of BYTE's constant. -/
def ByteConstant.bytes : ByteConstant → List Byte
  | .chars cs => cs
  | .hex digits => digits.map fun (h, l) => h ++ l

/-- The directives (R85, R86). -/
inductive Directive where
  /-- the program's name and starting address -/
  | start (name : List Byte) (addr : Nat)
  /-- the end of the source program and, optionally, the first executable instruction -/
  | end_ (entry : Option Nat)
  /-- a constant in as many bytes as it needs -/
  | byte (c : ByteConstant)
  /-- a one-word integer constant -/
  | word (z : Int)
  /-- bytes reserved -/
  | resb (n : Nat)
  /-- words reserved -/
  | resw (n : Nat)
  /-- the value given to the symbol of the statement's label -/
  | equ (value : Int)
  /-- the location counter's new value -/
  | org (addr : Nat)
  /-- the literal pool is placed here -/
  | ltorg
deriving DecidableEq, Repr

/-- A statement: an instruction with the constants of the literals it uses, or a directive. -/
inductive Statement where
  | instr (i : Instr) (literals : List (List Byte))
  | directive (d : Directive)
deriving DecidableEq, Repr

/-- A statement with its label. -/
structure Line where
  label : Option String
  body : Statement
deriving DecidableEq, Repr

/-- The assembler between two statements: LOCCTR, SYMTAB, the literals not yet placed and what has been
generated. -/
structure Assembly where
  name : List Byte
  start : Nat
  locctr : Nat
  /-- the highest location reached -/
  top : Nat
  symtab : List (String × Int)
  pool : List (List Byte)
  /-- object code generated, with its address, the oldest first -/
  code : List (Nat × List Byte)
  firstInstr : Option Nat
  entry : Option Nat
deriving DecidableEq, Repr

/-- The assembler before the first statement. DESIGN CHOICE (log 31): a source program without START has an
empty name and the starting address 0. -/
def Assembly.empty : Assembly := ⟨[], 0, 0, 0, [], [], [], none, none⟩

/-- Move the location counter forward. -/
def Assembly.reserve (n : Nat) (st : Assembly) : Assembly :=
  { st with locctr := st.locctr + n, top := max st.top (st.locctr + n) }

/-- Generate object code at the location counter. -/
def Assembly.emit (bytes : List Byte) (st : Assembly) : Assembly :=
  ({ st with code := st.code ++ [(st.locctr, bytes)] } : Assembly).reserve bytes.length

/-- What a label is entered into SYMTAB with: EQU's value (R86), START's address, else the location. -/
def Statement.labelValue (st : Assembly) : Statement → Int
  | .directive (.equ v) => v
  | .directive (.start _ addr) => addr
  | _ => st.locctr

/-- The effect of a directive (R85, R86). DESIGN CHOICE (log 27): WORD with an integer outside the 24 bits of
R85 generates its low 24 bits. DESIGN CHOICE (log 31): START may stand anywhere; it sets the name, the starting
address, the location and the highest location anew, and what was generated before it stays. -/
def Directive.apply (st : Assembly) : Directive → Assembly
  | .start name addr => { st with name := name, start := addr, locctr := addr, top := addr }
  | .end_ entry => { st with entry := entry }
  | .byte c => st.emit c.bytes
  | .word z => st.emit (wordBytes (wrap24 z))
  | .resb n => st.reserve n
  | .resw n => st.reserve (3 * n)
  | .equ _ => st
  | .org addr => { st with locctr := addr, top := max st.top addr }
  | .ltorg => { st.emit st.pool.flatten with pool := [] }

/-- The effect of a statement without its label. -/
def Statement.apply (st : Assembly) : Statement → Assembly
  | .instr i literals =>
    ({ st with
        firstInstr := some (st.firstInstr.getD st.locctr)
        pool := st.pool ++ literals } : Assembly).emit (encode i)
  | .directive d => d.apply st

/-- The effect of a line: its label is entered into SYMTAB, then the statement applies. DESIGN CHOICE (log 28): a
line without a label enters nothing, EQU too. -/
def Line.apply (st : Assembly) (ln : Line) : Assembly :=
  let symtab :=
    match ln.label with
    | some name => st.symtab ++ [(name, ln.body.labelValue st)]
    | none => st.symtab
  ln.body.apply { st with symtab := symtab }

/-- Object code cut into Text records of at most 30 bytes (R90); the fuel is the code's length. -/
def textRecords : Nat → Nat → List Byte → List TextRecord
  | 0, _, _ => []
  | _ + 1, _, [] => []
  | fuel + 1, addr, bytes =>
    ⟨BitVec.ofNat 24 addr, bytes.take maxTextBytes⟩
      :: textRecords fuel (addr + maxTextBytes) (bytes.drop maxTextBytes)

/-- The address of the End record: END's operand, or the first executable instruction (R88). DESIGN CHOICE
(log 26): START's address where the program has neither. -/
def Assembly.entryAddress (st : Assembly) : Nat := st.entry.getD (st.firstInstr.getD st.start)

/-- The object program of what has been generated (R88). Literals not yet placed are placed at the end
(log 13). DESIGN CHOICE (log 28): the length reaches from START's address to the highest location. -/
def Assembly.object (st : Assembly) : ObjectProgram :=
  let done := Directive.apply st .ltorg
  { name := done.name
    start := BitVec.ofNat 24 done.start
    length := BitVec.ofNat 24 (done.top - done.start)
    texts := done.code.flatMap fun (a, bytes) => textRecords bytes.length a bytes
    entry := BitVec.ofNat 24 done.entryAddress }

/-- Whether a statement is the END directive. -/
def Statement.isEnd : Statement → Bool
  | .directive (.end_ _) => true
  | _ => false

/-- The source program: the lines up to END, which ends it (R85); all lines where there is none (log 31). -/
def sourceProgram : List Line → List Line
  | [] => []
  | ln :: rest => if ln.body.isEnd then [ln] else ln :: sourceProgram rest

/-- The object program of the source program that lines hold. -/
def assemble (lines : List Line) : ObjectProgram :=
  ((sourceProgram lines).foldl Line.apply Assembly.empty).object

end Sys2Proof.Machine
end

