-- ==== Sys2Proof/Machine/SourceText.lean ====
section
/-! DEFINITION. PRESUMED (log 13): the conventional syntax of source statements and the assembler's choice of
addressing (30_encoding.md R84, R77, D31). The machine never sees source text. -/

namespace Sys2Proof.Machine

/-! ### Statements as written -/

/-- An operand's value as written: a number or a symbol. -/
inductive Value where
  | number (z : Int)
  | symbol (name : String)
deriving DecidableEq, Repr

/-- The operand of an instruction: `#` immediate, `@` indirect, no prefix simple; `,X` indexed. -/
structure SourceOperand where
  addressing : Addressing
  value : Value
  indexed : Bool
deriving DecidableEq, Repr

/-- A statement as written. -/
inductive SourceStatement where
  /-- `extended` is the `+` before the mnemonic; RSUB has no operand -/
  | instr (m : Mnemonic) (extended : Bool) (operand : Option SourceOperand)
  | start (addr : Nat)
  | end_ (entry : Option Value)
  | byte (c : ByteConstant)
  | word (v : Value)
  | resb (n : Nat)
  | resw (n : Nat)
  | equ (v : Value)
  | org (v : Value)
  | ltorg
deriving DecidableEq, Repr

/-- A line: an optional label in the first field, and a statement. -/
structure SourceLine where
  label : Option String
  body : SourceStatement
deriving DecidableEq, Repr

/-! ### Reading characters -/

/-- A mnemonic as the source writes it (R80). -/
def mnemonicName : Mnemonic → String
  | .lda => "LDA"
  | .ldx => "LDX"
  | .ldl => "LDL"
  | .sta => "STA"
  | .stx => "STX"
  | .stl => "STL"
  | .add => "ADD"
  | .sub => "SUB"
  | .mul => "MUL"
  | .div => "DIV"
  | .comp => "COMP"
  | .tix => "TIX"
  | .jeq => "JEQ"
  | .jgt => "JGT"
  | .jlt => "JLT"
  | .j => "J"
  | .and => "AND"
  | .or => "OR"
  | .jsub => "JSUB"
  | .rsub => "RSUB"
  | .ldch => "LDCH"
  | .stch => "STCH"
  | .rd => "RD"
  | .wd => "WD"
  | .td => "TD"
  | .stsw => "STSW"

/-- The mnemonic of a name. -/
def mnemonicOfName? (name : String) : Option Mnemonic :=
  Mnemonic.all.find? fun m => mnemonicName m == name

/-- The ASCII code of a character (10_state.md R30). `SourceLine.ofText?` takes no character above 127
(log 29). -/
def ascii (c : Char) : Byte := BitVec.ofNat 8 c.toNat

/-- The number that digits of a base write, given what the digits before them write. -/
def number? (base before : Nat) : List Char → Option Nat
  | [] => some before
  | c :: cs =>
    match hexDigit? (ascii c) with
    | some d => if d < base then number? base (base * before + d) cs else none
    | none => none

/-- A number of at least one digit. -/
def digits? (base : Nat) (cs : List Char) : Option Nat :=
  if cs.isEmpty then none else number? base 0 cs

/-- The fields of a line, between blanks that no apostrophe encloses. -/
def fieldsFrom (field : List Char) (quoted : Bool) : List Char → List (List Char)
  | [] => if field.isEmpty then [] else [field.reverse]
  | c :: cs =>
    if c = ' ' && !quoted then
      if field.isEmpty then fieldsFrom [] false cs else field.reverse :: fieldsFrom [] false cs
    else fieldsFrom (c :: field) (if c = '\'' then !quoted else quoted) cs

/-- A number: hexadecimal after `0x`, as 95_test_vectors.md P5 writes it, else decimal. -/
def natural? : List Char → Option Nat
  | '0' :: 'x' :: ds => digits? 16 ds
  | ds => digits? 10 ds

/-- A value: a number, with a minus sign or without, or a symbol, which begins with no digit. -/
def Value.ofChars? : List Char → Option Value
  | [] => none
  | '-' :: ds => (natural? ds).map fun n => .number (-n)
  | c :: cs =>
    match natural? (c :: cs) with
    | some n => some (.number n)
    | none => if c.isDigit then none else some (.symbol (String.ofList (c :: cs)))

/-- An operand of an instruction. -/
def SourceOperand.ofChars? (cs : List Char) : Option SourceOperand :=
  let (addressing, rest) :=
    match cs with
    | '#' :: rest => (Addressing.immediate, rest)
    | '@' :: rest => (Addressing.indirect, rest)
    | _ => (Addressing.simple, cs)
  match rest.reverse with
  | 'X' :: ',' :: back => (Value.ofChars? back.reverse).map fun v => ⟨addressing, v, true⟩
  | _ => (Value.ofChars? rest).map fun v => ⟨addressing, v, false⟩

/-- Pairs of hexadecimal digits. DESIGN CHOICE (log 30): an odd count of digits is refused. -/
def hexPairs? : List Char → Option (List (BitVec 4 × BitVec 4))
  | [] => some []
  | [_] => none
  | c :: d :: rest =>
    match hexDigit? (ascii c), hexDigit? (ascii d), hexPairs? rest with
    | some h, some l, some more => some ((BitVec.ofNat 4 h, BitVec.ofNat 4 l) :: more)
    | _, _, _ => none

/-- BYTE's constant: `C'...'` for characters, `X'...'` for hexadecimal digits (R85). -/
def ByteConstant.ofChars? : List Char → Option ByteConstant
  | kind :: '\'' :: rest =>
    match rest.reverse with
    | '\'' :: back =>
      if kind = 'C' then some (.chars (back.reverse.map ascii))
      else if kind = 'X' then (hexPairs? back.reverse).map .hex
      else none
    | _ => none
  | _ => none

/-- A statement of an operation and the fields after it; the fields after an operand are a comment. -/
def SourceStatement.ofFields? (op : List Char) (args : List (List Char)) : Option SourceStatement :=
  let (extended, name) :=
    match op with
    | '+' :: rest => (true, String.ofList rest)
    | _ => (false, String.ofList op)
  match mnemonicOfName? name with
  | some m =>
    if m.operandClass = .none then some (.instr m extended none)
    else args.head?.bind fun a => (SourceOperand.ofChars? a).map fun o => .instr m extended (some o)
  | none =>
    if extended then none
    else if name = "END" then
      match args with
      | [] => some (.end_ none)
      | a :: _ => (Value.ofChars? a).map fun v => .end_ (some v)
    else if name = "LTORG" then some .ltorg
    else args.head?.bind fun a =>
      if name = "START" then (digits? 16 a).map .start
      else if name = "BYTE" then (ByteConstant.ofChars? a).map .byte
      else if name = "WORD" then (Value.ofChars? a).map .word
      else if name = "RESB" then (natural? a).map .resb
      else if name = "RESW" then (natural? a).map .resw
      else if name = "EQU" then (Value.ofChars? a).map .equ
      else if name = "ORG" then (Value.ofChars? a).map .org
      else none

/-- A line of source text: a label, if any, begins in the first column. DESIGN CHOICE (log 29): a line with a
character that has no ASCII code is refused. -/
def SourceLine.ofText? (text : String) : Option SourceLine :=
  let cs := text.toList
  match if cs.all fun c => c.toNat < 128 then fieldsFrom [] false cs else [] with
  | [] => none
  | first :: rest =>
    if cs.head? = some ' ' then (SourceStatement.ofFields? first rest).map fun b => ⟨none, b⟩
    else
      match rest with
      | op :: args =>
        (SourceStatement.ofFields? op args).map fun b => ⟨some (String.ofList first), b⟩
      | [] => none

/-! ### Choosing the addressing (R84, R77) -/

/-- What an assembler is set to: the standard-SIC form (R77), and the declared value of B, if any (R84). -/
structure AssemblerSetting where
  standardSic : Bool
  base : Option Nat
deriving DecidableEq, Repr

/-- Format 3: PC-relative where the displacement fits, else base-relative where a base is declared and the
displacement fits (R84). -/
def relativeOperand (ni : Addressing) (x : Bool) (target pcNext : Int) (base : Option Nat) :
    Option Operand :=
  if -2048 ≤ target - pcNext ∧ target - pcNext ≤ 2047 then
    some (.f3 ni x false true (BitVec.ofInt 12 (target - pcNext)))
  else
    match base with
    | some b =>
      if 0 ≤ target - b ∧ target - b ≤ 4095 then
        some (.f3 ni x true false (BitVec.ofInt 12 (target - b)))
      else none
    | none => none

/-- What a value is, given the values of symbols. -/
def Value.eval (symbol : String → Option Int) : Value → Option Int
  | .number z => some z
  | .symbol name => symbol name

/-- Whether a value is a number that direct addressing of Format 3 holds (log 13). -/
def Value.isDirect : Value → Bool
  | .number z => 0 ≤ z && z ≤ 4095
  | .symbol _ => false

/-- The operand part of an instruction at a location, given the values of symbols: Format 4 with `+`, the
SIC form where the assembler is set to it, else Format 3, direct for a number that fits and relative for
any other value. DESIGN CHOICE (log 32): an operand that does not fit the field so chosen is refused; a symbol
is never direct. -/
def SourceOperand.encode (setting : AssemblerSetting) (symbol : String → Option Int) (loc : Nat)
    (extended : Bool) (o : SourceOperand) : Option Operand :=
  (o.value.eval symbol).bind fun v =>
    if extended then
      if 0 ≤ v ∧ v < 2 ^ 20 then
        some (.f4 o.addressing o.indexed false false (BitVec.ofInt 20 v))
      else none
    else if setting.standardSic then
      if o.addressing = .simple ∧ 0 ≤ v ∧ v < 2 ^ 15 then
        some (.sic o.indexed (BitVec.ofInt 15 v))
      else none
    else if o.value.isDirect then
      some (.f3 o.addressing o.indexed false false (BitVec.ofInt 12 v))
    else relativeOperand o.addressing o.indexed v (loc + 3) setting.base

/-- The operand part of an instruction without an operand, as an assembler writes it (42_compare_jump.md
R149). -/
def emptyOperand (setting : AssemblerSetting) (extended : Bool) : Operand :=
  if extended then .f4 .simple false false false 0#20
  else if setting.standardSic then .sic false 0#15
  else .f3 .simple false false false 0#12

/-! ### The two passes

A symbol may be used before its line, in EQU and ORG too. Pass 1 is therefore repeated until SYMTAB stays as
it is: a symbol whose value is not known yet is not entered. -/

/-- The value of a symbol in a symbol table. -/
def lookUp (symtab : List (String × Int)) (name : String) : Option Int := symtab.lookup name

/-- A value as a location or an address: none where it is not known or does not fit 24 bits (log 28). -/
def asAddress (z : Option Int) : Option Nat :=
  z.bind fun v => if 0 ≤ v ∧ v < 2 ^ 24 then some v.toNat else none

/-- The bytes a statement takes at its location. -/
def SourceStatement.size : SourceStatement → Nat
  | .instr _ extended _ => if extended then 4 else 3
  | .byte c => c.bytes.length
  | .word _ => 3
  | .resb n => n
  | .resw n => 3 * n
  | .start _ | .end_ _ | .equ _ | .org _ | .ltorg => 0

/-- The location after a statement, given the location before it and the values of symbols. -/
def SourceStatement.nextLocation (symtab : List (String × Int)) (loc : Option Nat) (b : SourceStatement) :
    Option Nat :=
  match b with
  | .start addr => some addr
  | .org v => asAddress (v.eval (lookUp symtab))
  | _ => loc.map (· + b.size)

/-- What the label of a statement is entered into SYMTAB with: EQU's value, START's address, else the
location (R86). -/
def SourceStatement.labelValue (symtab : List (String × Int)) (loc : Option Nat) :
    SourceStatement → Option Int
  | .equ v => v.eval (lookUp symtab)
  | .start addr => some addr
  | _ => loc.map fun n => (n : Int)

/-- Pass 1 once: the symbols whose value follows from the symbols known. -/
def symbolPass (known : List (String × Int)) : Option Nat → List SourceLine → List (String × Int)
  | _, [] => []
  | loc, ln :: rest =>
    let later := symbolPass known (ln.body.nextLocation known loc) rest
    match ln.label, ln.body.labelValue known loc with
    | some name, some v => (name, v) :: later
    | _, _ => later

/-- Pass 1, repeated at most a number of times until SYMTAB stays as it is. -/
def settle (lines : List SourceLine) : Nat → List (String × Int) → List (String × Int)
  | 0, symtab => symtab
  | fuel + 1, symtab =>
    let next := symbolPass symtab (some 0) lines
    if next = symtab then symtab else settle lines fuel next

/-- SYMTAB of a source program. Each repetition settles at least one more line. -/
def symbolTable (lines : List SourceLine) : List (String × Int) := settle lines (lines.length + 1) []

/-- The line as the assembler applies it at a location, with every symbol at its value; none where a value
is not known or an address does not fit 24 bits (log 28). -/
def SourceLine.line? (setting : AssemblerSetting) (symtab : List (String × Int)) (loc : Nat)
    (ln : SourceLine) : Option Line :=
  let value (v : Value) : Option Int := v.eval (lookUp symtab)
  let directive (d : Directive) : Option Line := some ⟨ln.label, .directive d⟩
  match ln.body with
  | .instr m extended none => some ⟨ln.label, .instr (m.instr (emptyOperand setting extended)) []⟩
  | .instr m extended (some o) =>
    (o.encode setting (lookUp symtab) loc extended).map fun op => ⟨ln.label, .instr (m.instr op) []⟩
  | .start addr => directive (.start ((ln.label.getD "").toList.map ascii) addr)
  | .end_ none => directive (.end_ none)
  | .end_ (some v) => (asAddress (value v)).bind fun a => directive (.end_ (some a))
  | .byte c => directive (.byte c)
  | .word v => (value v).bind fun z => directive (.word z)
  | .resb n => directive (.resb n)
  | .resw n => directive (.resw n)
  | .equ v => (value v).bind fun z => directive (.equ z)
  | .org v => (asAddress (value v)).bind fun a => directive (.org a)
  | .ltorg => directive .ltorg

/-- Pass 2: the object code, with every symbol at its value. -/
def secondPass (setting : AssemblerSetting) (symtab : List (String × Int)) (lines : List SourceLine) :
    Option Assembly :=
  lines.foldlM (init := Assembly.empty) fun st ln =>
    (ln.line? setting symtab st.locctr).map (Line.apply st)

/-- What assembling has to end with: pass 2 has entered exactly the symbols it was given, no symbol twice, and
every address fits 24 bits (log 28). -/
def Assembly.consistent (symtab : List (String × Int)) (st : Assembly) : Bool :=
  st.symtab == symtab && decide (symtab.map Prod.fst).Nodup && decide (st.top < 2 ^ 24)

/-- Whether a statement as written is END. -/
def SourceStatement.isEnd : SourceStatement → Bool
  | .end_ _ => true
  | _ => false

/-- The source program that text holds: the lines up to END, which ends it (R85); all lines where there is
none (log 31). What stands after END is not read. -/
def sourceLines? : List String → Option (List SourceLine)
  | [] => some []
  | text :: rest =>
    (SourceLine.ofText? text).bind fun ln =>
      if ln.body.isEnd then some [ln] else (sourceLines? rest).map (ln :: ·)

/-- The object program of source text. -/
def assembleText (setting : AssemblerSetting) (text : List String) : Option ObjectProgram :=
  (sourceLines? text).bind fun lines =>
    let symtab := symbolTable lines
    (secondPass setting symtab lines).bind fun st =>
      if st.consistent symtab then some st.object else none

end Sys2Proof.Machine
end

