-- ==== Sys2Proof/Tests/Slice0.lean ====
section
/-! SUPPORT. Tests on fixed values, and for each statement with hypotheses a state and operands that meet
them. The identifiers E, LS, A, CJ, IO, X, P and S name the vectors of 95_test_vectors.md, from which the
expected results are taken. -/

namespace Sys2Proof.Tests

open Sys2Proof.Machine

/-! ## Small states -/

/-- The state of an outcome. -/
def after : Host.Outcome State Fault Refusal → Option State
  | .next t => some t
  | .fault _ => none
  | .refused _ => none

/-- The conventions of 95_test_vectors.md sections 2 and 3: registers and CC unspecified, L = `EXIT_ADDR` =
FFFFFF, supervisor, `UNINIT_POLICY` fault. -/
def blank : State :=
  { State.reset with known := ⟨false, false, true, false, false, false, false, false⟩ }

/-- Bytes given from an address up. -/
def bytesFrom (a : Nat) (bytes : List Byte) (s : State) : State :=
  { s with mem := Memory.writeBytes s.mem a bytes }

/-- The program counter at 000100, with an instruction's bytes there. -/
def code (bytes : List Byte) (s : State) : State :=
  bytesFrom 0x100 bytes { s with pc := 0x100#24 }

/-- B with a value. -/
def setB (v : Word) (s : State) : State :=
  { s with rB := v, known := { s.known with b := true } }

/-- User mode. -/
def inUserMode (s : State) : State := { s with mode := .user }

/-- What a test looks at after one step: a value of the state, `pc` and the run status. -/
def look {α : Type} (f : State → α) (s : State) : Option (α × Word × Status) :=
  (after (step s)).map fun t => (f t, t.pc, t.status)

/-- The status after a step, and whether `pc`, memory, the device log and what has a value are as before. -/
def faulted (s : State) : Option (Status × Bool) :=
  (after (step s)).map fun t =>
    (t.status, t.pc == s.pc && t.mem == s.mem && t.known == s.known && t.deviceLog == s.deviceLog)

/-- The bytes of a word of memory. -/
def wordIn (a : Nat) (s : State) : List (Option Byte) :=
  [Memory.read s.mem a, Memory.read s.mem (a + 1), Memory.read s.mem (a + 2)]

/-- Characters of a record. -/
def columns (s : String) : List Byte := s.toList.map fun c => BitVec.ofNat 8 c.toNat

/-! ## Words of the spec's encoding, field by field (30_encoding.md R64 to R66, R80) -/

theorem test_decode_lda : decode [0b000000_11#8, 0b0_0_0_0_0001#8, 0x00#8] =
    .ok (.lda (.f3 .simple false false false 0x100#12), []) := by decide
theorem test_decode_ldx : decode [0b000001_01#8, 0b0_0_0_0_0000#8, 0x05#8] =
    .ok (.ldx (.f3 .immediate false false false 0x005#12), []) := by decide
theorem test_decode_ldl : decode [0b000010_10#8, 0b0_0_0_0_0010#8, 0x00#8] =
    .ok (.ldl (.f3 .indirect false false false 0x200#12), []) := by decide
theorem test_decode_sta : decode [0b000011_11#8, 0b0_0_0_1_0001#8, 0x23#8, 0x45#8] =
    .ok (.sta (.f4 .simple false false false 0x12345#20), []) := by decide
theorem test_decode_stx : decode [0b000100_11#8, 0b0_0_1_0_0000#8, 0x0D#8] =
    .ok (.stx (.f3 .simple false false true 0x00D#12), []) := by decide
theorem test_decode_stl : decode [0b000101_11#8, 0b0_1_0_0_0000#8, 0x10#8] =
    .ok (.stl (.f3 .simple false true false 0x010#12), []) := by decide
theorem test_decode_add : decode [0b000110_01#8, 0b0_0_0_0_0000#8, 0x01#8] =
    .ok (.add (.f3 .immediate false false false 0x001#12), []) := by decide
theorem test_decode_sub : decode [0b000111_11#8, 0b0_0_0_0_0000#8, 0x30#8] =
    .ok (.sub (.f3 .simple false false false 0x030#12), []) := by decide
theorem test_decode_mul : decode [0b001000_01#8, 0b0_0_0_0_1111#8, 0xFF#8] =
    .ok (.mul (.f3 .immediate false false false 0xFFF#12), []) := by decide
theorem test_decode_div : decode [0b001001_00#8, 0b1_0000000#8, 0x30#8] =
    .ok (.div (.sic true 0x0030#15), []) := by decide
theorem test_decode_comp : decode [0b001010_01#8, 0b0_0_0_0_0000#8, 0x05#8] =
    .ok (.comp (.f3 .immediate false false false 0x005#12), []) := by decide
theorem test_decode_tix : decode [0b001011_11#8, 0b0_0_0_0_0000#8, 0x50#8] =
    .ok (.tix (.f3 .simple false false false 0x050#12), []) := by decide
theorem test_decode_jeq : decode [0b001100_11#8, 0b0_0_1_0_0000#8, 0x03#8] =
    .ok (.jeq (.f3 .simple false false true 0x003#12), []) := by decide
theorem test_decode_jgt : decode [0b001101_10#8, 0b0_0_1_0_0000#8, 0x03#8] =
    .ok (.jgt (.f3 .indirect false false true 0x003#12), []) := by decide
theorem test_decode_jlt : decode [0b001110_11#8, 0b0_0_1_0_1111#8, 0xFA#8] =
    .ok (.jlt (.f3 .simple false false true 0xFFA#12), []) := by decide
theorem test_decode_j : decode [0b001111_11#8, 0b1_0_0_0_0000#8, 0x10#8] =
    .ok (.j (.f3 .simple true false false 0x010#12), []) := by decide
theorem test_decode_and : decode [0b010000_00#8, 0b0_0010000#8, 0x1E#8] =
    .ok (.and (.sic false 0x101E#15 ), []) := by decide
theorem test_decode_or : decode [0b010001_11#8, 0b1_1_0_0_0000#8, 0x30#8] =
    .ok (.or (.f3 .simple true true false 0x030#12), []) := by decide
theorem test_decode_jsub : decode [0b010010_11#8, 0b0_0_0_1_0000#8, 0x01#8, 0x00#8] =
    .ok (.jsub (.f4 .simple false false false 0x00100#20), []) := by decide
theorem test_decode_rsub : decode [0b010011_01#8, 0b1_0_0_1_0000#8, 0x00#8, 0x00#8] =
    .ok (.rsub (.f4 .immediate true false false 0x00000#20), []) := by decide
theorem test_decode_ldch : decode [0b010100_11#8, 0b1_0_0_0_0001#8, 0x00#8] =
    .ok (.ldch (.f3 .simple true false false 0x100#12), []) := by decide
theorem test_decode_stch : decode [0b010101_00#8, 0b0_0010000#8, 0x00#8] =
    .ok (.stch (.sic false 0x1000#15), []) := by decide
theorem test_decode_rd : decode [0b110110_11#8, 0b0_0_0_0_0000#8, 0x40#8] =
    .ok (.rd (.f3 .simple false false false 0x040#12), []) := by decide
theorem test_decode_wd : decode [0b110111_11#8, 0b0_0_0_0_0000#8, 0x41#8] =
    .ok (.wd (.f3 .simple false false false 0x041#12), []) := by decide
theorem test_decode_td : decode [0b111000_11#8, 0b0_0_0_0_0000#8, 0x40#8] =
    .ok (.td (.f3 .simple false false false 0x040#12), []) := by decide
theorem test_decode_stsw : decode [0b111010_11#8, 0b0_0_0_0_0001#8, 0x00#8] =
    .ok (.stsw (.f3 .simple false false false 0x100#12), []) := by decide

/-- S2: every opcode ends in 00, and no two mnemonics share one. -/
theorem test_opcodes :
    (Mnemonic.all.all fun m => m.opcode.extractLsb' 0 2 == 0#2) = true ∧
    (Mnemonic.all.map Mnemonic.opcode).Nodup := by decide

/-- R81: 26 of the 64 values of the field `op` are assigned. -/
theorem test_assigned_opcodes :
    ((List.range 64).filter fun k => (Mnemonic.ofByte? (BitVec.ofNat 8 (4 * k))).isSome).length = 26 := by
  decide

/-- The source's marks C and P (R80). -/
theorem test_marks :
    Mnemonic.all.filter Mnemonic.setsCC = [.comp, .tix, .td] ∧
    Mnemonic.all.filter Mnemonic.privileged = [.rd, .wd, .td, .stsw] := by decide

theorem test_decode_rejects :
    decode [] = .error .noByte ∧ decode [0xB4#8, 0x10#8] = .error (.unassignedOpcode 0xB4#8) ∧
    decode [0x03#8, 0x00#8] = .error (.tooShort .lda) ∧
    decode [0x03#8, 0x10#8, 0x00#8] = .error (.tooShort .lda) := by decide

/-- R83: table words of the three forms, numbered as the table numbers them. -/
theorem test_table_words :
    decodeTableWord 24 0x180000 = some (.add (.sic false 0#15)) ∧
    decodeTableWord 24 0x1B0000 = some (.add (.f3 .simple false false false 0#12)) ∧
    decodeTableWord 32 0x1B100000 = some (.add (.f4 .simple false false false 0#20)) ∧
    decodeTableWord 24 0xFC0000 = none := by decide

/-- R10, R24, R63: register numbers of Format 2, and the numbers that name none. -/
theorem test_register_numbers :
    (List.range 16).map (fun k => Reg.ofNumber? (BitVec.ofNat 4 k)) =
      [some .a, some .x, some .l, some .b, some .s, some .t, some .f, none, some .pc, some .sw,
       none, none, none, none, none, none] := by decide

/-- 93_implementation_defined.md section 3: names of first bytes the source does not list. -/
theorem test_unlisted_names :
    unlistedName 0xB4#8 = some "CLEAR" ∧ unlistedName 0x6E#8 = some "LDS" ∧
    unlistedName 0xE4#8 = none := by decide

/-! ## Well-formedness (R74) -/

/-- R74 a. -/
theorem test_illformed_base_and_pc :
    (Instr.lda (.f3 .simple false true true 0#12)).wellFormed = false := by decide
/-- R74 b. -/
theorem test_illformed_format4_relative :
    (Instr.lda (.f4 .simple false false true 0#20)).wellFormed = false ∧
    (Instr.lda (.f4 .simple false true false 0#20)).wellFormed = false := by decide
/-- R74 c. -/
theorem test_illformed_indexed_not_simple :
    (Instr.lda (.f3 .immediate true false false 5#12)).wellFormed = false ∧
    (Instr.lda (.f3 .indirect true false false 5#12)).wellFormed = false := by decide
/-- R74 d. -/
theorem test_illformed_immediate_location :
    (Instr.sta (.f3 .immediate false false false 5#12)).wellFormed = false ∧
    (Instr.j (.f4 .immediate false false false 5#20)).wellFormed = false := by decide
/-- R74: the SIC form is never illegal, and RSUB is exempt. -/
theorem test_wellformed :
    (Instr.sta (.sic true 0x7FFF#15)).wellFormed = true ∧
    (Instr.rsub (.f4 .immediate true true true 0#20)).wellFormed = true ∧
    (Instr.lda (.f3 .simple true true false 0#12)).wellFormed = true := by decide

/-! ## Target addresses and operands -/

/-- S1: the rows of the source's two tables, and Format 4. -/
theorem test_target_addresses :
    ([.f3 .simple false true false 0x010#12, .f3 .simple false false true 0x010#12,
      .f3 .simple false false true 0xFF0#12, .f3 .simple false false false 0x010#12,
      .f3 .simple true true false 0x010#12, .f3 .simple true false true 0x010#12,
      .f3 .simple true false false 0x010#12, .f4 .simple false false false 0x01234#20].map fun o =>
      State.resolveTarget (setB 0x2000#24 (code [] (blank.setX 4#24))) .lda o) =
    [.ok 0x002010#24, .ok 0x000113#24, .ok 0x0000F3#24, .ok 0x000010#24, .ok 0x002014#24,
     .ok 0x000117#24, .ok 0x000014#24, .ok 0x001234#24] := by decide

/-- E9 and E21: the pointer is used with all its 24 bits. -/
theorem test_indirect :
    look State.rA (code [0x02#8, 0x03#8, 0x00#8] (bytesFrom 0x300 [0x00#8, 0x04#8, 0x00#8]
      (bytesFrom 0x400 [0x77#8, 0x77#8, 0x77#8] blank))) = some (0x777777#24, 0x103#24, .running) ∧
    faulted (code [0x02#8, 0x03#8, 0x00#8] (bytesFrom 0x300 [0x10#8, 0x00#8, 0x00#8] blank)) =
      some (.faulted (.addressFault .read 0x100000) 0x100#24, true) := by
  decide

/-- E14, E17, E23: illegal flags and an unassigned opcode. -/
theorem test_illegal_instructions :
    faulted (code [0x03#8, 0x30#8, 0x00#8, 0x00#8] blank) =
      some (.faulted (.illegalInstruction [0x03#8, 0x30#8]) 0x100#24, true) ∧
    faulted (code [0xB4#8] blank) = some (.faulted (.illegalInstruction [0xB4#8]) 0x100#24, true) ∧
    faulted (code [0x02#8, 0x80#8, 0x05#8] (blank.setX 0#24)) =
      some (.faulted (.illegalInstruction [0x02#8, 0x80#8]) 0x100#24, true) := by
  decide

/-- E18, E26: the end of memory. -/
theorem test_fetch_over_the_top :
    faulted (bytesFrom 0xFFFFE [0x03#8, 0x00#8] { blank with pc := 0xFFFFE#24 }) =
      some (.faulted (.addressFault .fetch 0x100000) 0xFFFFE#24, true) ∧
    faulted (bytesFrom 0xFFFFD [0x03#8, 0x10#8, 0x00#8] { blank with pc := 0xFFFFD#24 }) =
      some (.faulted (.addressFault .fetch 0x100000) 0xFFFFD#24, true) := by
  decide

/-! ## Loads and stores -/

/-- E4: B and X in one sum that wraps. -/
theorem test_lda : look State.rA (code [0x03#8, 0xC0#8, 0x10#8]
    (bytesFrom 0x200F [0x00#8, 0x00#8, 0xAA#8] (setB 0x2000#24 (blank.setX 0xFFFFFF#24)))) =
    some (0x0000AA#24, 0x103#24, .running) := by decide
/-- E5, E6: the top of memory. -/
theorem test_lda_top :
    look State.rA (code [0x03#8, 0x1F#8, 0xFF#8, 0xFD#8]
      (bytesFrom 0xFFFFD [0x01#8, 0x02#8, 0x03#8] blank)) = some (0x010203#24, 0x104#24, .running) ∧
    faulted (code [0x03#8, 0x1F#8, 0xFF#8, 0xFE#8] (bytesFrom 0xFFFFE [0x01#8, 0x02#8] blank)) =
      some (.faulted (.addressFault .read 0xFFFFE) 0x100#24, true) := by
  decide
/-- LS1. -/
theorem test_ldx : look State.rX (code [0x07#8, 0x00#8, 0x30#8]
    (bytesFrom 0x30 [0xFF#8, 0xFF#8, 0xFE#8] blank)) = some (0xFFFFFE#24, 0x103#24, .running) := by decide
/-- R102: the instruction's own x bit uses the old X. -/
theorem test_ldx_indexed_by_itself : look State.rX (code [0x07#8, 0x80#8, 0x30#8]
    (bytesFrom 0x32 [0x00#8, 0x00#8, 0x09#8] (blank.setX 2#24))) =
    some (0x000009#24, 0x103#24, .running) := by decide
/-- LS2. -/
theorem test_ldl : look State.rL (code [0x0B#8, 0x00#8, 0x30#8]
    (bytesFrom 0x30 [0x00#8, 0x01#8, 0x23#8] blank)) = some (0x000123#24, 0x103#24, .running) := by decide
/-- LS3, LS4. -/
theorem test_ldch :
    look State.rA (code [0x53#8, 0x00#8, 0x30#8] (bytesFrom 0x30 [0x7E#8] (blank.setA 0xAABBCC#24))) =
      some (0xAABB7E#24, 0x103#24, .running) ∧
    look State.rA (code [0x51#8, 0x01#8, 0x41#8] (blank.setA 0xAABBCC#24)) =
      some (0xAABB41#24, 0x103#24, .running) := by decide
/-- LS5. -/
theorem test_ldch_uninitialized :
    faulted (code [0x53#8, 0x00#8, 0x30#8] (bytesFrom 0x30 [0x7E#8] blank)) =
      some (.faulted (.uninitializedRead (.register .a)) 0x100#24, true) := by
  decide
/-- LS8. -/
theorem test_sta_indirect : look (wordIn 0x500) (code [0x0E#8, 0x00#8, 0x30#8]
    (bytesFrom 0x30 [0x00#8, 0x05#8, 0x00#8] (blank.setA 0x123456#24))) =
    some ([some 0x12#8, some 0x34#8, some 0x56#8], 0x103#24, .running) := by decide
/-- LS9. -/
theorem test_sta_outside : faulted (code [0x0F#8, 0x1F#8, 0xFF#8, 0xFE#8] (blank.setA 0x123456#24)) =
    some (.faulted (.addressFault .write 0xFFFFE) 0x100#24, true) := by
  decide
/-- LS11. -/
theorem test_stx : look (wordIn 0x36) (code [0x13#8, 0x80#8, 0x30#8] (blank.setX 6#24)) =
    some ([some 0x00#8, some 0x00#8, some 0x06#8], 0x103#24, .running) := by decide
/-- LS12. -/
theorem test_stl : look (wordIn 0x30) (code [0x17#8, 0x00#8, 0x30#8] blank) =
    some ([some 0xFF#8, some 0xFF#8, some 0xFF#8], 0x103#24, .running) := by decide
/-- LS10. -/
theorem test_stch : look (wordIn 0xFFFFE) (code [0x57#8, 0x1F#8, 0xFF#8, 0xFF#8]
    (blank.setA 0x123456#24)) = some ([none, some 0x56#8, none], 0x104#24, .running) := by decide
/-- LS13: an instruction that overwrites itself; the next fetch there sees RSUB. -/
theorem test_sta_own_bytes :
    (after (step (code [0x0F#8, 0x2F#8, 0xFD#8] (blank.setA 0x4F0000#24)))).map
      (fun t => ({ t with pc := 0x100#24 } : State).fetchInstr) =
    some (.ok (.rsub (.f3 .simple false false false 0#12))) := by decide

/-! ## Arithmetic and logic -/

/-- A1, A2. -/
theorem test_add :
    look State.rA (code [0x19#8, 0x00#8, 0x01#8] (blank.setA 0x7FFFFF#24)) =
      some (0x800000#24, 0x103#24, .running) ∧
    look State.rA (code [0x19#8, 0x00#8, 0x01#8] (blank.setA 0xFFFFFF#24)) =
      some (0x000000#24, 0x103#24, .running) := by decide
/-- A21. -/
theorem test_add_uninitialized : faulted (code [0x19#8, 0x00#8, 0x01#8] blank) =
    some (.faulted (.uninitializedRead (.register .a)) 0x100#24, true) := by
  decide
/-- A4, A6. -/
theorem test_sub :
    look State.rA (code [0x1D#8, 0x00#8, 0x01#8] (blank.setA 0#24)) =
      some (0xFFFFFF#24, 0x103#24, .running) ∧
    look State.rA (code [0x1F#8, 0x00#8, 0x30#8]
      (bytesFrom 0x30 [0xFF#8, 0xFF#8, 0xFD#8] (blank.setA 5#24))) =
      some (0x000008#24, 0x103#24, .running) := by decide
/-- A7, A8, A9. -/
theorem test_mul :
    look State.rA (code [0x21#8, 0x0F#8, 0xFF#8] (blank.setA 0x001000#24)) =
      some (0xFFF000#24, 0x103#24, .running) ∧
    mulWords 0xFFFFFD#24 0x000007#24 = 0xFFFFEB#24 ∧ mulWords 0x800000#24 0xFFFFFF#24 = 0x800000#24 := by
  decide
/-- A11, A13. -/
theorem test_div :
    look State.rA (code [0x25#8, 0x00#8, 0x02#8] (blank.setA 0xFFFFF9#24)) =
      some (0xFFFFFD#24, 0x103#24, .running) ∧
    look State.rA (code [0x27#8, 0x00#8, 0x30#8]
      (bytesFrom 0x30 [0xFF#8, 0xFF#8, 0xFE#8] (blank.setA 0xFFFFF9#24))) =
      some (0x000003#24, 0x103#24, .running) := by decide
/-- A14. -/
theorem test_div_by_zero : faulted (code [0x25#8, 0x00#8, 0x00#8] (blank.setA 7#24)) =
    some (.faulted .divideByZero 0x100#24, true) := by
  decide
/-- A18. -/
theorem test_and : look State.rA (code [0x43#8, 0x00#8, 0x30#8]
    (bytesFrom 0x30 [0x0F#8, 0xF0#8, 0x0F#8] (blank.setA 0xF0F0F0#24))) =
    some (0x00F000#24, 0x103#24, .running) := by decide
/-- A19. -/
theorem test_or : look State.rA (code [0x45#8, 0x00#8, 0x0F#8] (blank.setA 0xF0F000#24)) =
    some (0xF0F00F#24, 0x103#24, .running) := by decide

/-! ## Compare and jump -/

/-- CJ1, CJ4, CJ5. -/
theorem test_comp :
    look State.cc (code [0x29#8, 0x00#8, 0x05#8] (blank.setA 3#24)) = some (.lt, 0x103#24, .running) ∧
    look State.cc (code [0x29#8, 0x00#8, 0x01#8] (blank.setA 0xFFFFFF#24)) =
      some (.lt, 0x103#24, .running) ∧
    look State.cc (code [0x2B#8, 0x00#8, 0x30#8]
      (bytesFrom 0x30 [0x80#8, 0x00#8, 0x00#8] (blank.setA 0x7FFFFF#24))) =
      some (.gt, 0x103#24, .running) := by decide
/-- CJ7, CJ8. -/
theorem test_tix :
    look (fun t => (t.rX, t.cc)) (code [0x2F#8, 0x00#8, 0x30#8]
      (bytesFrom 0x30 [0x00#8, 0x00#8, 0x00#8] (blank.setX 0xFFFFFF#24))) =
      some ((0x000000#24, .eq), 0x103#24, .running) ∧
    look (fun t => (t.rX, t.cc)) (code [0x2F#8, 0x00#8, 0x30#8]
      (bytesFrom 0x30 [0x00#8, 0x00#8, 0x00#8] (blank.setX 0x7FFFFF#24))) =
      some ((0x800000#24, .lt), 0x103#24, .running) := by decide
/-- CJ10: the target address uses the old X. -/
theorem test_tix_indexed : look (fun t => (t.rX, t.cc)) (code [0x2F#8, 0x80#8, 0x30#8]
    (bytesFrom 0x32 [0x00#8, 0x00#8, 0x09#8] (blank.setX 2#24))) =
    some ((0x000003#24, .lt), 0x103#24, .running) := by decide
/-- CJ11, CJ12, E20. -/
theorem test_j :
    look State.rL (code [0x3F#8, 0x2F#8, 0xFD#8] blank) = some (0xFFFFFF#24, 0x100#24, .running) ∧
    look State.rL (code [0x3E#8, 0x00#8, 0x30#8] (bytesFrom 0x30 [0x00#8, 0x04#8, 0x56#8] blank)) =
      some (0xFFFFFF#24, 0x456#24, .running) ∧
    look State.rL (code [0x3F#8, 0x80#8, 0x10#8] (blank.setX 0xFFFFF0#24)) =
      some (0xFFFFFF#24, 0x000#24, .running) := by decide
/-- CJ14, CJ15. -/
theorem test_jeq :
    look State.cc (code [0x33#8, 0x20#8, 0x03#8] (blank.setCC .eq)) = some (.eq, 0x106#24, .running) ∧
    look State.cc (code [0x33#8, 0x20#8, 0x03#8] (blank.setCC .lt)) = some (.lt, 0x103#24, .running) := by
  decide
/-- CJ20, CJ21. -/
theorem test_jeq_faults :
    faulted (code [0x33#8, 0x20#8, 0x03#8] blank) =
      some (.faulted (.uninitializedRead .conditionCode) 0x100#24, true) ∧
    faulted (code [0x32#8, 0x1F#8, 0xFF#8, 0xFE#8] (blank.setCC .gt)) =
      some (.faulted (.addressFault .read 0xFFFFE) 0x100#24, true) := by
  decide
/-- CJ16, CJ17. -/
theorem test_jgt :
    look State.cc (code [0x37#8, 0x20#8, 0x03#8] (blank.setCC .gt)) = some (.gt, 0x106#24, .running) ∧
    look State.cc (code [0x37#8, 0x20#8, 0x03#8] (blank.setCC .eq)) = some (.eq, 0x103#24, .running) := by
  decide
/-- CJ18, CJ19: JLT is not JGT. -/
theorem test_jlt :
    look State.cc (code [0x3B#8, 0x20#8, 0x03#8] (blank.setCC .lt)) = some (.lt, 0x106#24, .running) ∧
    look State.cc (code [0x3B#8, 0x20#8, 0x03#8] (blank.setCC .gt)) = some (.gt, 0x103#24, .running) := by
  decide
/-- CJ22, CJ23. -/
theorem test_jsub :
    look State.rL (code [0x4B#8, 0x20#8, 0x10#8] blank) = some (0x103#24, 0x113#24, .running) ∧
    look State.rL (code [0x4B#8, 0x10#8, 0x02#8, 0x00#8] blank) = some (0x104#24, 0x200#24, .running) := by
  decide
/-- CJ26, E24, E25. -/
theorem test_rsub :
    look State.rL (code [0x4C#8, 0x00#8, 0x00#8] (blank.setL 0x104#24)) =
      some (0x104#24, 0x104#24, .running) ∧
    look State.rL (code [0x4F#8, 0xE0#8, 0x00#8] (blank.setL 0x200#24)) =
      some (0x200#24, 0x200#24, .running) ∧
    look State.rL (code [0x4D#8, 0x90#8, 0x00#8, 0x00#8] (blank.setL 0x200#24)) =
      some (0x200#24, 0x200#24, .running) := by decide

/-! ## Devices and the status word -/

/-- The devices of 95_test_vectors.md section 2.5. -/
def withDevices (s : State) : State :=
  { s with testAnswers := [(0xF1#8, true), (0x05#8, false)], readAnswers := [(0xF1#8, 0x41#8)] }

/-- IO1, IO2. -/
theorem test_td :
    look (fun t => (t.cc, t.isReady 0xF1#8, t.deviceLog)) (code [0xE3#8, 0x00#8, 0x30#8]
      (bytesFrom 0x30 [0xF1#8] (withDevices blank))) =
      some ((.lt, true, [.tested 0xF1#8 true]), 0x103#24, .running) ∧
    look (fun t => (t.cc, t.isReady 0x05#8, t.deviceLog)) (code [0xE3#8, 0x00#8, 0x30#8]
      (bytesFrom 0x30 [0x05#8] ((withDevices blank).setReady 0x05#8 true))) =
      some ((.eq, false, [.tested 0x05#8 false]), 0x103#24, .running) := by decide
/-- IO3. -/
theorem test_td_immediate :
    look (fun t => (t.cc, t.isReady 0xF1#8)) (code [0xE1#8, 0x00#8, 0xF1#8] (withDevices blank)) =
      some ((.lt, true), 0x103#24, .running) := by decide
/-- IO4. -/
theorem test_rd :
    look (fun t => (t.rA, t.isReady 0xF1#8, t.deviceLog)) (code [0xDB#8, 0x00#8, 0x30#8]
      (bytesFrom 0x30 [0xF1#8] (((withDevices blank).setA 0x123400#24).setReady 0xF1#8 true))) =
      some ((0x123441#24, false, [.read 0xF1#8 0x41#8]), 0x103#24, .running) := by decide
/-- IO5, IO12: the latch; flags are checked before privilege. -/
theorem test_rd_faults :
    faulted (code [0xDB#8, 0x00#8, 0x30#8] (bytesFrom 0x30 [0xF1#8] (blank.setA 0x123400#24))) =
      some (.faulted (.deviceNotReady 0xF1#8) 0x100#24, true) ∧
    faulted (code [0xDB#8, 0x60#8, 0x30#8] (inUserMode blank)) =
      some (.faulted (.illegalInstruction [0xDB#8, 0x60#8]) 0x100#24, true) := by
  decide
/-- IO6. -/
theorem test_wd :
    look (fun t => (t.rA, t.isReady 0x05#8, t.out 0x05#8)) (code [0xDF#8, 0x00#8, 0x30#8]
      (bytesFrom 0x30 [0x05#8] ((blank.setA 0x123456#24).setReady 0x05#8 true))) =
      some ((0x123456#24, false, [0x56#8]), 0x103#24, .running) := by decide
/-- IO7. -/
theorem test_wd_not_ready :
    faulted (code [0xDF#8, 0x00#8, 0x30#8] (bytesFrom 0x30 [0x05#8] (blank.setA 0x123456#24))) =
      some (.faulted (.deviceNotReady 0x05#8) 0x100#24, true) := by
  decide
/-- IO9: the three bytes of the open parameter `SW_IMAGE`. -/
theorem test_stsw :
    (after (exec (.stsw (.f3 .simple false false false 0x030#12)) (blank.setCC .lt))).map (wordIn 0x30) =
      some ((wordBytes (Config.swImage .lt .supervisor)).map some) := rfl
/-- IO10, IO11. -/
theorem test_stsw_faults :
    faulted (code [0xEB#8, 0x00#8, 0x30#8] (inUserMode (blank.setCC .lt))) =
      some (.faulted (.privilegeViolation .stsw) 0x100#24, true) ∧
    faulted (code [0xE9#8, 0x00#8, 0x30#8] (blank.setCC .lt)) =
      some (.faulted (.illegalInstruction [0xE9#8, 0x00#8]) 0x100#24, true) := by
  decide
/-- IO8, IO13: user mode. -/
theorem test_user_mode :
    faulted (code [0xE3#8, 0x00#8, 0x30#8] (inUserMode (withDevices blank))) =
      some (.faulted (.privilegeViolation .td) 0x100#24, true) ∧
    look State.rA (code [0x1B#8, 0x00#8, 0x30#8]
      (bytesFrom 0x30 [0x00#8, 0x00#8, 0x02#8] (inUserMode (blank.setA 1#24)))) =
      some (0x000003#24, 0x103#24, .running) := by
  decide

/-! ## Launch, end of run, reset -/

/-- X1's object program, from its records. -/
theorem test_records : ObjectProgram.ofColumns? [columns "HT     000000000003",
    columns "T000000034F0000", columns "E000000"] =
    some ⟨columns "T     ", 0#24, 3#24, [⟨0#24, [0x4F#8, 0x00#8, 0x00#8]⟩], 0#24⟩ := by decide

/-- X1's object program with an entry address. -/
def programX (entry : Word) : ObjectProgram :=
  ⟨columns "T     ", 0#24, 3#24, [⟨0#24, [0x4F#8, 0x00#8, 0x00#8]⟩], entry⟩

/-- The launch of a program with nothing stated. -/
def launched (p : ObjectProgram) (exitAddr : Word) : Option State :=
  (launch p exitAddr .supervisor .fault Stated.nothing).toOption

/-- X1: the launch, then RSUB to `EXIT_ADDR`. -/
theorem test_launch :
    (launched (programX 0#24) 0xFFFFFF#24).map (fun s => (wordIn 0 s, s.pc, s.rL, s.known.a)) =
      some ([some 0x4F#8, some 0x00#8, some 0x00#8], 0#24, 0xFFFFFF#24, false) ∧
    (launched (programX 0#24) 0xFFFFFF#24).map (look State.exitAddr) =
      some (some (0xFFFFFF#24, 0xFFFFFF#24, .running)) := by decide
/-- X1: a finished run shows A, X and CC as unspecified (R221), here of the launch. -/
theorem test_observe_unspecified :
    (launched (programX 0#24) 0xFFFFFF#24).map (fun s =>
        ((observe s).a, (observe s).x, (observe s).cc, (observe s).l)) =
      some (none, none, none, some 0xFFFFFF#24) := by decide
/-- X2: a fetch of a byte nothing has given. -/
theorem test_fetch_unspecified : (launched (programX 3#24) 0xFFFFFF#24).map faulted =
    some (some (.faulted (.uninitializedRead (.memoryByte 3)) 3#24, true)) := by
  decide
/-- X3: `ENTRY = EXIT_ADDR`. -/
theorem test_exit_at_once : (launched (programX 0#24) 0#24).map faulted =
    some (some (.exited, true)) := by
  decide
/-- X4: a Text byte outside the Header's range. -/
theorem test_launch_refused :
    launch { programX 0#24 with length := 2#24 } 0xFFFFFF#24 .supervisor .fault Stated.nothing =
      .error .textOutsideHeader := rfl
/-- R211: a Header's range that ends beyond memory. -/
theorem test_launch_beyond_memory :
    launch { programX 0#24 with start := 0xFFFFE#24 } 0xFFFFFF#24 .supervisor .fault Stated.nothing =
      .error .headerOutsideMemory := rfl
/-- R212: of two records for one address the later stays. -/
theorem test_later_record_wins :
    Memory.place [] (ObjectProgram.cells ⟨[], 0#24, 2#24, [⟨0#24, [1#8, 2#8]⟩, ⟨1#24, [3#8]⟩], 0#24⟩) =
      [(0, 1#8), (1, 3#8)] := by decide

/-- X6: there is no step from a machine that has stopped. -/
theorem test_stopped :
    step { blank with status := .exited } = .fault .runOver ∧
    step { blank with status := .faulted .divideByZero 5#24 } = .fault (.stopped .divideByZero 5#24) :=
  ⟨rfl, rfl⟩

/-- Reset: what the spec gives, and memory in its canonical form. -/
theorem test_reset :
    State.reset.status = .running ∧ State.reset.rL = State.reset.exitAddr ∧
    (∀ d, State.reset.isReady d = false) ∧ Memory.wf State.reset.mem := by
  refine ⟨rfl, rfl, ?_, by decide⟩
  decide

/-- A table word placed where the reset machine fetches is the first instruction to run. -/
theorem test_withFetchWord :
    look State.rA (State.reset.withFetchWord 24 0x010005) = some (0x000005#24, 3#24, .running) ∧
    look State.rA (State.reset.withFetchWord 32 0x01110005) = some (0x010005#24, 4#24, .running) := by
  decide

/-! ## The assembler -/

/-- The statements of P1 from its WORD on, with a BYTE before it, under a START. -/
theorem test_assembler_data :
    assemble
      [⟨some "BYTSUM", .directive (.start (columns "BYTSUM") 0x1E)⟩,
       ⟨some "TABLE", .directive (.byte (.hex [(0x0#4, 0x1#4), (0x7#4, 0xF#4), (0x8#4, 0x0#4),
         (0xF#4, 0xF#4)]))⟩,
       ⟨some "COUNT", .directive (.word 4)⟩,
       ⟨some "TOTAL", .directive (.resw 1)⟩,
       ⟨none, .directive (.end_ none)⟩] =
    ⟨columns "BYTSUM", 0x1E#24, 0xA#24,
     [⟨0x1E#24, [0x01#8, 0x7F#8, 0x80#8, 0xFF#8]⟩, ⟨0x22#24, [0x00#8, 0x00#8, 0x04#8]⟩], 0x1E#24⟩ := by
  decide

/-- R86, R88: EQU, ORG and a literal pool; the entry is the first executable instruction. -/
theorem test_assembler_symbols :
    let st := List.foldl Line.apply Assembly.empty
      [⟨none, .directive (.start [] 0x1000)⟩,
       ⟨some "MAX", .directive (.equ 7)⟩,
       ⟨none, .directive (.resb 2)⟩,
       ⟨some "FIRST", .instr (.lda (.sic false 0x1008#15)) [[0xAA#8]]⟩,
       ⟨none, .directive (.org 0x1008)⟩,
       ⟨some "POOL", .directive .ltorg⟩]
    (st.symtab, st.locctr, st.object.entry, st.object.texts) =
      ([("MAX", 7), ("FIRST", 0x1002), ("POOL", 0x1008)], 0x1009, 0x1002#24,
       [⟨0x1002#24, [0x00#8, 0x10#8, 0x08#8]⟩, ⟨0x1008#24, [0xAA#8]⟩]) := by decide

/-- P1's source. -/
def sourceP1 : List String :=
  ["BYTSUM  START  0", "        LDX    #0", "        LDA    #0", "        STA    TOTAL",
   "LOOP    LDA    #0", "        LDCH   TABLE,X", "        ADD    TOTAL", "        STA    TOTAL",
   "        TIX    COUNT", "        JLT    LOOP", "        RSUB", "TABLE   BYTE   X'017F80FF'",
   "COUNT   WORD   4", "TOTAL   RESW   1", "        END    BYTSUM"]

/-- P1: the source assembles to its bytes, from address 0 up, and its entry. -/
theorem test_assemble_P1 :
    (assembleText ⟨false, none⟩ sourceP1).map (fun p => (p.texts.flatMap TextRecord.code, p.entry)) =
      some ([0x05#8, 0x00#8, 0x00#8, 0x01#8, 0x00#8, 0x00#8, 0x0F#8, 0x20#8, 0x1C#8, 0x01#8, 0x00#8,
        0x00#8, 0x53#8, 0xA0#8, 0x0F#8, 0x1B#8, 0x20#8, 0x13#8, 0x0F#8, 0x20#8, 0x10#8, 0x2F#8,
        0x20#8, 0x0A#8, 0x3B#8, 0x2F#8, 0xEE#8, 0x4F#8, 0x00#8, 0x00#8, 0x01#8, 0x7F#8, 0x80#8,
        0xFF#8, 0x00#8, 0x00#8, 0x04#8], 0#24) := by decide

/-- Lines of P2 and P4: `+`, `@`, the standard-SIC form, `,X` and character constants. -/
theorem test_assemble_lines :
    (SourceLine.ofText? "        +JSUB  SQR         Format 4").map SourceLine.body =
      some (.instr .jsub true (some ⟨.simple, .symbol "SQR", false⟩)) ∧
    (SourceLine.ofText? "        J      @SAVEL").map SourceLine.body =
      some (.instr .j false (some ⟨.indirect, .symbol "SAVEL", false⟩)) ∧
    SourceLine.ofText? "SRC     BYTE   C'a c'" =
      some ⟨some "SRC", .byte (.chars [0x61#8, 0x20#8, 0x63#8])⟩ ∧
    SourceOperand.encode ⟨true, none⟩ (fun _ => some 0x1021) 0x1006 false ⟨.simple, .symbol "SRC", true⟩ =
      some (.sic true 0x1021#15) := by decide

/-- P5: a hexadecimal operand, Format 4 and `,X`; without END the entry is the first instruction. -/
theorem test_assemble_P5 :
    (assembleText ⟨false, none⟩ ["        LDX    #1", "        LDA    #42", "        +STA   0xFFFFF,X",
      "        RSUB"]).map (fun p => (p.texts.flatMap TextRecord.code, p.entry)) =
      some ([0x05#8, 0x00#8, 0x01#8, 0x01#8, 0x00#8, 0x2A#8, 0x0F#8, 0x9F#8, 0xFF#8, 0xFF#8,
        0x4F#8, 0x00#8, 0x00#8], 0#24) := by decide

/-- R86: EQU of a negative number and of a symbol of a later line, ORG to a symbol of a later line. -/
theorem test_symbol_table :
    (["P       START  1000", "K       EQU    -5", "M       EQU    N", "        ORG    N",
      "A       RESB   1", "N       EQU    0x1100"].mapM SourceLine.ofText?).map symbolTable =
      some [("P", 0x1000), ("K", -5), ("M", 0x1100), ("A", 0x1100), ("N", 0x1100)] := by decide

/-- A symbol defined by itself, not at all or twice gives no object program (log 28). -/
theorem test_symbols_refused :
    assembleText ⟨false, none⟩ ["A       EQU    A"] = none ∧
    assembleText ⟨false, none⟩ ["        J      NOWHERE"] = none ∧
    assembleText ⟨false, none⟩ ["A       RESB   1", "A       RESB   1"] = none := by decide

/-- R85: END ends the source program; what stands after it is not read. -/
theorem test_end_ends_the_program :
    assemble [⟨none, .directive (.word 5)⟩, ⟨none, .directive (.end_ none)⟩,
      ⟨some "AFTER", .directive (.word 6)⟩] =
      assemble [⟨none, .directive (.word 5)⟩, ⟨none, .directive (.end_ none)⟩] ∧
    assembleText ⟨false, none⟩ ["        WORD   5", "        END", "        WORD   6", "        J      NOWHERE"] =
      some ⟨[], 0#24, 3#24, [⟨0#24, [0#8, 0#8, 5#8]⟩], 0#24⟩ := by decide

/-- A character without an ASCII code (log 29), an odd count of digits (log 30) and a symbol that no relative
addressing reaches (log 32) are refused. -/
theorem test_source_refused :
    SourceLine.ofText? "        WORD   İ" = none ∧
    SourceLine.ofText? "        BYTE   X'123'" = none ∧
    SourceOperand.encode ⟨false, none⟩ (fun _ => some 0) 0x1000 false ⟨.simple, .symbol "LOW", false⟩ =
      none := by decide

/-- R89: P2's Header, whose name has five characters. -/
theorem test_header_padded :
    (Record.header (columns "CALLS") 0#24 0x34#24).columns = columns "HCALLS 000000000034" ∧
    Record.ofColumns? (columns "HCALLS 000000000034") =
      some (.header (columns "CALLS ") 0#24 0x34#24) := by decide

/-- R84: base-relative where PC-relative does not reach. -/
theorem test_choice_of_relative :
    relativeOperand .simple false 0x2000 0x103 (some 0x1FF0) =
      some (.f3 .simple false true false 0x010#12) ∧
    relativeOperand .simple false 0x2000 0x103 none = none := by decide

/-- R90: a Text record holds at most 30 bytes. -/
theorem test_text_records_cut :
    (textRecords 31 0 (List.replicate 31 0xAB#8)).map (fun t => (t.start, t.code.length)) =
      [(0x00#24, 30), (0x1E#24, 1)] := by decide

/-! ## The floating-point format -/

/-- S3: the fields and the magnitudes of 401800000000 and C01800000000. -/
theorem test_float_fields :
    floatExponent 0x401800000000#48 = 1025#11 ∧ floatFraction 0x401800000000#48 = 0x800000000#36 ∧
    floatSign 0x401800000000#48 = false ∧ floatSign 0xC01800000000#48 = true ∧
    floatNormalized 0x401800000000#48 = true := by decide

/-- S3: C01800000000 is 1 with the sign bit set, negative under the presumed sign (log 14). -/
theorem test_float_value (v : Float48) (hv : v = 0xC01800000000#48) : floatValue v = -1 := by
  subst hv
  have hs : floatSign 0xC01800000000#48 = true := by decide
  have he : floatExponent 0xC01800000000#48 = 1025#11 := by decide
  have hf : floatFraction 0xC01800000000#48 = 0x800000000#36 := by decide
  norm_num [floatValue, floatMagnitude, floatFractionValue, hs, he, hf]

/-- S3: 403A00000000 is 5/8 * 2^3. -/
theorem test_float_magnitude (v : Float48) (hv : v = 0x403A00000000#48) : floatMagnitude v = 5 := by
  subst hv
  have he : floatExponent 0x403A00000000#48 = 1027#11 := by decide
  have hf : floatFraction 0x403A00000000#48 = 0xA00000000#36 := by decide
  norm_num [floatMagnitude, floatFractionValue, he, hf]

/-! ## Witnesses: what the statements with hypotheses speak of exists

`witness_<Name>` shows concrete operands and states that meet the hypotheses of `Obligations.<Name>`, each
clause at a boundary of its range where it has one. -/

/-- Bytes read back one by one are at their address. -/
theorem bytesAt_of_all {m : Memory} {a : Nat} {bytes : List Byte}
    (h : ∀ k < bytes.length, a + k < Config.memBytes ∧ Memory.read m (a + k) = bytes[k]?) :
    BytesAt m a bytes := by
  intro k b hb
  obtain ⟨hk, rfl⟩ := List.getElem?_eq_some_iff.mp hb
  obtain ⟨h1, h2⟩ := h k hk
  exact ⟨h1, by rw [h2, hb]⟩

/-- Registers with values: A = 123456, X = 3, L = 200, B = 2000, CC = EQ, at 000100; the word F10456 at 30
and a pointer to it at 40. -/
def sample : State :=
  bytesFrom 0x30 [0xF1#8, 0x04#8, 0x56#8] (bytesFrom 0x40 [0x00#8, 0x00#8, 0x30#8]
    { State.reset with
      rA := 0x123456#24, rX := 3#24, rL := 0x200#24, rB := 0x2000#24, cc := .eq, pc := 0x100#24 })

/-- The sample under `UNINIT_POLICY = draw` or `fault`, with nothing given a value. -/
def unspecified (policy : UninitPolicy) : State :=
  { sample with policy := policy, known := ⟨false, false, false, false, false, false, false, false⟩ }

/-- Simple and direct addressing of 30, immediate, and indirect through 40. -/
def at30 : Operand := .f3 .simple false false false 0x030#12
def imm30 : Operand := .f3 .immediate false false false 0x030#12
def via40 : Operand := .f3 .indirect false false false 0x040#12
/-- The last word and the last byte of memory, and the first address at which a word does not fit. -/
def lastWord : Operand := .f4 .simple false false false 0xFFFFD#20
def lastByte : Operand := .f4 .simple false false false 0xFFFFF#20
def pastWord : Operand := .f4 .simple false false false 0xFFFFE#20

theorem witness_BytesDecodedAreTheEncoding :
    decode [0x03#8, 0x01#8, 0x00#8, 0xFF#8] =
      .ok (.lda (.f3 .simple false false false 0x100#12), [0xFF#8]) := by decide

theorem witness_FormAndLengthFromFlags :
    (Mnemonic.ofByte? 0x18#8 = some .add ∧ (0x18#8).getLsbD 1 = false ∧ (0x18#8).getLsbD 0 = false) ∧
    (Mnemonic.ofByte? 0x19#8 = some .add ∧ (0x19#8).getLsbD 0 = true ∧ (0x00#8).getLsbD 4 = false) ∧
    (Mnemonic.ofByte? 0x1A#8 = some .add ∧ (0x1A#8).getLsbD 1 = true ∧ (0x10#8).getLsbD 4 = true) := by
  decide

theorem witness_UnassignedOpcodeRaisesOnFirstByte :
    let s := bytesFrom 0xFFFFF [0x5B#8] { sample with pc := 0xFFFFF#24 }
    s.status = .running ∧ s.pc ≠ s.exitAddr ∧ BytesAt s.mem s.pc.toNat [0x5B#8] ∧
      ∀ m : Mnemonic, m.opcode.extractLsb' 2 6 ≠ (0x5B#8).extractLsb' 2 6 := by
  refine ⟨rfl, by decide, bytesAt_of_all (by decide), fun m => ?_⟩
  cases m <;> decide

theorem witness_IllegalFlagCombinations :
    Mnemonic.lda ≠ .rsub ∧ (Instr.lda (.f3 .simple false true true 0#12)).wellFormed = false ∧
    (Instr.stsw (.f4 .immediate false false false 0#20)).wellFormed = false := by decide

theorem witness_StepRunsTheDecodedInstruction :
    let s := bytesFrom 0xFFFFD [0x01#8, 0x00#8, 0x05#8] { sample with pc := 0xFFFFD#24 }
    s.status = .running ∧ s.pc ≠ s.exitAddr ∧
      BytesAt s.mem s.pc.toNat [0x01#8, 0x00#8, 0x05#8] ∧
      decode [0x01#8, 0x00#8, 0x05#8] = .ok (.lda (.f3 .immediate false false false 5#12), []) ∧
      (Instr.lda (.f3 .immediate false false false 5#12)).wellFormed = true := by
  exact ⟨rfl, by decide, bytesAt_of_all (by decide), by decide, by decide⟩

theorem witness_RunEndsAtExitAddressOnly :
    ∃ t, step { sample with pc := sample.exitAddr } = .next t ∧ t.status = .exited := ⟨_, rfl, rfl⟩

theorem witness_ExactlyRunningMachinesStep :
    sample.status = .running ∧ ({ sample with status := .exited } : State).status = .exited ∧
    ({ sample with status := .faulted .divideByZero 0#24 } : State).status =
      .faulted .divideByZero 0#24 := ⟨rfl, rfl, rfl⟩

theorem witness_FaultsArePrecise :
    ∃ t c a, step (code [0x25#8, 0x00#8, 0x00#8] sample) = .next t ∧ t.status = .faulted c a :=
  ⟨_, _, _, rfl, rfl⟩

theorem witness_FetchOutsideMemoryRaises :
    (let s := { sample with pc := 0x100000#24 }
     s.status = .running ∧ s.pc ≠ s.exitAddr ∧ Config.memBytes ≤ s.pc.toNat) ∧
    (let s := bytesFrom 0xFFFFF [0x03#8] { sample with pc := 0xFFFFF#24 }
     s.status = .running ∧ s.pc ≠ s.exitAddr ∧ BytesAt s.mem s.pc.toNat [0x03#8] ∧
       decode [0x03#8] = .error (.tooShort .lda) ∧ s.pc.toNat + 1 = Config.memBytes) ∧
    (let s := bytesFrom 0xFFFFD [0x03#8, 0x10#8, 0x00#8] { sample with pc := 0xFFFFD#24 }
     BytesAt s.mem s.pc.toNat [0x03#8, 0x10#8, 0x00#8] ∧
       decode [0x03#8, 0x10#8, 0x00#8] = .error (.tooShort .lda) ∧
       s.pc.toNat + 3 = Config.memBytes) := by
  refine ⟨⟨rfl, by decide, by decide⟩,
    ⟨rfl, by decide, bytesAt_of_all (by decide), by decide, by decide⟩,
    ⟨bytesAt_of_all (by decide), by decide, by decide⟩⟩

theorem witness_NextAddressDoesNotWrap :
    State.fetchInstr (bytesFrom 0xFFFFC [0x01#8, 0x10#8, 0x00#8, 0x00#8] { sample with pc := 0xFFFFC#24 }) =
      .ok (.lda (.f4 .immediate false false false 0#20)) := by decide

theorem witness_MemoryPrimitives :
    (Config.memBytes ≤ (0x100000#24).toNat ∧ Config.memBytes ≤ (0xFFFFE#24).toNat + 2) ∧
    ((0xFFFFF#24).toNat < Config.memBytes ∧
      Memory.read (bytesFrom 0xFFFFF [7#8] sample).mem (0xFFFFF#24).toNat = some 7#8 ∧
      Memory.read sample.mem (0xFFFFF#24).toNat = none) ∧
    ((0xFFFFD#24).toNat + 2 < Config.memBytes ∧
      WordAt (bytesFrom 0xFFFFD [1#8, 2#8, 3#8] sample).mem 0xFFFFD 0x010203#24) ∧
    (let s := bytesFrom 0xFFFFD [1#8, 2#8] sample
     Memory.read s.mem ((0xFFFFD#24).toNat + 2) = none ∧
       (∀ j < 2, Memory.read s.mem ((0xFFFFD#24).toNat + j) ≠ none) ∧ s.policy = .fault ∧
       ({ s with policy := .draw } : State).policy = .draw) ∧
    Memory.read sample.mem ((0xFFFFD#24).toNat + 0) = none := by
  unfold WordAt
  decide

theorem witness_MixedWidthAccessSeesByteOrder :
    (∃ t, sample.memWriteWord 0xFFFFD#24 0xABCDEF#24 = .ok t) ∧
    WordAt sample.mem (0x30#24).toNat 0xF10456#24 ∧
    ∃ t, sample.memWriteByte (0x30#24 + 2#24) 0x99#8 = .ok t :=
  ⟨⟨_, rfl⟩, by unfold WordAt; decide, ⟨_, rfl⟩⟩

theorem witness_StoredBytesAreFetched :
    sample.status = .running ∧ sample.resolveLoc .sta lastWord = .ok 0xFFFFD#24 ∧
    sample.readReg .effect .a = .ok 0x123456#24 ∧
    ∃ t, exec (.sta lastWord) sample = .next t ∧ t.status = .running ∧
      ({ t with pc := 0xFFFFD#24 } : State).mem = t.mem ∧
      ({ t with pc := 0xFFFFD#24 } : State).pc.toNat + 2 = (0xFFFFD#24).toNat + 2 :=
  ⟨rfl, by decide, by decide, _, rfl, rfl, rfl, rfl⟩

theorem witness_TargetAddressFormulas :
    (Mnemonic.rd.privileged = true → sample.mode = .supervisor) ∧
    sample.readReg .address .x = .ok 3#24 ∧ sample.readReg .address .b = .ok 0x2000#24 ∧
    legalRelative .rd (.f4 .simple true false false 0xFFFFF#20) ≠ none ∧
    legalRelative .rd (.f3 .simple true false false 0xFFF#12) ≠ none ∧
    legalRelative .rd (.f3 .simple true true false 0xFFF#12) ≠ none ∧
    legalRelative .rd (.f3 .simple true false true 0x800#12) ≠ none ∧
    legalRelative .rd (.f3 .immediate false false true 0x800#12) ≠ none := by decide

theorem witness_OperandResolution :
    (sample.resolveTarget .lda imm30 = .ok 0x30#24 ∧ imm30.addressing = .immediate) ∧
    (sample.resolveTarget .lda at30 = .ok 0x30#24 ∧ at30.addressing = .simple ∧
      WordAt sample.mem 0x30 0xF10456#24 ∧ BytesAt sample.mem 0x30 [0xF1#8]) ∧
    (sample.resolveTarget .lda via40 = .ok 0x40#24 ∧ via40.addressing = .indirect ∧
      WordAt sample.mem 0x40 0x30#24) := by
  refine ⟨by decide, ⟨by decide, rfl, ?_, bytesAt_of_all (by decide)⟩,
    by decide, rfl, ?_⟩ <;> (unfold WordAt; decide)

/-- The clauses of `Obligations.OperandResolution` that raise: in the target address, in the operand's word
and byte, in the pointer, and in the operand behind a pointer. -/
theorem witness_OperandResolution_raises :
    (unspecified .fault).resolveTarget .lda (.f3 .simple true false false 0#12) =
      .error (.uninitializedRead (.register .x)) ∧
    (sample.resolveTarget .lda pastWord = .ok 0xFFFFE#24 ∧
      sample.memReadWord .operand 0xFFFFE#24 = .error (.addressFault .read 0xFFFFE)) ∧
    (sample.resolveTarget .lda lastByte = .ok 0xFFFFF#24 ∧
      sample.memReadByte .operand 0xFFFFF#24 = .error (.uninitializedRead (.memoryByte 0xFFFFF))) ∧
    (sample.resolveTarget .lda (.f4 .indirect false false false 0xFFFFE#20) = .ok 0xFFFFE#24 ∧
      sample.memReadWord .pointer 0xFFFFE#24 = .error (.addressFault .read 0xFFFFE)) ∧
    (WordAt sample.mem 0x30 0xF10456#24 ∧
      sample.memReadWord .operand 0xF10456#24 = .error (.addressFault .read 0xF10456) ∧
      sample.memReadByte .operand 0xF10456#24 = .error (.addressFault .read 0xF10456)) := by
  unfold WordAt
  decide

theorem witness_WordLoadsComplete :
    sample.resolveWord .lda at30 = .ok 0xF10456#24 ∧ sample.resolveWord .ldx imm30 = .ok 0x30#24 ∧
    sample.resolveWord .ldl via40 = .ok 0xF10456#24 := by decide

theorem witness_LdchReplacesTheRightmostByte :
    sample.resolveByte .ldch via40 = .ok 0xF1#8 ∧
    sample.readReg .effect .a = .ok 0x123456#24 := by decide

theorem witness_WordStoresComplete :
    (0xFFFFD#24).toNat + 2 < Config.memBytes ∧
    (sample.resolveLoc .sta lastWord = .ok 0xFFFFD#24 ∧ sample.readReg .effect .a = .ok 0x123456#24) ∧
    (sample.resolveLoc .stx lastWord = .ok 0xFFFFD#24 ∧ sample.readReg .effect .x = .ok 3#24) ∧
    (sample.resolveLoc .stl lastWord = .ok 0xFFFFD#24 ∧ sample.readReg .effect .l = .ok 0x200#24) := by
  decide

theorem witness_StchStoresOneByte :
    (0xFFFFF#24).toNat < Config.memBytes ∧ sample.resolveLoc .stch lastByte = .ok 0xFFFFF#24 ∧
    sample.readReg .effect .a = .ok 0x123456#24 := by decide

theorem witness_StoresOutsideMemoryRaise :
    Config.memBytes ≤ (0xFFFFE#24).toNat + 2 ∧
    (sample.resolveLoc .sta pastWord = .ok 0xFFFFE#24 ∧ sample.readReg .effect .a = .ok 0x123456#24) ∧
    (sample.resolveLoc .stx pastWord = .ok 0xFFFFE#24 ∧ sample.readReg .effect .x = .ok 3#24) ∧
    (sample.resolveLoc .stl pastWord = .ok 0xFFFFE#24 ∧ sample.readReg .effect .l = .ok 0x200#24) ∧
    (sample.resolveLoc .stsw pastWord = .ok 0xFFFFE#24 ∧ sample.readCC = .ok .eq) ∧
    (Config.memBytes ≤ (0x100000#24).toNat ∧
      (sample.setX 1#24).resolveLoc .stch (.f4 .simple true false false 0xFFFFF#20) =
        .ok 0x100000#24) := by decide

theorem witness_SumDifferenceProductWrap :
    sample.readReg .effect .a = .ok 0x123456#24 ∧ sample.resolveWord .add at30 = .ok 0xF10456#24 ∧
    sample.resolveWord .sub imm30 = .ok 0x30#24 ∧ sample.resolveWord .mul via40 = .ok 0xF10456#24 := by
  decide

theorem witness_ArithmeticOnBitVectors : (0xFFFFFF#24 : Word) ≠ 0#24 := by decide

theorem witness_DivRoundsTowardZero :
    sample.resolveWord .div at30 = .ok 0xF10456#24 ∧ (0xF10456#24 : Word) ≠ 0#24 ∧
    sample.readReg .effect .a = .ok 0x123456#24 := by decide

theorem witness_DivByZeroRaises :
    sample.resolveWord .div (.f3 .immediate false false false 0#12) = .ok 0#24 := by decide

theorem witness_DivisionTable :
    ((sample.setA 0xFFFFF9#24).resolveWord .div (.f3 .immediate false false false 2#12) = .ok 2#24 ∧
      (sample.setA 0xFFFFF9#24).readReg .effect .a = .ok 0xFFFFF9#24) ∧
    ((sample.setA 0#24).resolveWord .div imm30 = .ok 0x30#24 ∧
      (sample.setA 0#24).readReg .effect .a = .ok 0#24) ∧
    sample.resolveWord .div (.f3 .immediate false false false 0#12) = .ok 0#24 := by decide

theorem witness_LogicalInstructionsComplete :
    sample.readReg .effect .a = .ok 0x123456#24 ∧ sample.resolveWord .and at30 = .ok 0xF10456#24 ∧
    sample.resolveWord .or imm30 = .ok 0x30#24 := by decide

theorem witness_CompSetsSignedComparison :
    sample.resolveWord .comp at30 = .ok 0xF10456#24 ∧
    sample.readReg .effect .a = .ok 0x123456#24 := by decide

theorem witness_TixIncrementsThenCompares :
    sample.resolveWord .tix at30 = .ok 0xF10456#24 ∧ sample.readReg .effect .x = .ok 3#24 := by
  decide

theorem witness_JumpsComplete :
    sample.resolveLoc .j at30 = .ok 0x30#24 ∧ sample.resolveLoc .jsub via40 = .ok 0x30#24 ∧
    (sample.setX 0xFFFFFF#24).resolveLoc .j (.f3 .simple true false false 0#12) = .ok 0xFFFFFF#24 := by
  decide

theorem witness_RsubReturnsThroughL : sample.readReg .effect .l = .ok 0x200#24 := by decide

theorem witness_ConditionalJumpsComplete :
    sample.readCC = .ok .eq ∧ sample.resolveLoc .jeq at30 = .ok 0x30#24 ∧
    sample.resolveLoc .jgt via40 = .ok 0x30#24 ∧ sample.resolveLoc .jlt at30 = .ok 0x30#24 := by
  decide

theorem witness_ResolutionFaultsAreRaised :
    let o : Operand := .f4 .indirect false false false 0xFFFFE#20
    (Mnemonic.lda.operandClass = .word ∧
      sample.resolveWord .lda pastWord = .error (.addressFault .read 0xFFFFE)) ∧
    (Mnemonic.td.operandClass = .byte ∧
      sample.resolveByte .td lastByte = .error (.uninitializedRead (.memoryByte 0xFFFFF))) ∧
    (Mnemonic.sta.operandClass = .loc ∧
      sample.resolveLoc .sta o = .error (.addressFault .read 0xFFFFE)) ∧
    sample.resolveLoc .jeq o = .error (.addressFault .read 0xFFFFE) ∧
    sample.resolveLoc .jgt o = .error (.addressFault .read 0xFFFFE) ∧
    sample.resolveLoc .jlt o = .error (.addressFault .read 0xFFFFE) := by decide

theorem witness_TdRecordsTheAnswer :
    sample.resolveByte .td at30 = .ok 0xF1#8 ∧
    (withDevices sample).testAnswers = [] ++ (0xF1#8, true) :: [(0x05#8, false)] ∧
    (∀ e ∈ ([] : List (Byte × Bool)), e.1 ≠ 0xF1#8) ∧
    (∀ e ∈ sample.testAnswers, e.1 ≠ 0xF1#8) :=
  ⟨by decide, by decide, by simp, List.forall_mem_nil _⟩

/-- The sample with the latches of F1 and FF set. -/
def tested : State := (sample.setReady 0xF1#8 true).setReady 0xFF#8 true

theorem test_tested_latches : tested.isReady 0xF1#8 = true ∧ tested.isReady 0xFF#8 = true := by
  simp [tested, isReady_setReady]

theorem witness_RdTransfersOneByte :
    tested.resolveByte .rd at30 = .ok 0xF1#8 ∧ tested.isReady 0xF1#8 = true ∧
    tested.readReg .effect .a = .ok 0x123456#24 ∧
    (withDevices tested).readAnswers = [] ++ (0xF1#8, 0x41#8) :: [] ∧
    (∀ e ∈ tested.readAnswers, e.1 ≠ 0xF1#8) :=
  ⟨by decide, test_tested_latches.1, by decide, by decide, List.forall_mem_nil _⟩

theorem witness_WdTransfersOneByte :
    tested.resolveByte .wd (.f3 .immediate false false false 0x0FF#12) = .ok 0xFF#8 ∧
    tested.isReady 0xFF#8 = true ∧ tested.readReg .effect .a = .ok 0x123456#24 :=
  ⟨by decide, test_tested_latches.2, by decide⟩

theorem witness_TransferWithoutTestRaises :
    sample.isReady 0xF1#8 = false ∧ sample.resolveByte .rd at30 = .ok 0xF1#8 ∧
    sample.resolveByte .wd via40 = .ok 0xF1#8 := by decide

theorem witness_StswStoresTheStatusWord :
    (0xFFFFD#24).toNat + 2 < Config.memBytes ∧ sample.resolveLoc .stsw lastWord = .ok 0xFFFFD#24 ∧
    sample.readCC = .ok .eq := by decide

theorem witness_PrivilegedInstructionsInUserMode :
    (flagsLegal .stsw at30 = true ∧ (inUserMode sample).mode = .user) ∧
    (∃ t, exec (.td at30) (inUserMode sample) = .next t ∧ (inUserMode sample).status = .running ∧
      t.status = .faulted (.privilegeViolation .td) 0x100#24) ∧
    ∃ t, step (code [0x19#8, 0x00#8, 0x05#8] (inUserMode sample)) = .next t :=
  ⟨by decide, ⟨_, rfl, rfl, rfl⟩, _, rfl⟩

theorem witness_DrawPolicyNeverFaults :
    (unspecified .draw).policy = .draw ∧ (unspecified .draw).known.word .a = false ∧
    (unspecified .draw).known.cc = false ∧
    ∃ t, step (code [0x4F#8, 0x00#8, 0x00#8] (unspecified .draw)) = .next t :=
  ⟨rfl, rfl, rfl, _, rfl⟩

theorem witness_UninitializedRegistersRaise :
    let s := unspecified .fault
    s.policy = .fault ∧ s.known.a = false ∧ s.known.x = false ∧ s.known.l = false ∧
    s.known.cc = false ∧ s.resolveByte .ldch at30 = .ok 0xF1#8 ∧
    s.resolveWord .add at30 = .ok 0xF10456#24 ∧ s.resolveWord .div imm30 = .ok 0x30#24 ∧
    s.resolveWord .tix at30 = .ok 0xF10456#24 ∧
    s.resolveLoc .sta pastWord = .ok 0xFFFFE#24 ∧ s.resolveLoc .stx at30 = .ok 0x30#24 ∧
    s.resolveLoc .stl at30 = .ok 0x30#24 ∧ s.resolveLoc .jeq at30 = .ok 0x30#24 := by decide

/-- The clauses of `Obligations.UninitializedRegistersRaise` on a transfer and on the target address. -/
theorem witness_UninitializedRegistersRaise_more :
    (let s : State := { tested with known := { tested.known with a := false } }
     s.policy = .fault ∧ s.known.a = false ∧ s.resolveByte .rd at30 = .ok 0xF1#8 ∧
       s.isReady 0xF1#8 = true) ∧
    (let s : State := { sample with known := { sample.known with x := false } }
     let o : Operand := .f3 .simple true true false 0#12
     legalRelative .lda o = some .base ∧ o.indexed = true ∧ s.known.x = false ∧ s.known.b = true) ∧
    (let s : State := { sample with known := { sample.known with b := false } }
     let o : Operand := .f3 .simple true true false 0#12
     legalRelative .stsw o = some .base ∧ s.mode = .supervisor ∧ s.known.b = false ∧
       s.known.x = true) :=
  ⟨⟨rfl, rfl, by decide, test_tested_latches.1⟩, by decide, by decide⟩

theorem witness_GivenStateStaysGiven :
    (∃ t, step (code [0x25#8, 0x00#8, 0x05#8] sample) = .next t) ∧ sample.known.word .b = true ∧
    sample.known.f = true ∧ sample.known.cc = true ∧ (Memory.read sample.mem 0x30).isSome = true :=
  ⟨⟨_, rfl⟩, rfl, rfl, rfl, rfl⟩

theorem witness_NoStepChangesIdleRegistersOrMode :
    ∃ t, step (code [0x19#8, 0x00#8, 0x05#8] sample) = .next t := ⟨_, rfl⟩

theorem witness_ConditionCodeWriters :
    (∃ t, exec (.lda at30) sample = .next t) ∧
    ∃ t, sample.status = .running ∧ exec (.td at30) sample = .next t ∧ t.status = .running :=
  ⟨⟨_, rfl⟩, _, rfl, rfl, rfl⟩

theorem witness_WordRegisterWriters :
    (∃ t, exec (.tix at30) sample = .next t) ∧ (∃ t, exec (.ldch at30) sample = .next t) ∧
    sample.known.a = true := ⟨⟨_, rfl⟩, ⟨_, rfl⟩, rfl⟩

theorem witness_OnlyStoresChangeMemory : ∃ t, exec (.lda at30) sample = .next t := ⟨_, rfl⟩

theorem witness_StoresChangeOnlyTheirBytes :
    sample.resolveLoc .stch via40 = .ok 0x30#24 ∧ ∃ t, exec (Mnemonic.instr .stch via40) sample = .next t :=
  ⟨by decide, _, rfl⟩

theorem witness_OnlyDeviceInstructionsAskDevices :
    (∃ t, exec (.stsw at30) sample = .next t) ∧
    sample.status = .running ∧ sample.resolveByte .td at30 = .ok 0xF1#8 ∧
    ∃ t, exec (Mnemonic.instr .td at30) sample = .next t ∧ t.status = .running ∧ (5#8 : Byte) ≠ 0xF1#8 :=
  ⟨⟨_, rfl⟩, rfl, by decide, _, rfl, rfl, by decide⟩

theorem witness_UserModeNeverTouchesDevices :
    (inUserMode sample).mode = .user ∧
    ∃ t, step (code [0x19#8, 0x00#8, 0x05#8] (inUserMode sample)) = .next t := ⟨rfl, _, rfl⟩

theorem witness_StepKeepsMemoryCanonical :
    Memory.wf (code [0x0F#8, 0x10#8, 0xFF#8, 0x00#8] sample).mem ∧
    ∃ t, step (code [0x0F#8, 0x10#8, 0xFF#8, 0x00#8] sample) = .next t :=
  ⟨by decide, _, rfl⟩

theorem witness_StepKeepsDeviceDiscipline :
    LatchInvariant (code [0xE1#8, 0x00#8, 0xF1#8] sample) ∧
    ∃ t, step (code [0xE1#8, 0x00#8, 0xF1#8] sample) = .next t := by
  refine ⟨⟨by decide, ?_⟩, _, rfl⟩
  intro pre e post d h
  have : ([] : List DeviceEvent) = pre ++ e :: post := h
  simp at this

/-- X1's program launched with a stated byte and a stated A, at an entry that is `EXIT_ADDR`. -/
theorem witness_LaunchGivesTheSpecsState :
    ∃ s, launch (programX 0#24) 0#24 .user .draw
        { Stated.nothing with
            a := some 5#24, bytes := [(0xFFFFF, 0x77#8)], testAnswers := [(5#8, true)] } = .ok s ∧
      (programX 0#24).entry = 0#24 := ⟨_, rfl, rfl⟩

theorem witness_LaunchIsRefusedOutsideTheHeader :
    (∀ c ∈ ([(0xFFFFF, 0x77#8)] : List Host.Cell), c.1 < Config.memBytes) ∧
    (∃ s, launch ⟨[], 0xFFFFE#24, 2#24, [⟨0xFFFFE#24, [1#8, 2#8]⟩], 0#24⟩ 0#24 .user .fault
      { Stated.nothing with bytes := [(0xFFFFF, 0x77#8)] } = .ok s) ∧
    launch ⟨[], 0xFFFFE#24, 3#24, [], 0#24⟩ 0#24 .user .fault Stated.nothing =
      .error .headerOutsideMemory := ⟨by decide, ⟨_, rfl⟩, rfl⟩

theorem witness_LaunchMeetsTheInvariants :
    ∃ s, launch (programX 0#24) 0xFFFFFF#24 .user .fault Stated.nothing = .ok s := ⟨_, rfl⟩

theorem witness_RecordColumnsReadBack :
    (columns "T     ").length = 6 ∧ (List.replicate 30 0xAB#8).length ≤ 30 ∧
    Record.ofColumns? (Record.text 0xFFFFFF#24 (List.replicate 30 0xAB#8)).columns =
      some (.text 0xFFFFFF#24 (List.replicate 30 0xAB#8)) := by decide

end Sys2Proof.Tests
end

/-! # The illegal combinations of flags (30_encoding.md R74) -/

namespace Sys2Proof

/-! ## The check of the flags -/

/-- RSUB is the one instruction without an operand (R76, 42_compare_jump.md R149). -/
theorem Mnemonic.operandClass_eq_none_iff {m : Mnemonic} : m.operandClass = .none ↔ m = .rsub := by
  cases m <;> decide

/-- Condition a: Format 3 is relative to nothing only where b and p are both set. -/
theorem Operand.relative?_f3_eq_none_iff {ni : Addressing} {x b p : Bool} {disp : BitVec 12} :
    (Operand.f3 ni x b p disp).relative? = none ↔ b = true ∧ p = true := by
  cases b <;> cases p <;> simp [Operand.relative?]

/-- Condition b: Format 4 is relative to nothing only where b or p is set. -/
theorem Operand.relative?_f4_eq_none_iff {ni : Addressing} {x b p : Bool} {addr20 : BitVec 20} :
    (Operand.f4 ni x b p addr20).relative? = none ↔ b = true ∨ p = true := by
  cases b <;> cases p <;> simp [Operand.relative?]

/-- In the SIC form b, p and e are address bits: nothing in it can be illegal. -/
theorem legalRelative_sic (m : Mnemonic) (x : Bool) (addr15 : BitVec 15) :
    legalRelative m (.sic x addr15) = some .direct := by
  simp [legalRelative, Operand.addressing, Operand.relative?]

/-- The four conditions of R74 for any form: a or b (no `relative?`), c and d. -/
theorem legalRelative_eq_none_iff {m : Mnemonic} {o : Operand} :
    legalRelative m o = none ↔
      o.relative? = none ∨ (o.indexed = true ∧ o.addressing ≠ .simple) ∨
        (o.addressing = .immediate ∧ m.operandClass = .loc) := by
  unfold legalRelative
  split
  next indexing => simp_all
  next =>
    split
    next location => simp_all
    next => simp_all

theorem flagsLegal_sic (m : Mnemonic) (x : Bool) (addr15 : BitVec 15) :
    flagsLegal m (.sic x addr15) = true := by
  simp [flagsLegal, legalRelative_sic]

theorem flagsLegal_rsub (o : Operand) : flagsLegal .rsub o = true := rfl

theorem flagsLegal_eq_false_iff {m : Mnemonic} {o : Operand} (hm : m ≠ .rsub) :
    flagsLegal m o = false ↔ legalRelative m o = none := by
  rw [flagsLegal_iff_isSome (mt Mnemonic.operandClass_eq_none_iff.mp hm), Option.isSome_eq_false_iff,
    Option.isNone_iff_eq_none]

theorem Instr.mnemonic_ne_rsub_of_illegal {i : Instr} (h : i.wellFormed = false) :
    i.mnemonic ≠ .rsub := by
  intro hm
  rw [Instr.wellFormed, hm, flagsLegal_rsub] at h
  cases h

/-- An encoding has at least the two bytes that IllegalInstruction records. -/
theorem encode_eq_cons_cons (i : Instr) : ∃ b0 b1 rest, encode i = b0 :: b1 :: rest := by
  unfold encode
  cases i.operand <;> exact ⟨_, _, _, rfl⟩

end Sys2Proof

namespace Sys2Proof.Machine

/-! ## A fault of steps 5 to 7 is the instruction's fault

Every instruction but RSUB begins by resolving its operand, so that what this raises, the instruction
raises. -/

/-- What the first read of an instruction raises is what the instruction raises. -/
theorem conclude_bind_of_error {α : Type} {s : State} {x : Access α} {f : α → Access State} {c : Cause}
    (h : x = .error c) : conclude s (x >>= f) = .next (s.raise c) := by
  rw [h, access_error_bind, conclude_error]

theorem resolveLoc_of_target_error {s : State} {m : Mnemonic} {o : Operand} {c : Cause}
    (h : s.resolveTarget m o = .error c) : s.resolveLoc m o = .error c :=
  access_bind_eq_error.mpr (.inl h)

theorem resolveWord_of_target_error {s : State} {m : Mnemonic} {o : Operand} {c : Cause}
    (h : s.resolveTarget m o = .error c) : s.resolveWord m o = .error c :=
  access_bind_eq_error.mpr (.inl h)

theorem resolveByte_of_target_error {s : State} {m : Mnemonic} {o : Operand} {c : Cause}
    (h : s.resolveTarget m o = .error c) : s.resolveByte m o = .error c :=
  access_bind_eq_error.mpr (.inl h)

theorem exec_of_resolveWord_error {i : Instr} {s : State} {c : Cause}
    (hclass : i.mnemonic.operandClass = .word)
    (h : s.resolveWord i.mnemonic i.operand = .error c) : exec i s = .next (s.raise c) := by
  cases i with
  | lda o | ldx o | ldl o | add o | sub o | mul o | div o | comp o | tix o | and o | or o =>
    exact conclude_bind_of_error h
  | _ => cases hclass

theorem exec_of_resolveByte_error {i : Instr} {s : State} {c : Cause}
    (hclass : i.mnemonic.operandClass = .byte)
    (h : s.resolveByte i.mnemonic i.operand = .error c) : exec i s = .next (s.raise c) := by
  cases i with
  | ldch o | rd o | td o | wd o => exact conclude_bind_of_error h
  | _ => cases hclass

theorem exec_of_resolveLoc_error {i : Instr} {s : State} {c : Cause}
    (hclass : i.mnemonic.operandClass = .loc)
    (h : s.resolveLoc i.mnemonic i.operand = .error c) : exec i s = .next (s.raise c) := by
  cases i with
  | sta o | stx o | stl o | stch o | stsw o | j o | jeq o | jgt o | jlt o | jsub o =>
    exact conclude_bind_of_error h
  | _ => cases hclass

/-- A fault of the flags, of privilege or of the target address is raised by every instruction that has an
operand. -/
theorem exec_of_resolveTarget_error {i : Instr} {s : State} {c : Cause} (hm : i.mnemonic ≠ .rsub)
    (h : s.resolveTarget i.mnemonic i.operand = .error c) : exec i s = .next (s.raise c) := by
  cases hclass : i.mnemonic.operandClass with
  | word => exact exec_of_resolveWord_error hclass (resolveWord_of_target_error h)
  | byte => exact exec_of_resolveByte_error hclass (resolveByte_of_target_error h)
  | loc => exact exec_of_resolveLoc_error hclass (resolveLoc_of_target_error h)
  | none => exact absurd (Mnemonic.operandClass_eq_none_iff.mp hclass) hm

/-- Illegal flags raise IllegalInstruction with the first two bytes, whatever the state
(60_exceptions.md R184). -/
theorem exec_of_illegal {i : Instr} {s : State} (h : i.wellFormed = false) :
    exec i s = .next (s.raise (.illegalInstruction ((encode i).take 2))) :=
  have hm := Instr.mnemonic_ne_rsub_of_illegal h
  exec_of_resolveTarget_error hm (resolveTarget_of_illegal ((flagsLegal_eq_false_iff hm).mp h))

/-- Settles O6: R74's conditions are those of `legalRelative`, read off for each form; the raise is
`exec_of_illegal`. -/
theorem illegalFlagCombinations : Obligations.IllegalFlagCombinations := by
  refine ⟨flagsLegal_sic, flagsLegal_rsub, ?format3, ?format4, ?raise⟩
  case format3 =>
    intro m ni x b p disp hm
    rw [flagsLegal_eq_false_iff hm, legalRelative_eq_none_iff, Operand.relative?_f3_eq_none_iff]
    rfl
  case format4 =>
    intro m ni x b p addr20 hm
    rw [flagsLegal_eq_false_iff hm, legalRelative_eq_none_iff, Operand.relative?_f4_eq_none_iff]
    rfl
  case raise =>
    intro i s h
    obtain ⟨b0, b1, rest, he⟩ := encode_eq_cons_cons i
    have hexec := exec_of_illegal (s := s) h
    rw [he] at hexec
    exact ⟨b0, b1, rest, he, hexec⟩

end Sys2Proof.Machine

/-! # The division table (41_arith_logic.md R124, R127, R128) -/

namespace Sys2Proof.Machine

/-! ## The quotients -/

/-- R128's rows whose dividend and divisor are both given: dividend, divisor and quotient. -/
def divisionRows : List (Word × Word × Word) :=
  [(0x000007#24, 0x000002#24, 0x000003#24), (0xFFFFF9#24, 0x000002#24, 0xFFFFFD#24),
   (0x000007#24, 0xFFFFFE#24, 0xFFFFFD#24), (0xFFFFF9#24, 0xFFFFFE#24, 0x000003#24),
   (0x000001#24, 0x000002#24, 0x000000#24), (0xFFFFFF#24, 0x000002#24, 0x000000#24),
   (0x800000#24, 0xFFFFFF#24, 0x800000#24), (0x800000#24, 0x000001#24, 0x800000#24),
   (0x7FFFFF#24, 0xFFFFFF#24, 0x800001#24)]

/-- In every row the divisor is not zero, and the quotient is the one that DIV computes. -/
theorem divWords_of_mem_divisionRows {a v q : Word} (h : (a, v, q) ∈ divisionRows) :
    v ≠ 0#24 ∧ divWords a v = q := by
  have rows : divisionRows.Forall fun (a, v, q) => v ≠ 0#24 ∧ divWords a v = q := by decide
  exact List.forall_iff_forall_mem.mp rows _ h

theorem divWords_zero_left (v : Word) : divWords 0#24 v = 0#24 := by
  simp [divWords, signed24, tdiv, wrap24]

/-! ## What DIV does once its operand is resolved -/

/-- A zero operand raises before A is read (60_exceptions.md R185). -/
theorem exec_div_of_zero {o : Operand} {s : State} (hv : s.resolveWord .div o = .ok 0#24) :
    exec (.div o) s = .next (s.raise .divideByZero) := by
  change execDiv o s = _
  simp [execDiv, hv]

/-- An operand that is not zero: the quotient goes to A (R124). -/
theorem exec_div_of_ne_zero {o : Operand} {s : State} {v a : Word}
    (hv : s.resolveWord .div o = .ok v) (ha : s.readReg .effect .a = .ok a) (hne : v ≠ 0#24) :
    exec (.div o) s = .next ((s.setA (divWords a v)).advance o) := by
  change execDiv o s = _
  simp [execDiv, hv, ha, hne]

/-- Settles O27: the rows with both numbers given, the zero dividend and the zero divisor. -/
theorem divisionTable : Obligations.DivisionTable := by
  intro o s v a hv ha
  refine ⟨?row, ?zeroDividend, ?zeroDivisor⟩
  case row =>
    intro q hmem
    obtain ⟨hne, hq⟩ := divWords_of_mem_divisionRows hmem
    exact ⟨_, exec_div_of_ne_zero hv ha hne, hq⟩
  case zeroDividend =>
    rintro rfl hne
    exact ⟨_, exec_div_of_ne_zero hv ha hne, divWords_zero_left v⟩
  case zeroDivisor =>
    rintro rfl
    exact exec_div_of_zero hv

end Sys2Proof.Machine

/-! # The check of privilege (43_io_system.md R162) -/

namespace Sys2Proof

/-- The mark P stands at four instructions. -/
theorem Mnemonic.privileged_iff {m : Mnemonic} :
    m.privileged = true ↔ m = .rd ∨ m = .td ∨ m = .wd ∨ m = .stsw := by
  cases m <;> decide

end Sys2Proof

namespace Sys2Proof.Machine

/-! ## What an access raises and answers -/

/-- Every cause the access can raise is in `E` and every value it can answer is in `Q`. -/
def Meets {α : Type} (E : Cause → Prop) (Q : α → Prop) : Access α → Prop
  | .ok a => Q a
  | .error c => E c

/-- Two reads in sequence: what the first is known to answer may be used about the second. -/
theorem Meets.bind {α β : Type} {E : Cause → Prop} {R : α → Prop} {Q : β → Prop} {x : Access α}
    {f : α → Access β} (hx : Meets E R x) (hf : ∀ a, R a → Meets E Q (f a)) : Meets E Q (x >>= f) := by
  cases x with
  | ok a => exact hf a hx
  | error c => exact hx

/-- A read whose answer does not matter, before the rest of an instruction. -/
theorem Meets.andThen {α β : Type} {E : Cause → Prop} {Q : β → Prop} {x : Access α} {f : α → Access β}
    (hx : Meets E (fun _ => True) x) (hf : ∀ a, Meets E Q (f a)) : Meets E Q (x >>= f) :=
  hx.bind fun a _ => hf a

theorem meets_readUnspecified {α : Type} {E : Cause → Prop} {p : UninitPolicy} {w : Unspecified} {v : α}
    (h : p = .fault → E (.uninitializedRead w)) : Meets E (fun _ => True) (readUnspecified p w v) := by
  cases p with
  | fault => exact h rfl
  | draw => trivial

/-! ## The causes of an instruction's faults -/

/-- The faults that an instruction of mnemonic `m` and operand part `o` can raise in `s`, each with the
condition it needs; only the second looks at the mode. -/
inductive CanRaise (s : State) (m : Mnemonic) (o : Operand) : Cause → Prop
  | flags (illegal : legalRelative m o = none) :
      CanRaise s m o (.illegalInstruction ((encodeParts m o).take 2))
  | privilege (marked : m.privileged = true) (user : s.mode = .user) :
      CanRaise s m o (.privilegeViolation m)
  | uninitialized (w : Unspecified) (policy : s.policy = .fault) : CanRaise s m o (.uninitializedRead w)
  | address (kind : AccessKind) (a : Nat) (outside : Config.memBytes ≤ a + 2) :
      CanRaise s m o (.addressFault kind a)
  | divide (isDiv : m = .div) : CanRaise s m o .divideByZero
  | notReady (d : Byte) (latch : s.isReady d = false) : CanRaise s m o (.deviceNotReady d)

/-- PrivilegeViolation has one source, the check of step 6, and names the instruction itself. -/
theorem CanRaise.privilegeViolation {s : State} {m m' : Mnemonic} {o : Operand}
    (h : CanRaise s m o (.privilegeViolation m')) :
    m = m' ∧ m.privileged = true ∧ s.mode = .user := by
  cases h with
  | privilege marked user => exact ⟨rfl, marked, user⟩

section Reads

variable {s : State} {m : Mnemonic} {o : Operand}

theorem meets_readReg (site : ReadSite) (r : WordReg) :
    Meets (CanRaise s m o) (fun _ => True) (s.readReg site r) := by
  unfold State.readReg
  split
  · trivial
  · exact meets_readUnspecified (.uninitialized _)

theorem meets_readCC : Meets (CanRaise s m o) (fun _ => True) s.readCC := by
  unfold State.readCC
  split
  · trivial
  · exact meets_readUnspecified (.uninitialized _)

theorem meets_loadByte (site : ReadSite) (a : Nat) :
    Meets (CanRaise s m o) (fun _ => True) (s.loadByte site a) := by
  unfold State.loadByte
  cases Memory.read s.mem a with
  | some b => trivial
  | none => exact meets_readUnspecified (.uninitialized _)

theorem meets_memReadByte (site : ReadSite) (addr : Word) :
    Meets (CanRaise s m o) (fun _ => True) (s.memReadByte site addr) := by
  unfold State.memReadByte
  split
  · exact meets_loadByte _ _
  · exact .address _ _ (by omega)

theorem meets_memReadWord (site : ReadSite) (addr : Word) :
    Meets (CanRaise s m o) (fun _ => True) (s.memReadWord site addr) := by
  unfold State.memReadWord
  split
  · exact (meets_loadByte _ _).andThen fun _ => (meets_loadByte _ _).andThen fun _ =>
      (meets_loadByte _ _).andThen fun _ => trivial
  · exact .address _ _ (by omega)

/-- A write that succeeds leaves the run status alone. -/
theorem meets_memWriteByte (addr : Word) (b : Byte) :
    Meets (CanRaise s m o) (fun t => t.status = s.status) (s.memWriteByte addr b) := by
  unfold State.memWriteByte
  split
  · exact rfl
  · exact .address _ _ (by omega)

theorem meets_memWriteWord (addr v : Word) :
    Meets (CanRaise s m o) (fun t => t.status = s.status) (s.memWriteWord addr v) := by
  unfold State.memWriteWord
  split
  · exact rfl
  · exact .address _ _ (by omega)

theorem meets_requireReady (d : Byte) :
    Meets (CanRaise s m o) (fun _ => True) (requireReady d s) := by
  unfold requireReady
  split
  · trivial
  next latch => exact .notReady d (eq_false_of_ne_true latch)

/-! ### Steps 5 to 7 -/

theorem meets_checkFlags : Meets (CanRaise s m o) (fun _ => True) (checkFlags m o) := by
  unfold checkFlags
  cases h : legalRelative m o with
  | some r => trivial
  | none => exact .flags h

theorem meets_checkPrivilege : Meets (CanRaise s m o) (fun _ => True) (checkPrivilege m s) := by
  cases h : checkPrivilege m s with
  | ok u => trivial
  | error c =>
    obtain ⟨marked, user, rfl⟩ := checkPrivilege_eq_error.mp h
    exact .privilege marked user

theorem meets_baseValue (r : Relative) :
    Meets (CanRaise s m o) (fun _ => True) (s.baseValue o r) := by
  cases r with
  | direct | pc => trivial
  | base => exact meets_readReg _ _

theorem meets_indexValue : Meets (CanRaise s m o) (fun _ => True) (s.indexValue o) := by
  unfold State.indexValue
  split
  · exact meets_readReg _ _
  · trivial

theorem meets_resolveTarget : Meets (CanRaise s m o) (fun _ => True) (s.resolveTarget m o) :=
  meets_checkFlags.andThen fun r => meets_checkPrivilege.andThen fun _ =>
    (meets_baseValue r).andThen fun _ => meets_indexValue.andThen fun _ => trivial

theorem meets_location (ta : Word) : Meets (CanRaise s m o) (fun _ => True) (s.location o ta) := by
  unfold State.location
  cases o.addressing with
  | indirect => exact meets_memReadWord _ _
  | simple | immediate => trivial

theorem meets_resolveLoc : Meets (CanRaise s m o) (fun _ => True) (s.resolveLoc m o) :=
  meets_resolveTarget.andThen meets_location

theorem meets_resolveWord : Meets (CanRaise s m o) (fun _ => True) (s.resolveWord m o) := by
  refine meets_resolveTarget.andThen fun ta => ?_
  cases o.addressing with
  | immediate => trivial
  | simple | indirect => exact (meets_location ta).andThen (meets_memReadWord _)

theorem meets_resolveByte : Meets (CanRaise s m o) (fun _ => True) (s.resolveByte m o) := by
  refine meets_resolveTarget.andThen fun ta => ?_
  cases o.addressing with
  | immediate => trivial
  | simple | indirect => exact (meets_location ta).andThen (meets_memReadByte _)

/-! ### What the instructions of a family share -/

theorem meets_loadWord {w : Word → State → State} (hw : ∀ v, (w v s).status = s.status) :
    Meets (CanRaise s m o) (fun t => t.status = s.status) (loadWord m w o s) :=
  meets_resolveWord.andThen hw

theorem meets_storeReg (r : WordReg) :
    Meets (CanRaise s m o) (fun t => t.status = s.status) (storeReg m r o s) :=
  meets_resolveLoc.andThen fun _ => (meets_readReg _ r).andThen fun _ =>
    (meets_memWriteWord _ _).bind fun _ ht => ht

theorem meets_accumulate (f : Word → Word → Word) :
    Meets (CanRaise s m o) (fun t => t.status = s.status) (accumulate m f o s) :=
  meets_resolveWord.andThen fun _ => (meets_readReg _ _).andThen fun _ => rfl

theorem meets_jumpIf (want : CC) :
    Meets (CanRaise s m o) (fun t => t.status = s.status) (jumpIf m want o s) :=
  meets_resolveLoc.andThen fun _ => meets_readCC.andThen fun _ => rfl

end Reads

theorem State.deviceTest_status (s : State) (d : Byte) : (s.deviceTest d).2.status = s.status := by
  obtain ⟨left, e⟩ := deviceTest_spec s d
  rw [e]

theorem State.deviceRead_status (s : State) (d : Byte) : (s.deviceRead d).2.status = s.status := by
  obtain ⟨left, e⟩ := deviceRead_spec s d
  rw [e]

/-- Every instruction is one access: it raises a fault that `CanRaise` lists, or it completes with the run
status as it was. -/
theorem exec_eq_conclude_meets (i : Instr) (s : State) :
    ∃ x, exec i s = conclude s x ∧
      Meets (CanRaise s i.mnemonic i.operand) (fun t => t.status = s.status) x := by
  cases i with
  | lda o | ldx o | ldl o => exact ⟨_, rfl, meets_loadWord fun _ => rfl⟩
  | sta o | stx o | stl o => exact ⟨_, rfl, meets_storeReg _⟩
  | add o | sub o | mul o | and o | or o => exact ⟨_, rfl, meets_accumulate _⟩
  | jeq o | jgt o | jlt o => exact ⟨_, rfl, meets_jumpIf _⟩
  | j o | jsub o => exact ⟨_, rfl, meets_resolveLoc.andThen fun _ => rfl⟩
  | rsub o => exact ⟨_, rfl, (meets_readReg _ _).andThen fun _ => rfl⟩
  | comp o | tix o =>
    exact ⟨_, rfl, meets_resolveWord.andThen fun _ => (meets_readReg _ _).andThen fun _ => rfl⟩
  | div o =>
    refine ⟨_, rfl, meets_resolveWord.andThen fun v => ?_⟩
    split
    · exact .divide rfl
    · exact (meets_readReg _ _).andThen fun _ => rfl
  | ldch o =>
    exact ⟨_, rfl, meets_resolveByte.andThen fun _ => (meets_readReg _ _).andThen fun _ => rfl⟩
  | stch o =>
    exact ⟨_, rfl, meets_resolveLoc.andThen fun _ => (meets_readReg _ _).andThen fun _ =>
      (meets_memWriteByte _ _).bind fun _ ht => ht⟩
  | stsw o =>
    exact ⟨_, rfl, meets_resolveLoc.andThen fun _ => meets_readCC.andThen fun _ =>
      (meets_memWriteWord _ _).bind fun _ ht => ht⟩
  | td o => exact ⟨_, rfl, meets_resolveByte.andThen fun d => s.deviceTest_status d⟩
  | rd o =>
    exact ⟨_, rfl, meets_resolveByte.andThen fun d => (meets_requireReady d).andThen fun _ =>
      (meets_readReg _ _).andThen fun _ => s.deviceRead_status d⟩
  | wd o =>
    exact ⟨_, rfl, meets_resolveByte.andThen fun d => (meets_requireReady d).andThen fun _ =>
      (meets_readReg _ _).andThen fun _ => rfl⟩

/-- A fault recorded by an instruction that began in a running machine is one it can raise. -/
theorem canRaise_of_exec_faulted {i : Instr} {s t : State} {c : Cause} {a : Word}
    (hrun : s.status = .running) (h : exec i s = .next t) (hfault : t.status = .faulted c a) :
    CanRaise s i.mnemonic i.operand c := by
  obtain ⟨x, hexec, hx⟩ := exec_eq_conclude_meets i s
  rw [hexec] at h
  rcases conclude_eq_next.mp h with rfl | ⟨c', rfl, rfl⟩
  · have completes : t.status = s.status := hx
    rw [completes, hrun] at hfault
    cases hfault
  · rw [State.raise_status] at hfault
    cases hfault
    exact hx

/-! ## The privileged instructions -/

/-- In user mode a privileged instruction with legal flags raises at step 6. -/
theorem exec_of_privileged_user {m : Mnemonic} {o : Operand} {s : State} (hm : m.privileged = true)
    (hflags : flagsLegal m o = true) (huser : s.mode = .user) :
    exec (m.instr o) s = .next (s.raise (.privilegeViolation m)) := by
  have hrsub : m ≠ .rsub := by
    rintro rfl
    cases hm
  have legal : legalRelative m o ≠ none := fun h => by
    rw [(flagsLegal_eq_false_iff hrsub).mpr h] at hflags
    cases hflags
  refine exec_of_resolveTarget_error ?_ ?_
  · rwa [Mnemonic.mnemonic_instr]
  · rw [Mnemonic.mnemonic_instr, Mnemonic.operand_instr]
    exact resolveTarget_of_user legal hm huser

/-! ## The mode is constant (10_state.md R23) -/

theorem Effect.mode_eq {s t : State} (h : Effect s t) : t.mode = s.mode := by
  cases h
  case test d c o _ =>
    obtain ⟨left, e⟩ := deviceTest_spec s d
    simp [e]
  case read d v o _ _ =>
    obtain ⟨left, e⟩ := deviceRead_spec s d
    simp [e]
  all_goals rfl

theorem exec_mode {i : Instr} {s t : State} (h : exec i s = .next t) : t.mode = s.mode := by
  rcases exec_effect h with ⟨c, rfl⟩ | effect
  · exact State.raise_mode c s
  · exact effect.mode_eq

theorem step_mode {s t : State} (h : step s = .next t) : t.mode = s.mode := by
  obtain ⟨_, ⟨_, rfl⟩ | ⟨_, c, _, rfl⟩ | ⟨_, i, _, hexec⟩⟩ := step_eq_next h
  · exact State.endRun_mode s
  · exact State.raise_mode c s
  · exact exec_mode hexec

/-- Settles O40: the check of step 6 raises (`exec_of_privileged_user`), nothing else does (`CanRaise`), and
every way a step can end keeps the mode. -/
theorem privilegedInstructionsInUserMode : Obligations.PrivilegedInstructionsInUserMode := by
  refine ⟨?raises, ?onlyThen, ?modeKept⟩
  case raises =>
    intro m o s hm hflags huser
    exact exec_of_privileged_user (Mnemonic.privileged_iff.mpr hm) hflags huser
  case onlyThen =>
    intro i s t m a hrun hexec hfault
    obtain ⟨rfl, marked, user⟩ := (canRaise_of_exec_faulted hrun hexec hfault).privilegeViolation
    exact ⟨rfl, Mnemonic.privileged_iff.mp marked, user⟩
  case modeKept => exact fun s t h => step_mode h

end Sys2Proof.Machine

/-! # Faults are precise (60_exceptions.md R183, R185, R186) -/

namespace Sys2Proof.Machine

/-! ## A fault changes nothing but the run status -/

/-- What completes in a running machine leaves it running. -/
theorem Effect.not_faulted {s t : State} {c : Cause} {a : Word} (h : Effect s t)
    (hrun : s.status = .running) : t.status ≠ .faulted c a := by
  rw [h.status_eq, hrun]
  exact Status.noConfusion

/-- The run status of a raise tells which raise it was, and where. -/
theorem raise_eq_of_status {s : State} {c c' : Cause} {a : Word}
    (h : (s.raise c').status = .faulted c a) : a = s.pc ∧ s.raise c' = s.raise c := by
  rw [State.raise_status] at h
  cases h
  exact ⟨rfl, rfl⟩

/-- An instruction of a running machine that ends in Faulted raised the recorded cause. -/
theorem exec_eq_raise_of_faulted {i : Instr} {s t : State} {c : Cause} {a : Word}
    (hrun : s.status = .running) (h : exec i s = .next t) (hfault : t.status = .faulted c a) :
    a = s.pc ∧ t = s.raise c := by
  rcases exec_effect h with ⟨c', rfl⟩ | effect
  · exact raise_eq_of_status hfault
  · exact absurd hfault (effect.not_faulted hrun)

/-- A step that ends in Faulted raised the recorded cause, in the fetch or in the instruction: the end of the
run is no fault. -/
theorem step_eq_raise_of_faulted {s t : State} {c : Cause} {a : Word} (h : step s = .next t)
    (hfault : t.status = .faulted c a) : a = s.pc ∧ t = s.raise c := by
  obtain ⟨hrun, ⟨_, rfl⟩ | ⟨_, c', _, rfl⟩ | ⟨_, i, _, hexec⟩⟩ := step_eq_next h
  case inl =>
    rw [State.endRun_status] at hfault
    cases hfault
  case inr.inl => exact raise_eq_of_status hfault
  case inr.inr => exact exec_eq_raise_of_faulted hrun hexec hfault

/-- Only a running machine steps (10_state.md R28). -/
theorem step_ne_next_of_faulted {s : State} {c : Cause} {a : Word} (h : s.status = .faulted c a)
    (t : State) : step s ≠ .next t := by
  intro hstep
  obtain ⟨hrun, _⟩ := step_eq_next hstep
  rw [h] at hrun
  cases hrun

/-- Settles O10: a step that ends in Faulted is a raise in the state before it
(`step_eq_raise_of_faulted`), and no step leaves Faulted. -/
theorem faultsArePrecise : Obligations.FaultsArePrecise := by
  intro s t c a hstep hfault
  obtain ⟨haddr, hraise⟩ := step_eq_raise_of_faulted hstep hfault
  exact ⟨haddr, hraise, step_ne_next_of_faulted hfault⟩

/-! ## DivideByZero -/

/-- Settles O26: DIV looks at its operand before it reads A (`exec_div_of_zero`), and a raise writes no
register. -/
theorem divByZeroRaises : Obligations.DivByZeroRaises :=
  fun _ s hzero => ⟨exec_div_of_zero hzero, State.raise_rA .divideByZero s⟩

/-! ## DeviceNotReady -/

theorem requireReady_of_not_ready {d : Byte} {s : State} (h : s.isReady d = false) :
    requireReady d s = .error (.deviceNotReady d) := by
  simp [requireReady, h]

/-- What RD and WD share: the latch of the device that the operand names is checked before the rest, so that
with the latch clear nothing of `transfer` happens. -/
theorem conclude_transfer_of_not_ready {s : State} {d : Byte} {operand : Access Byte}
    {transfer : Byte → Access State} (hoperand : operand = .ok d) (hlatch : s.isReady d = false) :
    conclude s (do let k ← operand; requireReady k s; transfer k) =
      .next (s.raise (.deviceNotReady d)) := by
  rw [hoperand, access_ok_bind, requireReady_of_not_ready hlatch, access_error_bind, conclude_error]

/-- Settles O38: RD and WD are each such a transfer, and a raise logs no question. -/
theorem transferWithoutTestRaises : Obligations.TransferWithoutTestRaises := by
  intro o s d hlatch
  refine ⟨?rd, ?wd, State.raise_deviceLog (.deviceNotReady d) s⟩
  case rd => exact fun hoperand => conclude_transfer_of_not_ready hoperand hlatch
  case wd => exact fun hoperand => conclude_transfer_of_not_ready hoperand hlatch

end Sys2Proof.Machine

/-! # The end of the run (70_reset_and_hazards.md R216) -/

namespace Sys2Proof.Machine

/-- Step 1 of the instruction cycle: at `EXIT_ADDR` the run is over before anything is fetched. -/
theorem step_of_pc_eq_exitAddr {s : State} (hrun : s.status = .running) (hpc : s.pc = s.exitAddr) :
    step s = .next s.endRun := by
  simp [step, hrun, hpc]

/-- A fault records Faulted, never Exited. -/
theorem State.raise_not_exited (c : Cause) (s : State) : (s.raise c).status ≠ .exited := by
  rw [State.raise_status]
  exact Status.noConfusion

/-- What completes in a running machine does not end the run, a jump to `EXIT_ADDR` included: the next step
does. -/
theorem Effect.not_exited {s t : State} (h : Effect s t) (hrun : s.status = .running) :
    t.status ≠ .exited := by
  rw [h.status_eq, hrun]
  exact Status.noConfusion

/-- No instruction ends the run. -/
theorem exec_not_exited {i : Instr} {s t : State} (hrun : s.status = .running)
    (h : exec i s = .next t) : t.status ≠ .exited := by
  rcases exec_effect h with ⟨c, rfl⟩ | effect
  · exact State.raise_not_exited c s
  · exact effect.not_exited hrun

/-- A step that ends the run is the one at `EXIT_ADDR`: neither a fault of the fetch nor an instruction
does. -/
theorem step_eq_endRun_of_exited {s t : State} (h : step s = .next t) (hexit : t.status = .exited) :
    s.status = .running ∧ s.pc = s.exitAddr ∧ t = s.endRun := by
  obtain ⟨hrun, ⟨hpc, ht⟩ | ⟨_, c, _, rfl⟩ | ⟨_, i, _, hexec⟩⟩ := step_eq_next h
  case inl => exact ⟨hrun, hpc, ht⟩
  case inr.inl => exact absurd hexit (State.raise_not_exited c s)
  case inr.inr => exact absurd hexit (exec_not_exited hrun hexec)

/-- Settles O8: the step at `EXIT_ADDR` is `endRun`, which writes the run status alone, and of the three ways
a step can end no other gives Exited. -/
theorem runEndsAtExitAddressOnly : Obligations.RunEndsAtExitAddressOnly :=
  ⟨fun _ => step_of_pc_eq_exitAddr, fun _ _ => step_eq_endRun_of_exited⟩

end Sys2Proof.Machine

/-! # The checks of a launch (70_reset_and_hazards.md R211, R212) -/

namespace Sys2Proof.Machine

/-! ## The addresses an object program places bytes at -/

/-- A Text record places its bytes at the addresses from its start on (R212). -/
theorem TextRecord.forall_cells {P : Nat → Prop} (r : TextRecord) :
    (∀ c ∈ r.cells, P c.1) ↔ ∀ k < r.code.length, P (r.start.toNat + k) := by
  simp only [TextRecord.cells, List.forall_mem_map, Prod.forall, List.mk_mem_zipIdx_iff_getElem?,
    List.getElem?_eq_some_iff]
  exact ⟨fun h k hk => h _ k ⟨hk, rfl⟩, fun h _ k ⟨hk, _⟩ => h k hk⟩

/-- An object program places the bytes of its Text records. -/
theorem ObjectProgram.forall_cells {P : Nat → Prop} (p : ObjectProgram) :
    (∀ c ∈ p.cells, P c.1) ↔ ∀ r ∈ p.texts, ∀ k < r.code.length, P (r.start.toNat + k) := by
  simp only [ObjectProgram.cells, List.forall_mem_flatMap, TextRecord.forall_cells]

/-! ## When the checks pass -/

/-- The check of the Header passes where its range lies in memory and holds every byte placed. -/
theorem ObjectProgram.check_eq_ok_iff {p : ObjectProgram} {u : Unit} :
    p.check = .ok u ↔
      p.start.toNat + p.length.toNat ≤ Config.memBytes ∧
      ∀ c ∈ p.cells, p.start.toNat ≤ c.1 ∧ c.1 < p.start.toNat + p.length.toNat := by
  unfold ObjectProgram.check
  split
  next beyond => simp [Nat.not_le.mpr beyond]
  next inside =>
    split
    next placed => simpa [Nat.not_lt.mp inside] using placed
    next misplaced => simpa [Nat.not_lt.mp inside] using misplaced

/-- A launch that is not refused passed the check of the Header, states no byte outside memory (log 24) and
starts in `launchState`. -/
theorem launch_eq_ok_iff {p : ObjectProgram} {exitAddr : Word} {mode : Mode} {policy : UninitPolicy}
    {g : Stated} {s : State} :
    launch p exitAddr mode policy g = .ok s ↔
      p.check = .ok () ∧ (∀ c ∈ g.bytes, c.1 < Config.memBytes) ∧
        s = launchState p exitAddr mode policy g := by
  unfold launch
  cases p.check with
  | error refusal => exact iff_of_false (fun h => nomatch h) fun ⟨h, _⟩ => nomatch h
  | ok u =>
    change (if _ then Except.ok _ else Except.error _) = _ ↔ _
    simp only [List.all_eq_true, decide_eq_true_eq]
    split
    next stated =>
      exact ⟨fun h => ⟨trivial, stated, (Except.ok.inj h).symm⟩, fun ⟨_, _, h⟩ => h ▸ rfl⟩
    next outside => exact iff_of_false (fun h => nomatch h) fun ⟨_, stated, _⟩ => outside stated

/-- Settles O55: with the stated bytes inside memory a launch turns on the check of the Header alone, whose
condition on the bytes placed is that on the Text records' addresses. -/
theorem launchIsRefusedOutsideTheHeader : Obligations.LaunchIsRefusedOutsideTheHeader := by
  intro p exitAddr mode policy g hstated
  calc (∃ s, launch p exitAddr mode policy g = .ok s)
    _ ↔ p.check = .ok () :=
      ⟨fun ⟨_, h⟩ => (launch_eq_ok_iff.mp h).1,
        fun hcheck => ⟨_, launch_eq_ok_iff.mpr ⟨hcheck, hstated, rfl⟩⟩⟩
    _ ↔ _ := ObjectProgram.check_eq_ok_iff
    _ ↔ _ := and_congr_right fun _ =>
      p.forall_cells (P := fun a => p.start.toNat ≤ a ∧ a < p.start.toNat + p.length.toNat)

end Sys2Proof.Machine

/-! # The encoding (30_encoding.md R64 to R69) -/

namespace Sys2Proof

/-! ## The flags n and i of the first byte -/

theorem addressingOf_op_append_zero (op : BitVec 6) : addressingOf (op ++ 0b00#2) = none := by
  revert op; decide

theorem addressingOf_op_append_ni (op : BitVec 6) (ni : Addressing) :
    addressingOf (op ++ ni.ni) = some ni := by
  revert op; cases ni <;> decide

/-- A first byte without an addressing is its opcode field with n = i = 0. -/
theorem op_append_zero_of_addressingOf {b0 : Byte} (h : addressingOf b0 = none) :
    b0.extractLsb' 2 6 ++ 0b00#2 = b0 := by
  revert b0; decide

/-- A first byte with an addressing is its opcode field with the flags of the addressing. -/
theorem op_append_ni_of_addressingOf {b0 : Byte} {ni : Addressing}
    (h : addressingOf b0 = some ni) : b0.extractLsb' 2 6 ++ ni.ni = b0 := by
  revert b0; cases ni <;> decide

/-- The addressing that n and i select where they are not both 0 (R75). -/
theorem addressingOf_eq_some {b0 : Byte} (h : b0.getLsbD 1 = true ∨ b0.getLsbD 0 = true) :
    addressingOf b0 = some (if b0.getLsbD 1 then if b0.getLsbD 0 then .simple else .indirect
      else .immediate) := by
  unfold addressingOf
  cases hn : b0.getLsbD 1 <;> cases hi : b0.getLsbD 0 <;> simp_all

theorem isFormat4_of_addressingOf_none {b0 b1 : Byte} (h : addressingOf b0 = none) :
    isFormat4 b0 b1 = false := by
  simp [isFormat4, h]

theorem isFormat4_of_addressingOf_some {b0 b1 : Byte} {ni : Addressing}
    (h : addressingOf b0 = some ni) : isFormat4 b0 b1 = b1.getLsbD 4 := by
  rw [isFormat4, h, Option.isSome_some, Bool.true_and]

/-! ## The second byte -/

/-- The second byte of the SIC form: x and the top of a 15-bit address (R66). -/
def sicByte (x : Bool) (top : BitVec 7) : Byte := BitVec.ofBool x ++ top

theorem sicByte_fields (x : Bool) (top : BitVec 7) :
    (sicByte x top).getLsbD 7 = x ∧ (sicByte x top).extractLsb' 0 7 = top := by
  revert x top; decide

theorem sicByte_of_fields (b1 : Byte) : sicByte (b1.getLsbD 7) (b1.extractLsb' 0 7) = b1 := by
  revert b1; decide

/-- The second byte of Formats 3 and 4: x, b, p, e and the top of a displacement or an address (R64, R65). -/
def flagByte (x b p e : Bool) (top : BitVec 4) : Byte :=
  BitVec.ofBool x ++ BitVec.ofBool b ++ BitVec.ofBool p ++ BitVec.ofBool e ++ top

theorem flagByte_fields (x b p e : Bool) (top : BitVec 4) :
    (flagByte x b p e top).getLsbD 7 = x ∧ (flagByte x b p e top).getLsbD 6 = b ∧
      (flagByte x b p e top).getLsbD 5 = p ∧ (flagByte x b p e top).getLsbD 4 = e ∧
      (flagByte x b p e top).extractLsb' 0 4 = top := by
  revert x b p e top; decide

theorem flagByte_of_fields (b1 : Byte) :
    flagByte (b1.getLsbD 7) (b1.getLsbD 6) (b1.getLsbD 5) (b1.getLsbD 4) (b1.extractLsb' 0 4) = b1 := by
  revert b1; decide

/-! ## The encoding of each form -/

theorem encodeParts_sic (m : Mnemonic) (x : Bool) (addr15 : BitVec 15) :
    encodeParts m (.sic x addr15) =
      [m.op ++ 0b00#2, sicByte x (addr15.extractLsb' 8 7), addr15.extractLsb' 0 8] := rfl

theorem encodeParts_f3 (m : Mnemonic) (ni : Addressing) (x b p : Bool) (disp : BitVec 12) :
    encodeParts m (.f3 ni x b p disp) =
      [m.op ++ ni.ni, flagByte x b p false (disp.extractLsb' 8 4), disp.extractLsb' 0 8] := rfl

theorem encodeParts_f4 (m : Mnemonic) (ni : Addressing) (x b p : Bool) (addr20 : BitVec 20) :
    encodeParts m (.f4 ni x b p addr20) =
      [m.op ++ ni.ni, flagByte x b p true (addr20.extractLsb' 16 4), addr20.extractLsb' 8 8,
        addr20.extractLsb' 0 8] := rfl

/-! ## The operand part of each form -/

theorem decodeOperand_of_none {b0 b1 b2 b3 : Byte} (h : addressingOf b0 = none) :
    decodeOperand b0 b1 b2 b3 = .sic (b1.getLsbD 7) (b1.extractLsb' 0 7 ++ b2) := by
  rw [decodeOperand, h]

theorem decodeOperand_of_format3 {b0 b1 b2 b3 : Byte} {ni : Addressing}
    (h : addressingOf b0 = some ni) (he : b1.getLsbD 4 = false) :
    decodeOperand b0 b1 b2 b3 =
      .f3 ni (b1.getLsbD 7) (b1.getLsbD 6) (b1.getLsbD 5) (b1.extractLsb' 0 4 ++ b2) := by
  simp only [decodeOperand, h, he, Bool.false_eq_true, if_false]

theorem decodeOperand_of_format4 {b0 b1 b2 b3 : Byte} {ni : Addressing}
    (h : addressingOf b0 = some ni) (he : b1.getLsbD 4 = true) :
    decodeOperand b0 b1 b2 b3 =
      .f4 ni (b1.getLsbD 7) (b1.getLsbD 6) (b1.getLsbD 5) (b1.extractLsb' 0 4 ++ b2 ++ b3) := by
  simp only [decodeOperand, h, he, if_true]

/-- The three parts of a 20-bit address, joined again. -/
theorem addr20_of_parts (addr20 : BitVec 20) :
    addr20.extractLsb' 16 4 ++ addr20.extractLsb' 8 8 ++ addr20.extractLsb' 0 8 = addr20 := by
  rw [BitVec.extractLsb'_append_extractLsb'_eq_extractLsb' (start₁ := 8) (len₁ := 8) (start₂ := 16) rfl]
  exact BitVec.extractLsb'_append_extractLsb' (w := 12)

/-- Joined parts of a 20-bit address, taken apart again. -/
theorem parts_of_addr20 (top : BitVec 4) (b2 b3 : Byte) :
    (top ++ b2 ++ b3).extractLsb' 16 4 = top ∧ (top ++ b2 ++ b3).extractLsb' 8 8 = b2 ∧
      (top ++ b2 ++ b3).extractLsb' 0 8 = b3 := by
  refine ⟨?_, ?_, BitVec.extractLsb'_append_eq_right⟩
  · rw [BitVec.extractLsb'_append_eq_of_le (by decide)]
    exact BitVec.extractLsb'_append_eq_left
  · rw [BitVec.extractLsb'_append_eq_of_le (by decide)]
    exact BitVec.extractLsb'_append_eq_right

/-! ## Decoding -/

/-- Everything `decode` can answer: three bytes with an assigned opcode, or four in Format 4, and the bytes
after them. -/
theorem decode_eq_ok_iff {bytes rest : List Byte} {i : Instr} :
    decode bytes = .ok (i, rest) ↔
      ∃ b0 b1 b2 m, Mnemonic.ofByte? b0 = some m ∧
        ((isFormat4 b0 b1 = false ∧ bytes = b0 :: b1 :: b2 :: rest ∧
            i = m.instr (decodeOperand b0 b1 b2 0#8)) ∨
          (isFormat4 b0 b1 = true ∧ ∃ b3, bytes = b0 :: b1 :: b2 :: b3 :: rest ∧
            i = m.instr (decodeOperand b0 b1 b2 b3))) := by
  constructor
  · intro h
    match bytes with
    | [] => cases h
    | b0 :: tail =>
      simp only [decode] at h
      split at h
      · cases h
      next m hm =>
        split at h
        next b1 b2 tail' =>
          cases hf : isFormat4 b0 b1 <;> simp only [hf, Bool.false_eq_true, if_false, if_true] at h
          · cases h
            exact ⟨b0, b1, b2, m, hm, .inl ⟨hf, rfl, rfl⟩⟩
          · split at h
            next b3 _ =>
              cases h
              exact ⟨b0, b1, b2, m, hm, .inr ⟨hf, b3, rfl, rfl⟩⟩
            · cases h
        · cases h
  · rintro ⟨b0, b1, b2, m, hm, ⟨hf, rfl, rfl⟩ | ⟨hf, b3, rfl, rfl⟩⟩ <;> simp [decode, hm, hf]

theorem decode_three {b0 b1 b2 : Byte} {m : Mnemonic} (rest : List Byte)
    (hm : Mnemonic.ofByte? b0 = some m) (hf : isFormat4 b0 b1 = false) :
    decode (b0 :: b1 :: b2 :: rest) = .ok (m.instr (decodeOperand b0 b1 b2 0#8), rest) :=
  decode_eq_ok_iff.mpr ⟨b0, b1, b2, m, hm, .inl ⟨hf, rfl, rfl⟩⟩

theorem decode_four {b0 b1 b2 b3 : Byte} {m : Mnemonic} (rest : List Byte)
    (hm : Mnemonic.ofByte? b0 = some m) (hf : isFormat4 b0 b1 = true) :
    decode (b0 :: b1 :: b2 :: b3 :: rest) = .ok (m.instr (decodeOperand b0 b1 b2 b3), rest) :=
  decode_eq_ok_iff.mpr ⟨b0, b1, b2, m, hm, .inr ⟨hf, b3, rfl, rfl⟩⟩

/-! ## The round trip -/

/-- The bytes of any operand part decode to it, form by form. -/
theorem decode_encodeParts (m : Mnemonic) (o : Operand) (rest : List Byte) :
    decode (encodeParts m o ++ rest) = .ok (m.instr o, rest) := by
  cases o with
  | sic x addr15 =>
    have hni := addressingOf_op_append_zero m.op
    obtain ⟨hx, htop⟩ := sicByte_fields x (addr15.extractLsb' 8 7)
    have haddr : addr15.extractLsb' 8 7 ++ addr15.extractLsb' 0 8 = addr15 :=
      BitVec.extractLsb'_append_extractLsb' (w := 7)
    rw [encodeParts_sic]
    refine (decode_three rest (m.ofByte?_op_append _) (isFormat4_of_addressingOf_none hni)).trans ?_
    rw [decodeOperand_of_none hni, hx, htop, haddr]
  | f3 ni x b p disp =>
    have hni := addressingOf_op_append_ni m.op ni
    obtain ⟨hx, hb, hp, he, htop⟩ := flagByte_fields x b p false (disp.extractLsb' 8 4)
    have hdisp : disp.extractLsb' 8 4 ++ disp.extractLsb' 0 8 = disp :=
      BitVec.extractLsb'_append_extractLsb' (w := 4)
    rw [encodeParts_f3]
    refine (decode_three rest (m.ofByte?_op_append _)
      ((isFormat4_of_addressingOf_some hni).trans he)).trans ?_
    rw [decodeOperand_of_format3 hni he, hx, hb, hp, htop, hdisp]
  | f4 ni x b p addr20 =>
    have hni := addressingOf_op_append_ni m.op ni
    obtain ⟨hx, hb, hp, he, htop⟩ := flagByte_fields x b p true (addr20.extractLsb' 16 4)
    rw [encodeParts_f4]
    refine (decode_four rest (m.ofByte?_op_append _)
      ((isFormat4_of_addressingOf_some hni).trans he)).trans ?_
    rw [decodeOperand_of_format4 hni he, hx, hb, hp, htop, addr20_of_parts]

/-- Settles O1: every instruction is its mnemonic with its operand part, whose bytes decode to it. -/
theorem decodeOfEncodeIsTheInstruction : Obligations.DecodeOfEncodeIsTheInstruction := by
  intro i rest
  rw [encode, decode_encodeParts, Instr.instr_mnemonic_operand]

/-- Three bytes that hold an instruction are its encoding: no bit of them is lost in its fields. -/
theorem encodeParts_decodeOperand_three {b0 b1 b2 b3 : Byte} {m : Mnemonic}
    (hm : Mnemonic.ofByte? b0 = some m) (hf : isFormat4 b0 b1 = false) :
    encodeParts m (decodeOperand b0 b1 b2 b3) = [b0, b1, b2] := by
  have hop := Mnemonic.op_of_ofByte? hm
  cases hni : addressingOf b0 with
  | none =>
    rw [decodeOperand_of_none hni, encodeParts_sic, hop, op_append_zero_of_addressingOf hni]
    have htop : (b1.extractLsb' 0 7 ++ b2).extractLsb' 8 7 = b1.extractLsb' 0 7 :=
      BitVec.extractLsb'_append_eq_left
    have hlow : (b1.extractLsb' 0 7 ++ b2).extractLsb' 0 8 = b2 := BitVec.extractLsb'_append_eq_right
    rw [htop, hlow, sicByte_of_fields]
  | some ni =>
    have he : b1.getLsbD 4 = false := (isFormat4_of_addressingOf_some hni).symm.trans hf
    rw [decodeOperand_of_format3 hni he, encodeParts_f3, hop, op_append_ni_of_addressingOf hni]
    have htop : (b1.extractLsb' 0 4 ++ b2).extractLsb' 8 4 = b1.extractLsb' 0 4 :=
      BitVec.extractLsb'_append_eq_left
    have hlow : (b1.extractLsb' 0 4 ++ b2).extractLsb' 0 8 = b2 := BitVec.extractLsb'_append_eq_right
    have hb1 := flagByte_of_fields b1
    rw [he] at hb1
    rw [htop, hlow, hb1]

/-- So are the four bytes of Format 4. -/
theorem encodeParts_decodeOperand_four {b0 b1 b2 b3 : Byte} {m : Mnemonic}
    (hm : Mnemonic.ofByte? b0 = some m) (hf : isFormat4 b0 b1 = true) :
    encodeParts m (decodeOperand b0 b1 b2 b3) = [b0, b1, b2, b3] := by
  have hop := Mnemonic.op_of_ofByte? hm
  cases hni : addressingOf b0 with
  | none => rw [isFormat4_of_addressingOf_none hni] at hf; cases hf
  | some ni =>
    have he : b1.getLsbD 4 = true := (isFormat4_of_addressingOf_some hni).symm.trans hf
    rw [decodeOperand_of_format4 hni he, encodeParts_f4, hop, op_append_ni_of_addressingOf hni]
    obtain ⟨htop, hmid, hlow⟩ := parts_of_addr20 (b1.extractLsb' 0 4) b2 b3
    have hb1 := flagByte_of_fields b1
    rw [he] at hb1
    rw [htop, hmid, hlow, hb1]

/-- Settles O2: the bytes taken by `decode` are three, or four in Format 4, and in each form every bit of them
is a field of the operand part. -/
theorem bytesDecodedAreTheEncoding : Obligations.BytesDecodedAreTheEncoding := by
  intro bytes i rest h
  obtain ⟨b0, b1, b2, m, hm, ⟨hf, rfl, rfl⟩ | ⟨hf, b3, rfl, rfl⟩⟩ := decode_eq_ok_iff.mp h
  · rw [encode, Mnemonic.mnemonic_instr, Mnemonic.operand_instr,
      encodeParts_decodeOperand_three hm hf]
    rfl
  · rw [encode, Mnemonic.mnemonic_instr, Mnemonic.operand_instr,
      encodeParts_decodeOperand_four hm hf]
    rfl

/-- Settles O3: n = i = 0 is no addressing, hence the SIC form whatever e is; else e alone chooses between
Formats 3 and 4. -/
theorem formAndLengthFromFlags : Obligations.FormAndLengthFromFlags := by
  rintro b0 b1 b2 b3 rest m _ _ hm rfl rfl
  refine ⟨?sic, ?format3, ?format4⟩
  case sic =>
    intro hn hi
    have hni : addressingOf b0 = none := by simp only [addressingOf, hn, hi, Bool.false_eq_true, if_false]
    rw [decode_three rest hm (isFormat4_of_addressingOf_none hni), decodeOperand_of_none hni]
  case format3 =>
    intro h he
    have hni := addressingOf_eq_some h
    rw [decode_three rest hm ((isFormat4_of_addressingOf_some hni).trans he),
      decodeOperand_of_format3 hni he]
  case format4 =>
    intro h he
    have hni := addressingOf_eq_some h
    rw [decode_four rest hm ((isFormat4_of_addressingOf_some hni).trans he),
      decodeOperand_of_format4 hni he]

/-- Settles O4: each word is the encoding of the instruction it stands for, so that the round trip
decodes it. -/
theorem wordsOfTheSpecDecode : Obligations.WordsOfTheSpecDecode :=
  ⟨decode_encodeParts .lda (.f3 .simple false false false 0x100#12) [],
   decode_encodeParts .ldch (.f3 .simple true false false 0x100#12) [],
   decode_encodeParts .sta (.f4 .simple false false false 0x12345#20) [],
   decode_encodeParts .stl (.f3 .simple false true false 0x010#12) [],
   decode_encodeParts .stch (.sic false 0x1000#15) [],
   decode_encodeParts .tix (.f3 .simple false false false 0x050#12) [],
   decode_encodeParts .jeq (.f3 .simple false false true 0x003#12) [],
   decode_encodeParts .jsub (.f4 .simple false false false 0x00100#20) [],
   decode_encodeParts .rsub (.f3 .simple false false false 0x000#12) [],
   decode_encodeParts .td (.f3 .simple false false false 0x040#12) [],
   decode_encodeParts .stsw (.f3 .simple false false false 0x100#12) []⟩

end Sys2Proof

/-! # What every step keeps (10_state.md sections 1, 3 and 5, 20_memory.md section 1) -/

namespace Sys2Proof.Machine

/-! ## The cases of a step, packaged once -/

/-- A step only changes the run status, or it is the effect of an instruction that completes. -/
theorem step_cases {s t : State} (h : step s = .next t) :
    (∃ st, t = { s with status := st }) ∨ Effect s t := by
  obtain ⟨_, ⟨_, rfl⟩ | ⟨_, c, _, rfl⟩ | ⟨_, i, _, hexec⟩⟩ := step_eq_next h
  · exact .inl ⟨.exited, rfl⟩
  · exact .inl ⟨.faulted c s.pc, rfl⟩
  · exact (exec_effect hexec).imp_left fun ⟨c, ht⟩ => ⟨.faulted c s.pc, ht⟩

/-- Settles O9: `step` looks at the run status first, and a running machine answers a state in each of the
three ways its step can go. -/
theorem exactlyRunningMachinesStep : Obligations.ExactlyRunningMachinesStep := by
  refine ⟨fun s => ⟨?onlyRunning, ?running⟩, ?exited, ?faulted⟩
  case onlyRunning =>
    rintro ⟨t, h⟩
    exact (step_eq_next h).1
  case running =>
    intro hrun
    by_cases hpc : s.pc = s.exitAddr
    · exact ⟨_, step_of_pc_eq_exitAddr hrun hpc⟩
    · cases hf : s.fetchInstr with
      | error c => exact ⟨s.raise c, by simp [step, hrun, hpc, hf]⟩
      | ok i =>
        obtain ⟨t, ht⟩ := exec_answers_next i s
        exact ⟨t, by simp [step, hrun, hpc, hf, ht]⟩
  case exited =>
    intro s h
    simp [step, h]
  case faulted =>
    intro s c a h
    simp [step, h]

/-! ## Memory stays canonical -/

theorem State.deviceTest_mem (s : State) (d : Byte) : (s.deviceTest d).2.mem = s.mem := by
  obtain ⟨left, e⟩ := deviceTest_spec s d
  rw [e]

theorem State.deviceRead_mem (s : State) (d : Byte) : (s.deviceRead d).2.mem = s.mem := by
  obtain ⟨left, e⟩ := deviceRead_spec s d
  rw [e]

theorem Effect.wf_mem {s t : State} (h : Effect s t) (hwf : Memory.wf s.mem) : Memory.wf t.mem := by
  cases h
  case storeWord a v o inside => exact Memory.wf_writeBytes hwf
  case storeByte a b o inside => exact Memory.wf_write hwf inside
  case test d c o mode =>
    change Memory.wf (s.deviceTest d).2.mem
    rwa [State.deviceTest_mem]
  case read d v o mode latch =>
    change Memory.wf (s.deviceRead d).2.mem
    rwa [State.deviceRead_mem]
  all_goals exact hwf

/-- Settles O52: only stores write memory, and they write inside it (`Effect`). -/
theorem stepKeepsMemoryCanonical : Obligations.StepKeepsMemoryCanonical := by
  intro s t hwf h
  rcases step_cases h with ⟨st, rfl⟩ | effect
  · exact hwf
  · exact effect.wf_mem hwf

/-! ## The devices -/

theorem State.deviceTest_ready (s : State) (d : Byte) : (s.deviceTest d).2.ready = s.ready := by
  obtain ⟨left, e⟩ := deviceTest_spec s d
  rw [e]

theorem State.deviceRead_ready (s : State) (d : Byte) : (s.deviceRead d).2.ready = s.ready := by
  obtain ⟨left, e⟩ := deviceRead_spec s d
  rw [e]

/-- Everything a completed instruction can do to the devices: nothing, or in supervisor mode one question to a
device `d`, which leaves the answer of a TD in the latch of `d`, and clears a set latch after a transfer. -/
theorem Effect.devices {s t : State} (h : Effect s t) :
    (t.deviceLog = s.deviceLog ∧ t.ready = s.ready) ∨
    (s.mode = .supervisor ∧ ∃ d e r, t.deviceLog = s.deviceLog ++ [e] ∧
      t.ready = (s.setReady d r).ready ∧
      (e = .tested d r ∨ (transferOf e = some d ∧ r = false ∧ s.isReady d = true))) := by
  cases h
  case test d c o mode =>
    obtain ⟨left, e⟩ := deviceTest_spec s d
    exact .inr ⟨mode, d, _, _, congrArg State.deviceLog e,
      congrArg (Vector.set · d.toNat (s.deviceTest d).1 d.isLt) (s.deviceTest_ready d), .inl rfl⟩
  case read d v o mode latch =>
    obtain ⟨left, e⟩ := deviceRead_spec s d
    exact .inr ⟨mode, d, _, _, congrArg State.deviceLog e,
      congrArg (Vector.set · d.toNat false d.isLt) (s.deviceRead_ready d), .inr ⟨rfl, rfl, latch⟩⟩
  case write d b o mode latch => exact .inr ⟨mode, d, _, _, rfl, rfl, .inr ⟨rfl, rfl, latch⟩⟩
  all_goals exact .inl ⟨rfl, rfl⟩

/-- Settles O51: a question needs supervisor mode (`Effect.devices`). -/
theorem userModeNeverTouchesDevices : Obligations.UserModeNeverTouchesDevices := by
  intro s t huser h
  rcases step_cases h with ⟨st, rfl⟩ | effect
  · exact ⟨rfl, rfl⟩
  · rcases effect.devices with unchanged | ⟨hsup, _⟩
    · exact unchanged
    · rw [huser] at hsup
      cases hsup

/-- A TD sets the latch of its device to the answer. -/
theorem latchAfter_append_tested (k d : Byte) (r : Bool) (log : List DeviceEvent) :
    latchAfter k (log ++ [.tested d r]) = if k = d then r else latchAfter k log := by
  simp [latchAfter, eq_comm]

/-- A transfer clears the latch of its device. -/
theorem latchAfter_append_transfer {d : Byte} {e : DeviceEvent} (h : transferOf e = some d) (k : Byte)
    (log : List DeviceEvent) :
    latchAfter k (log ++ [e]) = if k = d then false else latchAfter k log := by
  cases e <;> cases h <;> simp [latchAfter, eq_comm]

/-- A log stays disciplined when the event added, if it is a transfer, finds the latch of its device set. -/
theorem disciplined_append {log : List DeviceEvent} {e : DeviceEvent} (hlog : Disciplined log)
    (he : ∀ d, transferOf e = some d → latchAfter d log = true) : Disciplined (log ++ [e]) := by
  intro before e' after d heq htransfer
  rcases List.eq_nil_or_concat after with rfl | ⟨after, last, rfl⟩
  · obtain ⟨rfl, hlast⟩ := List.append_inj' heq rfl
    cases hlast
    exact he d htransfer
  · rw [List.concat_eq_append, ← List.cons_append, ← List.append_assoc] at heq
    exact hlog before e' after d (List.append_inj' heq rfl).1 htransfer

/-- The invariant speaks of the latches and the log alone. -/
theorem latchInvariant_congr {s t : State} (h : LatchInvariant s) (hlog : t.deviceLog = s.deviceLog)
    (hready : t.ready = s.ready) : LatchInvariant t := by
  unfold LatchInvariant State.isReady at *
  rwa [hlog, hready]

/-- The invariant after one question, whose event makes the latch of its device what it becomes. -/
theorem latchInvariant_ask {s t : State} {d : Byte} {e : DeviceEvent} {r : Bool} (h : LatchInvariant s)
    (hlog : t.deviceLog = s.deviceLog ++ [e]) (hready : t.ready = (s.setReady d r).ready)
    (hlatch : ∀ k, latchAfter k (s.deviceLog ++ [e]) = if k = d then r else latchAfter k s.deviceLog)
    (htransfer : ∀ k, transferOf e = some k → s.isReady k = true) : LatchInvariant t := by
  obtain ⟨hs, hdisciplined⟩ := h
  constructor
  · intro k
    have ht : t.isReady k = (s.setReady d r).isReady k := by
      unfold State.isReady
      rw [hready]
    rw [ht, isReady_setReady, hlog, hlatch, hs]
  · rw [hlog]
    exact disciplined_append hdisciplined fun k hk => (hs k).symm.trans (htransfer k hk)

/-- Settles O53: a step asks no device or puts one question, and a transfer finds the latch set. -/
theorem stepKeepsDeviceDiscipline : Obligations.StepKeepsDeviceDiscipline := by
  intro s t hinv h
  rcases step_cases h with ⟨st, rfl⟩ | effect
  · exact latchInvariant_congr hinv rfl rfl
  rcases effect.devices with ⟨hlog, hready⟩ | ⟨_, d, e, r, hlog, hready, rfl | ⟨hd, rfl, hlatch⟩⟩
  · exact latchInvariant_congr hinv hlog hready
  · exact latchInvariant_ask hinv hlog hready (latchAfter_append_tested · d r _) fun k hk => nomatch hk
  · refine latchInvariant_ask hinv hlog hready (latchAfter_append_transfer hd · _) fun k hk => ?_
    rw [hd] at hk
    cases hk
    exact hlatch

/-! ## Registers no instruction writes -/

/-- Settles O44: no effect writes one of these fields. -/
theorem noStepChangesIdleRegistersOrMode : Obligations.NoStepChangesIdleRegistersOrMode := by
  intro s t h
  rcases step_cases h with ⟨st, rfl⟩ | effect
  · exact ⟨rfl, rfl, rfl, rfl, rfl, rfl, rfl⟩
  cases effect
  case test d c o mode =>
    obtain ⟨left, e⟩ := deviceTest_spec s d
    simp [e]
  case read d v o mode latch =>
    obtain ⟨left, e⟩ := deviceRead_spec s d
    simp [e]
  all_goals exact ⟨rfl, rfl, rfl, rfl, rfl, rfl, rfl⟩

/-! ## What has been given a value keeps one -/

theorem Memory.isSome_read_write {m : Memory} {a : Nat} (a' : Nat) (b : Byte)
    (h : (Memory.read m a).isSome = true) : (Memory.read (Memory.write m a' b) a).isSome = true := by
  rw [Memory.read_write]
  split
  · rfl
  · exact h

theorem Memory.isSome_read_writeBytes {m : Memory} {a : Nat} (a' : Nat) (bs : List Byte)
    (h : (Memory.read m a).isSome = true) :
    (Memory.read (Memory.writeBytes m a' bs) a).isSome = true := by
  induction bs generalizing m a' with
  | nil => exact h
  | cons b bs ih =>
    rw [Memory.writeBytes]
    split
    · exact ih _ (Memory.isSome_read_write a' b h)
    · exact ih _ h

/-- `t` has given a value to everything that `s` has. -/
def KeepsGiven (s t : State) : Prop :=
  (∀ r, s.known.word r = true → t.known.word r = true) ∧
  (s.known.f = true → t.known.f = true) ∧ (s.known.cc = true → t.known.cc = true) ∧
  ∀ a, (Memory.read s.mem a).isSome = true → (Memory.read t.mem a).isSome = true

theorem KeepsGiven.refl (s : State) : KeepsGiven s s := ⟨fun _ => id, id, id, fun _ => id⟩

theorem KeepsGiven.trans {s t u : State} (hst : KeepsGiven s t) (htu : KeepsGiven t u) :
    KeepsGiven s u := by
  obtain ⟨word, f, cc, mem⟩ := hst
  obtain ⟨word', f', cc', mem'⟩ := htu
  exact ⟨fun r h => word' r (word r h), fun h => f' (f h), fun h => cc' (cc h),
    fun a h => mem' a (mem a h)⟩

theorem keepsGiven_setA (s : State) (v : Word) : KeepsGiven s (s.setA v) := by
  refine ⟨fun r h => ?_, id, id, fun _ => id⟩
  cases r with
  | a => rfl
  | x | l | b | s | t => exact h

theorem keepsGiven_setX (s : State) (v : Word) : KeepsGiven s (s.setX v) := by
  refine ⟨fun r h => ?_, id, id, fun _ => id⟩
  cases r with
  | x => rfl
  | a | l | b | s | t => exact h

theorem keepsGiven_setL (s : State) (v : Word) : KeepsGiven s (s.setL v) := by
  refine ⟨fun r h => ?_, id, id, fun _ => id⟩
  cases r with
  | l => rfl
  | a | x | b | s | t => exact h

theorem keepsGiven_setCC (s : State) (c : CC) : KeepsGiven s (s.setCC c) :=
  ⟨fun _ => id, id, fun _ => rfl, fun _ => id⟩

theorem keepsGiven_deviceTest (s : State) (d : Byte) : KeepsGiven s (s.deviceTest d).2 := by
  obtain ⟨left, e⟩ := deviceTest_spec s d
  rw [e]
  exact .refl s

theorem keepsGiven_deviceRead (s : State) (d : Byte) : KeepsGiven s (s.deviceRead d).2 := by
  obtain ⟨left, e⟩ := deviceRead_spec s d
  rw [e]
  exact .refl s

/-- The updates of `pc`, of the latches and of the log count nothing as given or not given, so each effect
keeps what its writes of registers, of CC and of memory keep. -/
theorem Effect.keepsGiven {s t : State} (h : Effect s t) : KeepsGiven s t := by
  cases h with
  | writeA v o => exact keepsGiven_setA s v
  | writeX v o => exact keepsGiven_setX s v
  | writeL v o => exact keepsGiven_setL s v
  | compare c o => exact keepsGiven_setCC s c
  | indexAndCompare v c o => exact (keepsGiven_setX s v).trans (keepsGiven_setCC _ c)
  | jump target => exact KeepsGiven.refl s
  | call v target => exact keepsGiven_setL s v
  | storeWord a v o inside =>
    exact ⟨fun _ => id, id, id, fun _ => Memory.isSome_read_writeBytes a.toNat (wordBytes v)⟩
  | storeByte a b o inside => exact ⟨fun _ => id, id, id, fun _ => Memory.isSome_read_write a.toNat b⟩
  | test d c o mode => exact (keepsGiven_deviceTest s d).trans (keepsGiven_setCC _ c)
  | read d v o mode latch => exact (keepsGiven_deviceRead s d).trans (keepsGiven_setA _ v)
  | write d b o mode latch => exact KeepsGiven.refl s

/-- Settles O43: every write of a register, of CC or of a byte gives it a value. -/
theorem givenStateStaysGiven : Obligations.GivenStateStaysGiven := by
  intro s t h
  rcases step_cases h with ⟨st, rfl⟩ | effect
  · exact KeepsGiven.refl s
  · exact effect.keepsGiven

end Sys2Proof.Machine

/-! # S, T and F are neither read nor written (10_state.md R15, R16) -/

namespace Sys2Proof.Machine

/-- A read that answers the same whatever S, T and F hold. -/
def ReadsNoIdle {α : Type} (read : State → Access α) : Prop :=
  ∀ s vs vt vf, read (withIdle s vs vt vf) = read s

/-- An update that does the same whatever S, T and F hold, and leaves them as they are. -/
def KeepsIdle (update : State → State) : Prop :=
  ∀ s vs vt vf, update (withIdle s vs vt vf) = withIdle (update s) vs vt vf

/-- The same of an update that may raise a fault. -/
def RunsWithoutIdle (run : State → Access State) : Prop :=
  ∀ s vs vt vf, run (withIdle s vs vt vf) = (withIdle · vs vt vf) <$> run s

/-- A read, then what is done with its answer. -/
theorem RunsWithoutIdle.bind {α : Type} {read : State → Access α} {rest : α → State → Access State}
    (hread : ReadsNoIdle read) (hrest : ∀ a, RunsWithoutIdle (rest a)) :
    RunsWithoutIdle fun s => read s >>= fun a => rest a s := by
  intro s vs vt vf
  simp only [hread s vs vt vf, fun a => hrest a s vs vt vf, map_bind]

theorem RunsWithoutIdle.update {update : State → State} (h : KeepsIdle update) :
    RunsWithoutIdle fun s => pure (update s) :=
  fun s vs vt vf => congrArg Except.ok (h s vs vt vf)

/-- An update after one that may raise a fault. -/
theorem RunsWithoutIdle.andThen {run : State → Access State} {update : State → State}
    (hrun : RunsWithoutIdle run) (h : KeepsIdle update) :
    RunsWithoutIdle fun s => run s >>= fun t => pure (update t) := by
  intro s vs vt vf
  simp only [hrun s vs vt vf, bind_map_left, fun t => h t vs vt vf, map_bind, map_pure]

/-! ## The operations -/

theorem readsNoIdle_resolveWord (m : Mnemonic) (o : Operand) :
    ReadsNoIdle fun s => s.resolveWord m o := fun _ _ _ _ => rfl

theorem readsNoIdle_resolveByte (m : Mnemonic) (o : Operand) :
    ReadsNoIdle fun s => s.resolveByte m o := fun _ _ _ _ => rfl

theorem readsNoIdle_resolveLoc (m : Mnemonic) (o : Operand) :
    ReadsNoIdle fun s => s.resolveLoc m o := fun _ _ _ _ => rfl

theorem readsNoIdle_readCC : ReadsNoIdle State.readCC := fun _ _ _ _ => rfl

theorem readsNoIdle_requireReady (d : Byte) : ReadsNoIdle (requireReady d) := fun _ _ _ _ => rfl

theorem readsNoIdle_fetchInstr : ReadsNoIdle State.fetchInstr := fun _ _ _ _ => rfl

theorem readsNoIdle_readA : ReadsNoIdle fun s => s.readReg .effect .a := fun _ _ _ _ => rfl

theorem readsNoIdle_readX : ReadsNoIdle fun s => s.readReg .effect .x := fun _ _ _ _ => rfl

theorem readsNoIdle_readL : ReadsNoIdle fun s => s.readReg .effect .l := fun _ _ _ _ => rfl

theorem runsWithoutIdle_memWriteWord (loc v : Word) :
    RunsWithoutIdle fun s => s.memWriteWord loc v := by
  intro s vs vt vf
  simp only [State.memWriteWord]
  split <;> rfl

/-- The status word is made of CC and the mode. -/
theorem runsWithoutIdle_storeStatus (loc : Word) (c : CC) :
    RunsWithoutIdle fun s => s.memWriteWord loc (Config.swImage c s.mode) :=
  fun s => runsWithoutIdle_memWriteWord loc (Config.swImage c s.mode) s

theorem runsWithoutIdle_memWriteByte (loc : Word) (b : Byte) :
    RunsWithoutIdle fun s => s.memWriteByte loc b := by
  intro s vs vt vf
  simp only [State.memWriteByte]
  split <;> rfl

/-- A TD question has the same answer, and changes the log and the stated answers in the same way. -/
theorem deviceTest_withIdle (s : State) (vs vt : Word) (vf : Float48) (d : Byte) :
    (withIdle s vs vt vf).deviceTest d =
      ((s.deviceTest d).1, withIdle (s.deviceTest d).2 vs vt vf) := by
  have hanswers : (withIdle s vs vt vf).testAnswers = s.testAnswers := rfl
  cases h : takeAnswer d s.testAnswers <;> simp only [State.deviceTest, hanswers, h] <;> rfl

theorem deviceRead_withIdle (s : State) (vs vt : Word) (vf : Float48) (d : Byte) :
    (withIdle s vs vt vf).deviceRead d =
      ((s.deviceRead d).1, withIdle (s.deviceRead d).2 vs vt vf) := by
  have hanswers : (withIdle s vs vt vf).readAnswers = s.readAnswers := rfl
  cases h : takeAnswer d s.readAnswers <;> simp only [State.deviceRead, hanswers, h] <;> rfl

theorem keepsIdle_test (d : Byte) (o : Operand) : KeepsIdle fun s =>
    (((s.deviceTest d).2.setCC (readyCC (s.deviceTest d).1)).setReady d (s.deviceTest d).1).advance o := by
  intro s vs vt vf
  simp only [deviceTest_withIdle]
  rfl

theorem keepsIdle_read (d : Byte) (a : Word) (o : Operand) : KeepsIdle fun s =>
    (((s.deviceRead d).2.setA (replaceByte a (s.deviceRead d).1)).setReady d false).advance o := by
  intro s vs vt vf
  simp only [deviceRead_withIdle]
  rfl

/-! ## The instructions -/

theorem runsWithoutIdle_loadWord {m : Mnemonic} {write : Word → State → State}
    (hwrite : ∀ v, KeepsIdle (write v)) (o : Operand) : RunsWithoutIdle (loadWord m write o) :=
  .bind (readsNoIdle_resolveWord m o) fun v => .update fun s vs vt vf =>
    congrArg (State.advance o) (hwrite v s vs vt vf)

theorem runsWithoutIdle_storeReg {m : Mnemonic} {r : WordReg}
    (hread : ReadsNoIdle fun s => s.readReg .effect r) (o : Operand) :
    RunsWithoutIdle (storeReg m r o) :=
  .bind (readsNoIdle_resolveLoc m o) fun loc => .bind hread fun v =>
    (runsWithoutIdle_memWriteWord loc v).andThen fun _ _ _ _ => rfl

theorem runsWithoutIdle_accumulate {m : Mnemonic} {f : Word → Word → Word} (o : Operand) :
    RunsWithoutIdle (accumulate m f o) :=
  .bind (readsNoIdle_resolveWord m o) fun _ =>
    .bind readsNoIdle_readA fun _ => .update fun _ _ _ _ => rfl

theorem runsWithoutIdle_jumpIf {m : Mnemonic} {want : CC} (o : Operand) :
    RunsWithoutIdle (jumpIf m want o) :=
  .bind (readsNoIdle_resolveLoc m o) fun _ => .bind readsNoIdle_readCC fun _ =>
    .update fun _ _ _ _ => rfl

/-- Every instruction is one run that neither reads nor writes S, T and F. -/
theorem exec_eq_conclude_runsWithoutIdle (i : Instr) :
    ∃ run, exec i = (fun s => conclude s (run s)) ∧ RunsWithoutIdle run := by
  cases i with
  | lda o | ldx o | ldl o => exact ⟨_, rfl, runsWithoutIdle_loadWord (fun _ _ _ _ _ => rfl) o⟩
  | sta o => exact ⟨_, rfl, runsWithoutIdle_storeReg readsNoIdle_readA o⟩
  | stx o => exact ⟨_, rfl, runsWithoutIdle_storeReg readsNoIdle_readX o⟩
  | stl o => exact ⟨_, rfl, runsWithoutIdle_storeReg readsNoIdle_readL o⟩
  | add o | sub o | mul o | and o | or o => exact ⟨_, rfl, runsWithoutIdle_accumulate o⟩
  | jeq o | jgt o | jlt o => exact ⟨_, rfl, runsWithoutIdle_jumpIf o⟩
  | div o =>
    refine ⟨_, rfl, .bind (readsNoIdle_resolveWord .div o) fun v => ?_⟩
    split
    · exact fun _ _ _ _ => rfl
    · exact .bind readsNoIdle_readA fun _ => .update fun _ _ _ _ => rfl
  | comp o =>
    exact ⟨_, rfl, .bind (readsNoIdle_resolveWord .comp o) fun _ => .bind readsNoIdle_readA fun _ =>
      .update fun _ _ _ _ => rfl⟩
  | tix o =>
    exact ⟨_, rfl, .bind (readsNoIdle_resolveWord .tix o) fun _ => .bind readsNoIdle_readX fun _ =>
      .update fun _ _ _ _ => rfl⟩
  | j o =>
    exact ⟨_, rfl, .bind (readsNoIdle_resolveLoc .j o) fun _ => .update fun _ _ _ _ => rfl⟩
  | jsub o =>
    exact ⟨_, rfl, .bind (readsNoIdle_resolveLoc .jsub o) fun _ => .update fun _ _ _ _ => rfl⟩
  | rsub o => exact ⟨_, rfl, .bind readsNoIdle_readL fun _ => .update fun _ _ _ _ => rfl⟩
  | ldch o =>
    exact ⟨_, rfl, .bind (readsNoIdle_resolveByte .ldch o) fun _ => .bind readsNoIdle_readA fun _ =>
      .update fun _ _ _ _ => rfl⟩
  | stch o =>
    exact ⟨_, rfl, .bind (readsNoIdle_resolveLoc .stch o) fun loc => .bind readsNoIdle_readA fun a =>
      (runsWithoutIdle_memWriteByte loc _).andThen fun _ _ _ _ => rfl⟩
  | stsw o =>
    exact ⟨_, rfl, .bind (readsNoIdle_resolveLoc .stsw o) fun loc => .bind readsNoIdle_readCC fun c =>
      (runsWithoutIdle_storeStatus loc c).andThen fun _ _ _ _ => rfl⟩
  | td o =>
    exact ⟨_, rfl, .bind (readsNoIdle_resolveByte .td o) fun d => .update (keepsIdle_test d o)⟩
  | rd o =>
    exact ⟨_, rfl, .bind (readsNoIdle_resolveByte .rd o) fun d =>
      .bind (readsNoIdle_requireReady d) fun _ => .bind readsNoIdle_readA fun a =>
        .update (keepsIdle_read d a o)⟩
  | wd o =>
    exact ⟨_, rfl, .bind (readsNoIdle_resolveByte .wd o) fun d =>
      .bind (readsNoIdle_requireReady d) fun _ => .bind readsNoIdle_readA fun _ =>
        .update fun _ _ _ _ => rfl⟩

/-- Concluding such a run keeps S, T and F as well: a fault leaves them alone. -/
theorem exec_withIdle (i : Instr) (s : State) (vs vt : Word) (vf : Float48) :
    exec i (withIdle s vs vt vf) = mapNext (withIdle · vs vt vf) (exec i s) := by
  obtain ⟨run, hexec, hrun⟩ := exec_eq_conclude_runsWithoutIdle i
  simp only [hexec, hrun s vs vt vf]
  cases run s <;> rfl

/-- Settles O45: the status, the end of the run and the fetch do not look at S, T and F, and no instruction
does (`exec_withIdle`). -/
theorem idleRegistersAreNeitherReadNorWritten :
    Obligations.IdleRegistersAreNeitherReadNorWritten := by
  intro s vs vt vf
  have hstatus : (withIdle s vs vt vf).status = s.status := rfl
  have hpc : (withIdle s vs vt vf).pc = s.pc := rfl
  have hexit : (withIdle s vs vt vf).exitAddr = s.exitAddr := rfl
  simp only [step, hstatus, hpc, hexit, readsNoIdle_fetchInstr s vs vt vf]
  cases s.status with
  | exited | faulted c a => rfl
  | running =>
    by_cases hend : s.pc = s.exitAddr
    · simp only [hend, if_true]
      rfl
    · simp only [hend, if_false]
      cases s.fetchInstr with
      | error c => rfl
      | ok i => exact exec_withIdle i s vs vt vf

end Sys2Proof.Machine

/-! # What each instruction changes and what it leaves unchanged (10_state.md section 1,
20_memory.md section 4) -/

namespace Sys2Proof.Machine

/-! ## The effect of each mnemonic -/

/-- What the instruction of mnemonic `m` and operand part `o` does to the state `s` it begins in when it
completes: `Effect` with the instructions each shape of effect belongs to, the operand it uses and, where a
frame speaks of it, the value written. -/
inductive Completes (s : State) (m : Mnemonic) (o : Operand) : State → Prop
  | writeA (v : Word) (hm : m ∈ [.lda, .add, .sub, .mul, .div, .and, .or]) :
      Completes s m o ((s.setA v).advance o)
  | loadByte (a : Word) (b : Byte) (hm : m = .ldch) (ha : s.readReg .effect .a = .ok a) :
      Completes s m o ((s.setA (replaceByte a b)).advance o)
  | writeX (v : Word) (hm : m = .ldx) : Completes s m o ((s.setX v).advance o)
  | writeL (v : Word) (hm : m = .ldl) : Completes s m o ((s.setL v).advance o)
  | compare (c : CC) (hm : m = .comp) : Completes s m o ((s.setCC c).advance o)
  | indexAndCompare (v : Word) (c : CC) (hm : m = .tix) :
      Completes s m o (((s.setX v).setCC c).advance o)
  | jump (target : Word) (hm : m ∈ [.j, .jeq, .jgt, .jlt, .rsub]) : Completes s m o (s.jump target)
  | call (v target : Word) (hm : m = .jsub) : Completes s m o ((s.setL v).jump target)
  | storeWord (loc v : Word) (hm : m ∈ [.sta, .stx, .stl, .stsw]) (hloc : s.resolveLoc m o = .ok loc) :
      Completes s m o (State.advance o { s with mem := Memory.writeBytes s.mem loc.toNat (wordBytes v) })
  | storeByte (loc : Word) (b : Byte) (hm : m = .stch) (hloc : s.resolveLoc m o = .ok loc) :
      Completes s m o (State.advance o { s with mem := Memory.write s.mem loc.toNat b })
  | test (d : Byte) (hm : m = .td) (hd : s.resolveByte m o = .ok d) :
      Completes s m o
        ((((s.deviceTest d).2.setCC (readyCC (s.deviceTest d).1)).setReady d (s.deviceTest d).1).advance o)
  | read (d : Byte) (a : Word) (hm : m = .rd) (hd : s.resolveByte m o = .ok d)
      (ha : s.readReg .effect .a = .ok a) :
      Completes s m o
        ((((s.deviceRead d).2.setA (replaceByte a (s.deviceRead d).1)).setReady d false).advance o)
  | write (d b : Byte) (hm : m = .wd) (hd : s.resolveByte m o = .ok d) :
      Completes s m o (((s.deviceWrite d b).setReady d false).advance o)

/-- What an instruction that is concluded answers: a raise, or what its run completes with. -/
theorem raise_or_of_conclude {s t : State} {r : Access State} {P : Prop}
    (h : conclude s r = .next t) (hP : r = .ok t → P) : (∃ c, t = s.raise c) ∨ P :=
  (conclude_eq_next.mp h).symm.imp (fun ⟨c, _, ht⟩ => ⟨c, ht⟩) hP

theorem completes_of_storeReg {s t : State} {m : Mnemonic} {r : WordReg} {o : Operand}
    (hm : m ∈ [.sta, .stx, .stl, .stsw]) (h : storeReg m r o s = .ok t) : Completes s m o t := by
  obtain ⟨loc, v, u, hloc, _, hu, rfl⟩ := storeReg_eq_ok.mp h
  obtain ⟨_, rfl⟩ := memWriteWord_eq_ok.mp hu
  exact .storeWord loc v hm hloc

theorem completes_of_accumulate {s t : State} {m : Mnemonic} {f : Word → Word → Word} {o : Operand}
    (hm : m ∈ [.lda, .add, .sub, .mul, .div, .and, .or]) (h : accumulate m f o s = .ok t) :
    Completes s m o t := by
  obtain ⟨v, a, _, _, rfl⟩ := accumulate_eq_ok.mp h
  exact .writeA _ hm

theorem completes_of_jumpIf {s t : State} {m : Mnemonic} {want : CC} {o : Operand}
    (hm : m ∈ [.j, .jeq, .jgt, .jlt, .rsub]) (h : jumpIf m want o s = .ok t) : Completes s m o t := by
  obtain ⟨loc, c, _, _, rfl⟩ := jumpIf_eq_ok.mp h
  exact .jump _ hm

/-- Everything `exec` can answer, mnemonic by mnemonic: a raise, or what the instruction completes with. -/
theorem exec_instr_completes {s t : State} {m : Mnemonic} {o : Operand}
    (h : exec (m.instr o) s = .next t) : (∃ c, t = s.raise c) ∨ Completes s m o t := by
  cases m with
  | lda =>
    refine raise_or_of_conclude h fun h => ?_
    obtain ⟨v, _, rfl⟩ := loadWord_eq_ok.mp h
    exact .writeA v (by decide)
  | ldx =>
    refine raise_or_of_conclude h fun h => ?_
    obtain ⟨v, _, rfl⟩ := loadWord_eq_ok.mp h
    exact .writeX v rfl
  | ldl =>
    refine raise_or_of_conclude h fun h => ?_
    obtain ⟨v, _, rfl⟩ := loadWord_eq_ok.mp h
    exact .writeL v rfl
  | add | sub | mul | and | or =>
    exact raise_or_of_conclude h (completes_of_accumulate (by decide))
  | sta | stx | stl =>
    exact raise_or_of_conclude h (completes_of_storeReg (by decide))
  | jeq | jgt | jlt =>
    exact raise_or_of_conclude h (completes_of_jumpIf (by decide))
  | div =>
    refine raise_or_of_conclude h fun h => ?_
    obtain ⟨v, _, h⟩ := access_bind_eq_ok.mp h
    split at h
    · cases h
    · obtain ⟨a, _, h⟩ := access_bind_eq_ok.mp h
      cases h
      exact .writeA _ (by decide)
  | comp =>
    refine raise_or_of_conclude h fun h => ?_
    simp only [access_bind_eq_ok, access_pure, Except.ok.injEq] at h
    obtain ⟨v, _, a, _, rfl⟩ := h
    exact .compare _ rfl
  | tix =>
    refine raise_or_of_conclude h fun h => ?_
    simp only [access_bind_eq_ok, access_pure, Except.ok.injEq] at h
    obtain ⟨v, _, x, _, rfl⟩ := h
    exact .indexAndCompare _ _ rfl
  | ldch =>
    refine raise_or_of_conclude h fun h => ?_
    simp only [access_bind_eq_ok, access_pure, Except.ok.injEq] at h
    obtain ⟨v, _, a, ha, rfl⟩ := h
    exact .loadByte a v rfl ha
  | j | rsub =>
    refine raise_or_of_conclude h fun h => ?_
    simp only [access_bind_eq_ok, access_pure, Except.ok.injEq] at h
    obtain ⟨target, _, rfl⟩ := h
    exact .jump target (by decide)
  | jsub =>
    refine raise_or_of_conclude h fun h => ?_
    simp only [access_bind_eq_ok, access_pure, Except.ok.injEq] at h
    obtain ⟨target, _, rfl⟩ := h
    exact .call _ target rfl
  | stch =>
    refine raise_or_of_conclude h fun h => ?_
    simp only [access_bind_eq_ok, access_pure, Except.ok.injEq] at h
    obtain ⟨loc, hloc, a, _, u, hu, rfl⟩ := h
    obtain ⟨_, rfl⟩ := memWriteByte_eq_ok.mp hu
    exact .storeByte loc _ rfl hloc
  | stsw =>
    refine raise_or_of_conclude h fun h => ?_
    simp only [access_bind_eq_ok, access_pure, Except.ok.injEq] at h
    obtain ⟨loc, hloc, c, _, u, hu, rfl⟩ := h
    obtain ⟨_, rfl⟩ := memWriteWord_eq_ok.mp hu
    exact .storeWord loc _ (by decide) hloc
  | td =>
    refine raise_or_of_conclude h fun h => ?_
    simp only [access_bind_eq_ok, access_pure, Except.ok.injEq] at h
    obtain ⟨d, hd, rfl⟩ := h
    exact .test d rfl hd
  | rd =>
    refine raise_or_of_conclude h fun h => ?_
    simp only [access_bind_eq_ok, access_pure, Except.ok.injEq] at h
    obtain ⟨d, hd, _, _, a, ha, rfl⟩ := h
    exact .read d a rfl hd ha
  | wd =>
    refine raise_or_of_conclude h fun h => ?_
    simp only [access_bind_eq_ok, access_pure, Except.ok.injEq] at h
    obtain ⟨d, hd, _, _, a, _, rfl⟩ := h
    exact .write d _ rfl hd

theorem exec_completes {i : Instr} {s t : State} (h : exec i s = .next t) :
    (∃ c, t = s.raise c) ∨ Completes s i.mnemonic i.operand t :=
  exec_instr_completes (by rwa [Instr.instr_mnemonic_operand])

/-- In a running machine that goes on running the instruction completed. -/
theorem completes_of_running {m : Mnemonic} {o : Operand} {s t : State}
    (h : exec (m.instr o) s = .next t) (hrun : t.status = .running) : Completes s m o t := by
  rcases exec_instr_completes h with ⟨c, rfl⟩ | done
  · cases hrun
  · exact done

/-! ## The condition code (10_state.md R21, 43_io_system.md R163) -/

theorem Completes.cc_eq {s t : State} {m : Mnemonic} {o : Operand} (h : Completes s m o t)
    (hcomp : m ≠ .comp) (htix : m ≠ .tix) (htd : m ≠ .td) :
    t.cc = s.cc ∧ t.known.cc = s.known.cc := by
  cases h
  case compare hm => exact absurd hm hcomp
  case indexAndCompare hm => exact absurd hm htix
  case test hm _ => exact absurd hm htd
  case read d a _ _ _ =>
    obtain ⟨left, e⟩ := deviceRead_spec s d
    simp [e]
  all_goals exact ⟨rfl, rfl⟩

theorem readyCC_ne_gt (r : Bool) : readyCC r = .lt ∨ readyCC r = .eq := by
  cases r
  · exact .inr rfl
  · exact .inl rfl

/-- Settles O46: of the effects only three write CC (`Completes.cc_eq`), and TD's writes an answer. -/
theorem conditionCodeWriters : Obligations.ConditionCodeWriters := by
  refine ⟨?only, ?td⟩
  case only =>
    intro i s t h hcomp htix htd
    rcases exec_completes h with ⟨c, rfl⟩ | done
    · exact ⟨rfl, rfl⟩
    · exact done.cc_eq hcomp htix htd
  case td =>
    intro o s t _ h hrun
    cases completes_of_running (m := .td) h hrun
    case test => exact readyCC_ne_gt _
    all_goals contradiction

/-! ## A, X and L (10_state.md R11 to R13) -/

theorem Completes.rA_eq {s t : State} {m : Mnemonic} {o : Operand} (h : Completes s m o t)
    (hm : m ∉ [.add, .sub, .mul, .div, .and, .or, .lda, .ldch, .rd]) :
    t.rA = s.rA ∧ t.known.a = s.known.a := by
  cases h
  case writeA hm' =>
    have sub : [Mnemonic.lda, .add, .sub, .mul, .div, .and, .or] ⊆
        [.add, .sub, .mul, .div, .and, .or, .lda, .ldch, .rd] := by decide
    exact absurd (sub hm') hm
  case loadByte hm' _ => simp [hm'] at hm
  case read hm' _ _ => simp [hm'] at hm
  case test d _ _ =>
    obtain ⟨left, e⟩ := deviceTest_spec s d
    simp [e]
  all_goals exact ⟨rfl, rfl⟩

theorem Completes.rX_eq {s t : State} {m : Mnemonic} {o : Operand} (h : Completes s m o t)
    (hm : m ∉ [.ldx, .tix]) : t.rX = s.rX ∧ t.known.x = s.known.x := by
  cases h
  case writeX hm' => simp [hm'] at hm
  case indexAndCompare hm' => simp [hm'] at hm
  case test d _ _ =>
    obtain ⟨left, e⟩ := deviceTest_spec s d
    simp [e]
  case read d a _ _ _ =>
    obtain ⟨left, e⟩ := deviceRead_spec s d
    simp [e]
  all_goals exact ⟨rfl, rfl⟩

theorem Completes.rL_eq {s t : State} {m : Mnemonic} {o : Operand} (h : Completes s m o t)
    (hm : m ∉ [.ldl, .jsub]) : t.rL = s.rL ∧ t.known.l = s.known.l := by
  cases h
  case writeL hm' => simp [hm'] at hm
  case call hm' => simp [hm'] at hm
  case test d _ _ =>
    obtain ⟨left, e⟩ := deviceTest_spec s d
    simp [e]
  case read d a _ _ _ =>
    obtain ⟨left, e⟩ := deviceRead_spec s d
    simp [e]
  all_goals exact ⟨rfl, rfl⟩

/-- Bits 23:8 of a register whose rightmost byte is replaced. -/
theorem replaceByte_upper (a : Word) (b : Byte) :
    (replaceByte a b).extractLsb' 8 16 = a.extractLsb' 8 16 :=
  BitVec.extractLsb'_append_eq_left

theorem replaceByte_lower (a : Word) (b : Byte) : (replaceByte a b).extractLsb' 0 8 = b :=
  BitVec.extractLsb'_append_eq_right

/-- LDCH and RD replace the rightmost byte of what A holds. -/
theorem Completes.rA_upper {s t : State} {m : Mnemonic} {o : Operand} (h : Completes s m o t)
    (hknown : s.known.a = true) (hm : m = .ldch ∨ m = .rd) :
    t.rA.extractLsb' 8 16 = s.rA.extractLsb' 8 16 := by
  have hread : ∀ a, s.readReg .effect .a = .ok a → a = s.rA := fun a ha => by
    rw [readReg_of_known (r := .a) hknown] at ha
    exact (Except.ok.inj ha).symm
  rcases hm with rfl | rfl <;> cases h
  case inl.loadByte a b _ ha =>
    rw [← hread a ha]
    exact replaceByte_upper a b
  case inr.read d a _ _ ha =>
    rw [← hread a ha]
    exact replaceByte_upper a _
  all_goals contradiction

/-- Settles O47: register by register, from the effects that write it. -/
theorem wordRegisterWriters : Obligations.WordRegisterWriters := by
  intro i s t h
  rcases exec_completes h with ⟨c, rfl⟩ | done
  · exact ⟨fun _ => ⟨rfl, rfl⟩, fun _ => ⟨rfl, rfl⟩, fun _ => ⟨rfl, rfl⟩, fun _ _ => rfl⟩
  · exact ⟨done.rA_eq, done.rX_eq, done.rL_eq, done.rA_upper⟩

/-! ## Memory (20_memory.md R44) -/

theorem Completes.mem_eq {s t : State} {m : Mnemonic} {o : Operand} (h : Completes s m o t)
    (hm : m ∉ [.sta, .stx, .stl, .stch, .stsw]) : t.mem = s.mem := by
  cases h
  case storeWord hm' _ =>
    have sub : [Mnemonic.sta, .stx, .stl, .stsw] ⊆ [.sta, .stx, .stl, .stch, .stsw] := by decide
    exact absurd (sub hm') hm
  case storeByte hm' _ => simp [hm'] at hm
  case test d _ _ =>
    obtain ⟨left, e⟩ := deviceTest_spec s d
    simp [e]
  case read d a _ _ _ =>
    obtain ⟨left, e⟩ := deviceRead_spec s d
    simp [e]
  all_goals rfl

/-- Settles O48: an instruction that stores nothing leaves the memory itself as it was. -/
theorem onlyStoresChangeMemory : Obligations.OnlyStoresChangeMemory := by
  intro i s t h hm a
  rcases exec_completes h with ⟨c, rfl⟩ | done
  · rfl
  · rw [done.mem_eq hm]

/-- `t` is `s` but for memory outside `[loc, loc + count)`, `pc`, the run status and the draws. -/
def StoresOnly (s t : State) (loc count : Nat) : Prop :=
  (∀ a, a < loc ∨ loc + count ≤ a → Memory.read t.mem a = Memory.read s.mem a) ∧
  t = { s with mem := t.mem, pc := t.pc, status := t.status, draws := t.draws }

theorem storesOnly_word (s : State) (o : Operand) (loc : Nat) (v : Word) :
    StoresOnly s (State.advance o { s with mem := Memory.writeBytes s.mem loc (wordBytes v) }) loc 3 :=
  ⟨fun _ ha => Memory.read_writeBytes_other ha, rfl⟩

theorem storesOnly_byte (s : State) (o : Operand) (loc : Nat) (b : Byte) :
    StoresOnly s (State.advance o { s with mem := Memory.write s.mem loc b }) loc 1 :=
  ⟨fun _ ha => Memory.read_write_other (by omega), rfl⟩

theorem Completes.storesOnly {s t : State} {m : Mnemonic} {o : Operand} {loc : Word}
    (h : Completes s m o t) (hm : m ∈ [.sta, .stx, .stl, .stch, .stsw])
    (hloc : s.resolveLoc m o = .ok loc) : StoresOnly s t loc.toNat (if m = .stch then 1 else 3) := by
  cases h
  case storeWord loc' v hm' hloc' =>
    cases hloc.symm.trans hloc'
    have hne : m ≠ .stch := by
      rintro rfl
      contradiction
    rw [if_neg hne]
    exact storesOnly_word s o loc.toNat v
  case storeByte loc' b hm' hloc' =>
    cases hloc.symm.trans hloc'
    rw [if_pos hm']
    exact storesOnly_byte s o loc.toNat b
  all_goals
    simp only [List.mem_cons, List.not_mem_nil, or_false] at hm
    rcases hm with rfl | rfl | rfl | rfl | rfl <;> contradiction

/-- Settles O49: a store that completes writes at the location its operand gives (`Completes`); one that
raises changes the run status alone. -/
theorem storesChangeOnlyTheirBytes : Obligations.StoresChangeOnlyTheirBytes := by
  intro m o s t loc hm hloc h
  rcases exec_instr_completes h with ⟨c, rfl⟩ | done
  · exact ⟨fun _ _ => rfl, rfl⟩
  · exact done.storesOnly hm hloc

/-! ## The devices (20_memory.md R53, 10_state.md R27) -/

/-- `t` has the latches, the log and the stated answers of `s`. -/
def SameDevices (s t : State) : Prop :=
  t.deviceLog = s.deviceLog ∧ t.ready = s.ready ∧ t.testAnswers = s.testAnswers ∧
    t.readAnswers = s.readAnswers

theorem Completes.sameDevices {s t : State} {m : Mnemonic} {o : Operand} (h : Completes s m o t)
    (hm : m ∉ [.td, .rd, .wd]) : SameDevices s t := by
  cases h
  case test hm' _ => simp [hm'] at hm
  case read hm' _ _ => simp [hm'] at hm
  case write hm' _ => simp [hm'] at hm
  all_goals exact ⟨rfl, rfl, rfl, rfl⟩

/-- `t` has one event `e` more than `s`, and no latch but that of `d` changed. -/
def Asks (s t : State) (d : Byte) (e : DeviceEvent) : Prop :=
  t.deviceLog = s.deviceLog ++ [e] ∧ ∀ k, k ≠ d → t.isReady k = s.isReady k

theorem asks_of_setReady {s t : State} {d : Byte} {e : DeviceEvent} {r : Bool}
    (hlog : t.deviceLog = s.deviceLog ++ [e]) (hready : t.ready = (s.setReady d r).ready) :
    Asks s t d e := by
  refine ⟨hlog, fun k hk => ?_⟩
  have ht : t.isReady k = (s.setReady d r).isReady k := by
    unfold State.isReady
    rw [hready]
  rw [ht, isReady_setReady, if_neg hk]

/-- `e` is the event of the instruction, put to device `d`. -/
def EventOf (m : Mnemonic) (d : Byte) (e : DeviceEvent) : Prop :=
  (m = .td → ∃ r, e = .tested d r) ∧ (m = .rd → ∃ b, e = .read d b) ∧ (m = .wd → ∃ b, e = .wrote d b)

theorem Completes.asks {s t : State} {m : Mnemonic} {o : Operand} {d : Byte} (h : Completes s m o t)
    (hm : m ∈ [.td, .rd, .wd]) (hd : s.resolveByte m o = .ok d) : ∃ e, Asks s t d e ∧ EventOf m d e := by
  cases h
  case test d' hm' hd' =>
    cases hd.symm.trans hd'
    obtain ⟨left, e⟩ := deviceTest_spec s d
    subst hm'
    exact ⟨.tested d (s.deviceTest d).1, asks_of_setReady (congrArg State.deviceLog e :)
      (congrArg (Vector.set · d.toNat (s.deviceTest d).1 d.isLt) (s.deviceTest_ready d)),
      fun _ => ⟨_, rfl⟩, nofun, nofun⟩
  case read d' a hm' hd' _ =>
    cases hd.symm.trans hd'
    obtain ⟨left, e⟩ := deviceRead_spec s d
    subst hm'
    exact ⟨.read d (s.deviceRead d).1, asks_of_setReady (congrArg State.deviceLog e :)
      (congrArg (Vector.set · d.toNat false d.isLt) (s.deviceRead_ready d)),
      nofun, fun _ => ⟨_, rfl⟩, nofun⟩
  case write d' b hm' hd' =>
    cases hd.symm.trans hd'
    subst hm'
    exact ⟨.wrote d b, asks_of_setReady rfl rfl, nofun, nofun, fun _ => ⟨b, rfl⟩⟩
  all_goals
    simp only [List.mem_cons, List.not_mem_nil, or_false] at hm
    rcases hm with rfl | rfl | rfl <;> contradiction

/-- Settles O50: only the three device effects touch the devices, and each of them asks the device its operand
names once. -/
theorem onlyDeviceInstructionsAskDevices : Obligations.OnlyDeviceInstructionsAskDevices := by
  refine ⟨?others, ?device⟩
  case others =>
    intro i s t h hm
    rcases exec_completes h with ⟨c, rfl⟩ | done
    · exact ⟨rfl, rfl, rfl, rfl⟩
    · exact done.sameDevices hm
  case device =>
    intro m o s t d hm _ hd h hrun
    obtain ⟨e, ⟨hlog, hready⟩, hevent⟩ := (completes_of_running h hrun).asks hm hd
    exact ⟨⟨e, hlog, hevent⟩, hready⟩

end Sys2Proof.Machine

/-! # The memory primitives (20_memory.md R41, R44, 60_exceptions.md R187) -/

namespace Sys2Proof.Machine

/-! ## A word and its three bytes -/

/-- The three bytes of a word, taken from the joined word. -/
theorem wordOfBytes_parts (b0 b1 b2 : Byte) :
    (wordOfBytes b0 b1 b2).extractLsb' 16 8 = b0 ∧ (wordOfBytes b0 b1 b2).extractLsb' 8 8 = b1 ∧
      (wordOfBytes b0 b1 b2).extractLsb' 0 8 = b2 := by
  unfold wordOfBytes
  refine ⟨?_, ?_, BitVec.extractLsb'_append_eq_right⟩
  · rw [BitVec.extractLsb'_append_eq_of_le (by decide)]
    exact BitVec.extractLsb'_append_eq_left
  · rw [BitVec.extractLsb'_append_eq_of_le (by decide)]
    exact BitVec.extractLsb'_append_eq_right

theorem wordOfBytes_upper (v : Word) (b : Byte) :
    wordOfBytes (v.extractLsb' 16 8) (v.extractLsb' 8 8) b = v.extractLsb' 8 16 ++ b := by
  rw [wordOfBytes, BitVec.extractLsb'_append_extractLsb'_eq_extractLsb' (start₁ := 8) (len₁ := 8)
    (start₂ := 16) rfl]

theorem wordOfBytes_self (v : Word) :
    wordOfBytes (v.extractLsb' 16 8) (v.extractLsb' 8 8) (v.extractLsb' 0 8) = v := by
  rw [wordOfBytes_upper]
  exact BitVec.extractLsb'_append_extractLsb' (w := 16)

/-! ## One byte -/

theorem loadByte_of_given {s : State} {site : ReadSite} {a : Nat} {b : Byte}
    (h : Memory.read s.mem a = some b) : s.loadByte site a = .ok b :=
  loadByte_eq_ok.mpr (.inl h)

theorem loadByte_of_fault {s : State} {site : ReadSite} {a : Nat} (hp : s.policy = .fault)
    (h : Memory.read s.mem a = none) :
    s.loadByte site a = .error (.uninitializedRead (.memoryByte a)) := by
  simp [State.loadByte, h, hp]

/-- Under draw a byte always reads: as it is where it is given, else as a free value. -/
theorem loadByte_of_draw {s : State} (site : ReadSite) (a : Nat) (hp : s.policy = .draw) :
    ∃ b, s.loadByte site a = .ok b ∧ ∀ b', Memory.read s.mem a = some b' → b = b' := by
  cases h : Memory.read s.mem a with
  | none => exact ⟨_, loadByte_eq_ok.mpr (.inr ⟨h, hp, rfl⟩), nofun⟩
  | some b => exact ⟨b, loadByte_of_given h, fun _ => Option.some.inj⟩

theorem memReadByte_of_inside {s : State} {site : ReadSite} {addr : Word}
    (h : addr.toNat < Config.memBytes) : s.memReadByte site addr = s.loadByte site addr.toNat :=
  if_pos h

theorem memReadByte_of_outside {s : State} {site : ReadSite} {addr : Word}
    (h : Config.memBytes ≤ addr.toNat) :
    s.memReadByte site addr = .error (.addressFault .read addr.toNat) :=
  if_neg (Nat.not_lt.mpr h)

theorem memWriteByte_of_inside {s : State} {addr : Word} (b : Byte)
    (h : addr.toNat < Config.memBytes) :
    s.memWriteByte addr b = .ok { s with mem := Memory.write s.mem addr.toNat b } :=
  memWriteByte_eq_ok.mpr ⟨h, rfl⟩

theorem memWriteByte_of_outside {s : State} {addr : Word} (b : Byte)
    (h : Config.memBytes ≤ addr.toNat) :
    s.memWriteByte addr b = .error (.addressFault .write addr.toNat) :=
  if_neg (Nat.not_lt.mpr h)

theorem memReadByte_of_bytesAt {s : State} {site : ReadSite} {addr : Word} {b : Byte}
    (h : BytesAt s.mem addr.toNat [b]) : s.memReadByte site addr = .ok b := by
  obtain ⟨hinside, hread⟩ := h 0 b rfl
  rw [memReadByte_of_inside hinside]
  exact loadByte_of_given hread

/-! ## Three bytes -/

theorem memReadWord_of_outside {s : State} {site : ReadSite} {addr : Word}
    (h : Config.memBytes ≤ addr.toNat + 2) :
    s.memReadWord site addr = .error (.addressFault .read addr.toNat) :=
  if_neg (Nat.not_lt.mpr h)

theorem memWriteWord_of_inside {s : State} {addr : Word} (v : Word)
    (h : addr.toNat + 2 < Config.memBytes) :
    s.memWriteWord addr v = .ok { s with mem := Memory.writeBytes s.mem addr.toNat (wordBytes v) } :=
  memWriteWord_eq_ok.mpr ⟨h, rfl⟩

theorem memWriteWord_of_outside {s : State} {addr : Word} (v : Word)
    (h : Config.memBytes ≤ addr.toNat + 2) :
    s.memWriteWord addr v = .error (.addressFault .write addr.toNat) :=
  if_neg (Nat.not_lt.mpr h)

theorem memReadWord_of_loadByte {s : State} {site : ReadSite} {addr : Word} {b0 b1 b2 : Byte}
    (hinside : addr.toNat + 2 < Config.memBytes) (h0 : s.loadByte site addr.toNat = .ok b0)
    (h1 : s.loadByte site (addr.toNat + 1) = .ok b1) (h2 : s.loadByte site (addr.toNat + 2) = .ok b2) :
    s.memReadWord site addr = .ok (wordOfBytes b0 b1 b2) :=
  memReadWord_eq_ok.mpr ⟨hinside, b0, b1, b2, h0, h1, h2, rfl⟩

theorem memReadWord_of_wordAt {s : State} {site : ReadSite} {addr v : Word}
    (h : WordAt s.mem addr.toNat v) : s.memReadWord site addr = .ok v := by
  obtain ⟨hinside, h0, h1, h2⟩ := h
  rw [memReadWord_of_loadByte hinside (loadByte_of_given h0) (loadByte_of_given h1)
    (loadByte_of_given h2), wordOfBytes_self]

/-- The bytes of a word that was written read back. -/
theorem wordAt_writeBytes (m : Memory) {a : Nat} (v : Word) (h : a + 2 < Config.memBytes) :
    WordAt (Memory.writeBytes m a (wordBytes v)) a v :=
  ⟨h, Memory.read_writeBytes_at (k := 0) rfl (by omega),
    Memory.read_writeBytes_at (k := 1) rfl (by omega), Memory.read_writeBytes_at (k := 2) rfl h⟩

/-- The lowest byte without a value is the one whose read raises (log 18). -/
theorem memReadWord_of_fault {s : State} {site : ReadSite} {addr : Word} {k : Nat}
    (hinside : addr.toNat + 2 < Config.memBytes) (hp : s.policy = .fault) (hk : k < 3)
    (hnone : Memory.read s.mem (addr.toNat + k) = none)
    (hbelow : ∀ j < k, Memory.read s.mem (addr.toNat + j) ≠ none) :
    s.memReadWord site addr = .error (.uninitializedRead (.memoryByte (addr.toNat + k))) := by
  have given : ∀ j < k, ∃ b, s.loadByte site (addr.toNat + j) = .ok b := fun j hj => by
    obtain ⟨b, hb⟩ := Option.ne_none_iff_exists'.mp (hbelow j hj)
    exact ⟨b, loadByte_of_given hb⟩
  have raises := loadByte_of_fault (site := site) hp hnone
  rw [State.memReadWord, if_pos hinside]
  match k, hk with
  | 0, _ => exact access_bind_eq_error.mpr (.inl raises)
  | 1, _ =>
    obtain ⟨b0, h0⟩ := given 0 (by decide)
    exact access_bind_eq_error.mpr (.inr ⟨b0, h0, access_bind_eq_error.mpr (.inl raises)⟩)
  | 2, _ =>
    obtain ⟨b0, h0⟩ := given 0 (by decide)
    obtain ⟨b1, h1⟩ := given 1 (by decide)
    exact access_bind_eq_error.mpr (.inr ⟨b0, h0, access_bind_eq_error.mpr
      (.inr ⟨b1, h1, access_bind_eq_error.mpr (.inl raises)⟩)⟩)

/-- Under draw a word always reads, with its given bytes as they are. -/
theorem memReadWord_of_draw {s : State} {site : ReadSite} {addr : Word}
    (hinside : addr.toNat + 2 < Config.memBytes) (hp : s.policy = .draw) :
    ∃ v, s.memReadWord site addr = .ok v ∧
      ∀ j < 3, ∀ b, Memory.read s.mem (addr.toNat + j) = some b → v.extractLsb' (16 - 8 * j) 8 = b := by
  obtain ⟨b0, h0, given0⟩ := loadByte_of_draw site addr.toNat hp
  obtain ⟨b1, h1, given1⟩ := loadByte_of_draw site (addr.toNat + 1) hp
  obtain ⟨b2, h2, given2⟩ := loadByte_of_draw site (addr.toNat + 2) hp
  obtain ⟨part0, part1, part2⟩ := wordOfBytes_parts b0 b1 b2
  refine ⟨_, memReadWord_of_loadByte hinside h0 h1 h2, fun j hj b hb => ?_⟩
  match j, hj with
  | 0, _ => exact part0.trans (given0 b hb)
  | 1, _ => exact part1.trans (given1 b hb)
  | 2, _ => exact part2.trans (given2 b hb)

/-- Settles O13: out of range both widths raise; in range each byte is read and written on its own. -/
theorem memoryPrimitives : Obligations.MemoryPrimitives := by
  intro s site addr
  refine ⟨?byteOutside, ?wordOutside, ?byteInside, ?wordInside⟩
  case byteOutside =>
    exact fun h => ⟨memReadByte_of_outside h, fun b => memWriteByte_of_outside b h⟩
  case wordOutside =>
    exact fun h => ⟨memReadWord_of_outside h, fun v => memWriteWord_of_outside v h⟩
  case byteInside =>
    intro h
    refine ⟨fun b hb => ?given, fun hnone => ?unspecified, fun b => ?written⟩
    case given => exact (memReadByte_of_inside h).trans (loadByte_of_given hb)
    case unspecified =>
      rw [memReadByte_of_inside h]
      cases hp : s.policy with
      | fault => exact loadByte_of_fault hp hnone
      | draw =>
        obtain ⟨b, hb, _⟩ := loadByte_of_draw site addr.toNat hp
        exact ⟨b, hb⟩
    case written =>
      exact ⟨_, memWriteByte_of_inside b h, Memory.read_write_same _ _ _,
        fun a ha => Memory.read_write_other ha⟩
  case wordInside =>
    intro h
    refine ⟨fun v => memReadWord_of_wordAt, fun k hk hnone hbelow => ?unspecified, fun v => ?written⟩
    case unspecified =>
      cases hp : s.policy with
      | fault => exact memReadWord_of_fault h hp hk hnone hbelow
      | draw => exact memReadWord_of_draw h hp
    case written =>
      exact ⟨_, memWriteWord_of_inside v h, wordAt_writeBytes _ v h,
        fun a ha => Memory.read_writeBytes_other ha⟩

/-! ## Accesses of mixed width -/

/-- Inside memory the next addresses do not wrap. -/
theorem toNat_add_of_inside {a : Word} {k : Nat} (hk : k ≤ 2) (h : a.toNat + 2 < Config.memBytes) :
    (a + BitVec.ofNat 24 k).toNat = a.toNat + k := by
  unfold Config.memBytes at h
  rw [BitVec.toNat_add, BitVec.toNat_ofNat]
  omega

theorem memReadByte_of_wordAt {s : State} {site : ReadSite} {a v : Word}
    (h : WordAt s.mem a.toNat v) :
    s.memReadByte site a = .ok (v.extractLsb' 16 8) ∧
      s.memReadByte site (a + 1#24) = .ok (v.extractLsb' 8 8) ∧
      s.memReadByte site (a + 2#24) = .ok (v.extractLsb' 0 8) := by
  obtain ⟨hinside, h0, h1, h2⟩ := h
  have addr1 : (a + 1#24).toNat = a.toNat + 1 := toNat_add_of_inside (by decide) hinside
  have addr2 : (a + 2#24).toNat = a.toNat + 2 := toNat_add_of_inside (by decide) hinside
  refine ⟨?_, ?_, ?_⟩
  · rw [memReadByte_of_inside (by omega), loadByte_of_given h0]
  · rw [memReadByte_of_inside (by omega), addr1, loadByte_of_given h1]
  · rw [memReadByte_of_inside (by omega), addr2, loadByte_of_given h2]

/-- Settles O14: both widths see the same three bytes, the most significant first. -/
theorem mixedWidthAccessSeesByteOrder : Obligations.MixedWidthAccessSeesByteOrder := by
  refine ⟨?bytesOfWord, ?wordOfByte⟩
  case bytesOfWord =>
    intro s t site a v h
    obtain ⟨hinside, rfl⟩ := memWriteWord_eq_ok.mp h
    have written := wordAt_writeBytes s.mem v hinside
    obtain ⟨h0, h1, h2⟩ := memReadByte_of_wordAt (site := site)
      (s := { s with mem := Memory.writeBytes s.mem a.toNat (wordBytes v) }) written
    exact ⟨h0, h1, h2, memReadWord_of_wordAt written⟩
  case wordOfByte =>
    rintro s t site a v c ⟨hinside, h0, h1, _⟩ h
    obtain ⟨_, rfl⟩ := memWriteByte_eq_ok.mp h
    have addr2 : (a + 2#24).toNat = a.toNat + 2 := toNat_add_of_inside (by decide) hinside
    rw [addr2, ← wordOfBytes_upper]
    exact memReadWord_of_loadByte hinside
      (loadByte_of_given ((Memory.read_write_other (by omega)).trans h0))
      (loadByte_of_given ((Memory.read_write_other (by omega)).trans h1))
      (loadByte_of_given (Memory.read_write_same _ _ _))

end Sys2Proof.Machine

/-! # Addressing (30_encoding.md R70 to R75) -/

namespace Sys2Proof

/-- Where the flags are legal, b and p alone decide what the operand is relative to. -/
theorem legalRelative_eq_relative? {m : Mnemonic} {o : Operand} (h : legalRelative m o ≠ none) :
    legalRelative m o = o.relative? := by
  unfold legalRelative at h ⊢
  split
  next indexing => exact absurd (if_pos indexing) h
  next indexing =>
    split
    next location => rw [if_neg indexing, if_pos location] at h; exact absurd rfl h
    next => rfl

end Sys2Proof

namespace Sys2Proof.Machine

/-! ## Target addresses (R70 to R73) -/

theorem wrap24_natCast (n : Nat) : wrap24 n = BitVec.ofNat 24 n := BitVec.ofInt_natCast 24 n

/-- The index is X where x is 1, else 0; X is read only there. -/
theorem indexValue_eq {s : State} {o : Operand} {xv : Word}
    (hx : o.indexed = true → s.readReg .address .x = .ok xv) :
    s.indexValue o = .ok (if o.indexed then xv else 0#24) := by
  unfold State.indexValue
  split
  next indexed => exact hx indexed
  next => rfl

/-- The target address of a legal form, from its base. -/
theorem resolveTarget_of_legal {s : State} {m : Mnemonic} {o : Operand} {r : Relative} {base xv : Word}
    (hpriv : m.privileged = true → s.mode = .supervisor) (hlegal : legalRelative m o ≠ none)
    (hrel : o.relative? = some r) (hbase : s.baseValue o r = .ok base)
    (hx : o.indexed = true → s.readReg .address .x = .ok xv) :
    s.resolveTarget m o =
      .ok (wrap24 (base.toNat + fieldOffset r o + (if o.indexed then xv.toNat else 0 : Nat))) := by
  refine resolveTarget_eq_ok.mpr ⟨r, (legalRelative_eq_relative? hlegal).trans hrel, hpriv, base, _,
    hbase, indexValue_eq hx, ?_⟩
  split <;> rfl

/-- The target address where the field is not signed: direct or relative to B. -/
theorem resolveTarget_of_unsigned {s : State} {m : Mnemonic} {o : Operand} {r : Relative}
    {base xv : Word} {field : Nat} (hpriv : m.privileged = true → s.mode = .supervisor)
    (hlegal : legalRelative m o ≠ none) (hrel : o.relative? = some r)
    (hbase : s.baseValue o r = .ok base) (hfield : fieldOffset r o = field)
    (hx : o.indexed = true → s.readReg .address .x = .ok xv) :
    s.resolveTarget m o =
      .ok (BitVec.ofNat 24 (base.toNat + field + if o.indexed then xv.toNat else 0)) := by
  rw [resolveTarget_of_legal hpriv hlegal hrel hbase hx, hfield, ← wrap24_natCast]
  push_cast
  rfl

theorem resolveTarget_of_direct {s : State} {m : Mnemonic} {o : Operand} {xv : Word} {field : Nat}
    (hpriv : m.privileged = true → s.mode = .supervisor) (hlegal : legalRelative m o ≠ none)
    (hrel : o.relative? = some .direct) (hfield : fieldOffset .direct o = field)
    (hx : o.indexed = true → s.readReg .address .x = .ok xv) :
    s.resolveTarget m o = .ok (BitVec.ofNat 24 (field + if o.indexed then xv.toNat else 0)) := by
  rw [resolveTarget_of_unsigned hpriv hlegal hrel rfl hfield hx, BitVec.toNat_zero, Nat.zero_add]

/-- Adding to an address modulo 2^24 is adding to the address itself. -/
theorem wrap24_add_of_wrapped (n : Nat) (z : Int) :
    wrap24 ((wrap24 n).toNat + z) = wrap24 (n + z) := by
  simp only [wrap24, BitVec.ofInt_add, BitVec.ofInt_natCast, BitVec.ofNat_toNat, BitVec.setWidth_eq]

/-- The target address of Format 3 relative to `pc`, whose displacement is signed. -/
theorem resolveTarget_of_pcRelative {s : State} {m : Mnemonic} {ni : Addressing} {x : Bool}
    {disp : BitVec 12} {xv : Word} (hpriv : m.privileged = true → s.mode = .supervisor)
    (hlegal : legalRelative m (.f3 ni x false true disp) ≠ none)
    (hx : x = true → s.readReg .address .x = .ok xv) :
    s.resolveTarget m (.f3 ni x false true disp) =
      .ok (BitVec.ofInt 24 (((s.pc.toNat + 3 : Nat) : Int) + disp.toInt
        + if x then (xv.toNat : Int) else 0)) := by
  rw [resolveTarget_of_legal (r := .pc) hpriv hlegal rfl rfl hx, State.pcNext, Int.add_assoc,
    ← Nat.cast_add, wrap24_add_of_wrapped, ← Int.add_assoc]
  cases x <;> rfl

/-- Settles O16: each legal form from its base and its field; the forms left over are relative to nothing. -/
theorem targetAddressFormulas : Obligations.TargetAddressFormulas := by
  intro s m xv hpriv
  refine ⟨?sic, ?format4, ?direct, ?base, ?pc, ?bothFlags, ?format4Flags⟩
  case sic =>
    intro x addr15 hx
    have hlegal : legalRelative m (.sic x addr15) ≠ none := by
      rw [legalRelative_sic]
      exact Option.some_ne_none _
    exact resolveTarget_of_direct hpriv hlegal rfl rfl hx
  case format4 =>
    exact fun ni x addr20 hx hlegal => resolveTarget_of_direct hpriv hlegal rfl rfl hx
  case direct =>
    exact fun ni x disp hx hlegal => resolveTarget_of_direct hpriv hlegal rfl rfl hx
  case base =>
    exact fun ni x disp bv hb hx hlegal => resolveTarget_of_unsigned hpriv hlegal rfl hb rfl hx
  case pc => exact fun ni x disp hx hlegal => resolveTarget_of_pcRelative hpriv hlegal hx
  case bothFlags =>
    exact fun ni x disp => legalRelative_eq_none_iff.mpr
      (.inl (Operand.relative?_f3_eq_none_iff.mpr ⟨rfl, rfl⟩))
  case format4Flags =>
    exact fun ni x b p addr20 h => legalRelative_eq_none_iff.mpr
      (.inl (Operand.relative?_f4_eq_none_iff.mpr h))

/-! ## Operands (R75) -/

theorem resolveWord_of_immediate {s : State} {m : Mnemonic} {o : Operand} {ta : Word}
    (hta : s.resolveTarget m o = .ok ta) (hi : o.addressing = .immediate) :
    s.resolveWord m o = .ok ta :=
  resolveWord_eq_ok.mpr ⟨ta, hta, .inl ⟨hi, rfl⟩⟩

theorem resolveByte_of_immediate {s : State} {m : Mnemonic} {o : Operand} {ta : Word}
    (hta : s.resolveTarget m o = .ok ta) (hi : o.addressing = .immediate) :
    s.resolveByte m o = .ok (ta.extractLsb' 0 8) :=
  resolveByte_eq_ok.mpr ⟨ta, hta, .inl ⟨hi, rfl⟩⟩

theorem resolveLoc_of_simple {s : State} {m : Mnemonic} {o : Operand} {ta : Word}
    (hta : s.resolveTarget m o = .ok ta) (hs : o.addressing = .simple) : s.resolveLoc m o = .ok ta := by
  refine resolveLoc_eq_ok.mpr ⟨ta, hta, location_eq_ok.mpr (.inr ⟨?_, rfl⟩)⟩
  rw [hs]
  exact Addressing.noConfusion

/-- An indirect location is the pointer that the target address leads to. -/
theorem resolveLoc_of_indirect {s : State} {m : Mnemonic} {o : Operand} {ta : Word}
    (hta : s.resolveTarget m o = .ok ta) (hi : o.addressing = .indirect) :
    s.resolveLoc m o = s.memReadWord .pointer ta := by
  simp [State.resolveLoc, State.location, hta, hi]

/-- An operand that is not immediate is read at the location. -/
theorem resolveWord_eq_bind {s : State} {m : Mnemonic} {o : Operand} (h : o.addressing ≠ .immediate) :
    s.resolveWord m o = s.resolveLoc m o >>= s.memReadWord .operand := by
  unfold State.resolveWord State.resolveLoc
  rw [bind_assoc]
  cases ha : o.addressing with
  | immediate => exact absurd ha h
  | simple | indirect => rfl

theorem resolveByte_eq_bind {s : State} {m : Mnemonic} {o : Operand} (h : o.addressing ≠ .immediate) :
    s.resolveByte m o = s.resolveLoc m o >>= s.memReadByte .operand := by
  unfold State.resolveByte State.resolveLoc
  rw [bind_assoc]
  cases ha : o.addressing with
  | immediate => exact absurd ha h
  | simple | indirect => rfl

/-- What the operand of each class is at a location, over the bytes of memory, with what its read raises. -/
theorem operand_at_location {s : State} {m : Mnemonic} {o : Operand} {loc : Word}
    (h : o.addressing ≠ .immediate) (hloc : s.resolveLoc m o = .ok loc) :
    (∀ v, WordAt s.mem loc.toNat v → s.resolveWord m o = .ok v) ∧
    (∀ b, BytesAt s.mem loc.toNat [b] → s.resolveByte m o = .ok b) ∧
    (∀ c, s.memReadWord .operand loc = .error c → s.resolveWord m o = .error c) ∧
    (∀ c, s.memReadByte .operand loc = .error c → s.resolveByte m o = .error c) := by
  rw [resolveWord_eq_bind h, resolveByte_eq_bind h, hloc]
  exact ⟨fun _ => memReadWord_of_wordAt, fun _ => memReadByte_of_bytesAt, fun _ => id, fun _ => id⟩

/-- Settles O17: an operand that is not immediate is read at its location, which is the target address or the
pointer it leads to. -/
theorem operandResolution : Obligations.OperandResolution := by
  intro s m o
  refine ⟨fun c h => ⟨resolveLoc_of_target_error h, resolveWord_of_target_error h,
    resolveByte_of_target_error h⟩, fun ta hta => ⟨?immediate, ?simple, ?indirect⟩⟩
  case immediate =>
    exact fun hi => ⟨resolveWord_of_immediate hta hi, resolveByte_of_immediate hta hi⟩
  case simple =>
    intro hs
    have hne : o.addressing ≠ .immediate := fun h => nomatch hs.symm.trans h
    have hloc := resolveLoc_of_simple hta hs
    exact ⟨hloc, operand_at_location hne hloc⟩
  case indirect =>
    intro hi
    have hne : o.addressing ≠ .immediate := fun h => nomatch hi.symm.trans h
    have hloc := resolveLoc_of_indirect hta hi
    refine ⟨fun c hc => ?pointerFault, fun loc hpointer => ?pointer⟩
    case pointerFault =>
      rw [resolveWord_eq_bind hne, resolveByte_eq_bind hne, hloc, hc]
      exact ⟨rfl, rfl, rfl⟩
    case pointer =>
      have hloc := hloc.trans (memReadWord_of_wordAt hpointer)
      exact ⟨hloc, operand_at_location hne hloc⟩

/-- Settles O34: an instruction begins by resolving its operand, so what this raises the instruction raises. -/
theorem resolutionFaultsAreRaised : Obligations.ResolutionFaultsAreRaised := by
  intro m o s c
  have hm : (m.instr o).mnemonic = m := m.mnemonic_instr o
  have ho : (m.instr o).operand = o := m.operand_instr o
  refine ⟨fun hclass h => ?word, fun hclass h => ?byte, fun hclass h => ?loc,
    Mnemonic.operandClass_eq_none_iff⟩
  case word => exact exec_of_resolveWord_error (by rwa [hm]) (by rwa [hm, ho])
  case byte => exact exec_of_resolveByte_error (by rwa [hm]) (by rwa [hm, ho])
  case loc => exact exec_of_resolveLoc_error (by rwa [hm]) (by rwa [hm, ho])

end Sys2Proof.Machine

/-! # The fetch (10_state.md R17, R18, 30_encoding.md R67, R68) -/

namespace Sys2Proof

/-- The operand part read from the bytes is as long as their format says. -/
theorem decodeOperand_length (b0 b1 b2 b3 : Byte) :
    (decodeOperand b0 b1 b2 b3).length = if isFormat4 b0 b1 then 4 else 3 := by
  cases hni : addressingOf b0 with
  | none => rw [decodeOperand_of_none hni, isFormat4_of_addressingOf_none hni]; rfl
  | some ni =>
    rw [isFormat4_of_addressingOf_some hni]
    cases he : b1.getLsbD 4 with
    | false => rw [decodeOperand_of_format3 hni he]; rfl
    | true => rw [decodeOperand_of_format4 hni he]; rfl

/-- Bytes that are too short begin an instruction and end before its second, third or fourth byte. -/
theorem decode_eq_tooShort {bytes : List Byte} {m : Mnemonic} (h : decode bytes = .error (.tooShort m)) :
    ∃ b0, Mnemonic.ofByte? b0 = some m ∧
      (bytes = [b0] ∨ (∃ b1, bytes = [b0, b1]) ∨
        ∃ b1 b2, bytes = [b0, b1, b2] ∧ isFormat4 b0 b1 = true) := by
  match bytes with
  | [] => cases h
  | b0 :: tail =>
    simp only [decode] at h
    split at h
    · cases h
    next m' hm =>
      match tail with
      | [] => cases h; exact ⟨b0, hm, .inl rfl⟩
      | [b1] => cases h; exact ⟨b0, hm, .inr (.inl ⟨b1, rfl⟩)⟩
      | [b1, b2] =>
        cases hf : isFormat4 b0 b1 <;> simp only [hf, Bool.false_eq_true, if_false, if_true] at h
        · cases h
        · cases h
          exact ⟨b0, hm, .inr (.inr ⟨b1, b2, rfl, hf⟩)⟩
      | b1 :: b2 :: b3 :: rest =>
        cases hf : isFormat4 b0 b1 <;> simp only [hf, Bool.false_eq_true, if_false, if_true] at h <;>
          cases h

end Sys2Proof

namespace Sys2Proof.Machine

/-! ## One byte -/

theorem fetchByte_of_bytesAt {s : State} {bytes : List Byte} {k : Nat} {b : Byte}
    (h : BytesAt s.mem s.pc.toNat bytes) (hk : bytes[k]? = some b) : s.fetchByte k = .ok b := by
  obtain ⟨hinside, hread⟩ := h k b hk
  rw [State.fetchByte, if_pos hinside]
  exact loadByte_of_given hread

theorem fetchByte_of_outside {s : State} {k a : Nat} (ha : s.pc.toNat + k = a)
    (h : Config.memBytes ≤ a) : s.fetchByte k = .error (.addressFault .fetch a) := by
  subst ha
  exact if_neg (Nat.not_lt.mpr h)

theorem inside_of_fetchByte {s : State} {k : Nat} {b : Byte} (h : s.fetchByte k = .ok b) :
    s.pc.toNat + k < Config.memBytes := by
  unfold State.fetchByte at h
  split at h
  next inside => exact inside
  next => cases h

/-! ## The instruction -/

/-- A fault of the first byte's fetch is the fault of the fetch. -/
theorem fetchInstr_of_first_error {s : State} {c : Cause} (h : s.fetchByte 0 = .error c) :
    s.fetchInstr = .error c :=
  access_bind_eq_error.mpr (.inl h)

theorem fetchInstr_of_unassigned {s : State} {b0 : Byte} (h : s.fetchByte 0 = .ok b0)
    (hm : Mnemonic.ofByte? b0 = none) : s.fetchInstr = .error (.illegalInstruction [b0]) := by
  rw [State.fetchInstr, h, access_ok_bind, hm]

/-- After an assigned opcode the other bytes are fetched in order, a fourth one in Format 4 only. -/
theorem fetchInstr_of_assigned {s : State} {b0 : Byte} {m : Mnemonic} (h : s.fetchByte 0 = .ok b0)
    (hm : Mnemonic.ofByte? b0 = some m) :
    s.fetchInstr = (do
      let b1 ← s.fetchByte 1
      let b2 ← s.fetchByte 2
      let b3 ← if isFormat4 b0 b1 then s.fetchByte 3 else pure 0#8
      pure (m.instr (decodeOperand b0 b1 b2 b3))) := by
  rw [State.fetchInstr, h, access_ok_bind, hm]

/-- A fetched instruction has its three bytes, or its four in Format 4, fetched. -/
theorem fetchInstr_eq_ok {s : State} {i : Instr} (h : s.fetchInstr = .ok i) :
    ∃ b0 b1 b2 b3, ∃ m : Mnemonic, s.fetchByte 2 = .ok b2 ∧
      (isFormat4 b0 b1 = true → s.fetchByte 3 = .ok b3) ∧
      i = m.instr (decodeOperand b0 b1 b2 b3) := by
  obtain ⟨b0, h0, rest⟩ := access_bind_eq_ok.mp h
  cases hm : Mnemonic.ofByte? b0 with
  | none => rw [fetchInstr_of_unassigned h0 hm] at h; cases h
  | some m =>
    rw [fetchInstr_of_assigned h0 hm] at h
    obtain ⟨b1, _, h⟩ := access_bind_eq_ok.mp h
    obtain ⟨b2, h2, h⟩ := access_bind_eq_ok.mp h
    split at h
    next hf =>
      obtain ⟨b3, h3, h⟩ := access_bind_eq_ok.mp h
      cases h
      exact ⟨b0, b1, b2, b3, m, h2, fun _ => h3, rfl⟩
    next hf =>
      cases h
      exact ⟨b0, b1, b2, 0#8, m, h2, fun h => absurd h hf, rfl⟩

/-- What the bytes at `pc` decode to is what is fetched. -/
theorem fetchInstr_of_decode {s : State} {bytes rest : List Byte} {i : Instr}
    (h : BytesAt s.mem s.pc.toNat bytes) (hd : decode bytes = .ok (i, rest)) :
    s.fetchInstr = .ok i := by
  obtain ⟨b0, b1, b2, m, hm, ⟨hf, rfl, rfl⟩ | ⟨hf, b3, rfl, rfl⟩⟩ := decode_eq_ok_iff.mp hd
  all_goals
    have h0 : s.fetchByte 0 = .ok b0 := fetchByte_of_bytesAt h rfl
    have h1 : s.fetchByte 1 = .ok b1 := fetchByte_of_bytesAt h rfl
    have h2 : s.fetchByte 2 = .ok b2 := fetchByte_of_bytesAt h rfl
    rw [fetchInstr_of_assigned h0 hm]
  · simp [h1, h2, hf]
  · have h3 : s.fetchByte 3 = .ok b3 := fetchByte_of_bytesAt h rfl
    simp [h1, h2, h3, hf]

/-- Bytes that begin a longer instruction and reach to the top of memory: the byte fetched next lies at
2^20. -/
theorem fetchInstr_of_tooShort {s : State} {bytes : List Byte} {m : Mnemonic}
    (h : BytesAt s.mem s.pc.toNat bytes) (hd : decode bytes = .error (.tooShort m))
    (htop : s.pc.toNat + bytes.length = Config.memBytes) :
    s.fetchInstr = .error (.addressFault .fetch Config.memBytes) := by
  have top : s.fetchByte bytes.length = .error (.addressFault .fetch Config.memBytes) :=
    fetchByte_of_outside htop (Nat.le_refl _)
  obtain ⟨b0, hm, rfl | ⟨b1, rfl⟩ | ⟨b1, b2, rfl, hf⟩⟩ := decode_eq_tooShort hd
  all_goals
    have h0 : s.fetchByte 0 = .ok b0 := fetchByte_of_bytesAt h rfl
    rw [fetchInstr_of_assigned h0 hm]
  · exact access_bind_eq_error.mpr (.inl top)
  · have h1 : s.fetchByte 1 = .ok b1 := fetchByte_of_bytesAt h rfl
    rw [h1, access_ok_bind]
    exact access_bind_eq_error.mpr (.inl top)
  · have h1 : s.fetchByte 1 = .ok b1 := fetchByte_of_bytesAt h rfl
    have h2 : s.fetchByte 2 = .ok b2 := fetchByte_of_bytesAt h rfl
    rw [h1, access_ok_bind, h2, access_ok_bind, if_pos hf]
    exact access_bind_eq_error.mpr (.inl top)

/-! ## The step -/

theorem step_of_fetchInstr_ok {s : State} {i : Instr} (hrun : s.status = .running)
    (hpc : s.pc ≠ s.exitAddr) (h : s.fetchInstr = .ok i) : step s = exec i s := by
  simp [step, hrun, hpc, h]

theorem step_of_fetchInstr_error {s : State} {c : Cause} (hrun : s.status = .running)
    (hpc : s.pc ≠ s.exitAddr) (h : s.fetchInstr = .error c) : step s = .next (s.raise c) := by
  simp [step, hrun, hpc, h]

/-- Settles O7: the bytes that decode are those that are fetched. -/
theorem stepRunsTheDecodedInstruction : Obligations.StepRunsTheDecodedInstruction :=
  fun _ _ _ _ hrun hpc hbytes hd => step_of_fetchInstr_ok hrun hpc (fetchInstr_of_decode hbytes hd)

/-- Settles O5: no mnemonic is found for the first byte, and the fetch raises before it goes on. -/
theorem unassignedOpcodeRaisesOnFirstByte : Obligations.UnassignedOpcodeRaisesOnFirstByte := by
  intro s b0 hrun hpc hbytes hnone
  have hm : Mnemonic.ofByte? b0 = none :=
    List.find?_eq_none.mpr fun m _ hop => hnone m (eq_of_beq hop)
  exact step_of_fetchInstr_error hrun hpc
    (fetchInstr_of_unassigned (fetchByte_of_bytesAt hbytes rfl) hm)

/-- Settles O11: the first byte fetched outside memory raises. -/
theorem fetchOutsideMemoryRaises : Obligations.FetchOutsideMemoryRaises := by
  refine ⟨?atOnce, ?later⟩
  case atOnce =>
    intro s hrun hpc houtside
    exact step_of_fetchInstr_error hrun hpc
      (fetchInstr_of_first_error (fetchByte_of_outside (Nat.add_zero _) houtside))
  case later =>
    intro s bytes m hrun hpc hbytes hd htop
    exact step_of_fetchInstr_error hrun hpc (fetchInstr_of_tooShort hbytes hd htop)

/-- A fetched instruction lies inside memory, since its last byte does. -/
theorem inside_of_fetchInstr {s : State} {i : Instr} (h : s.fetchInstr = .ok i) :
    s.pc.toNat + i.operand.length ≤ Config.memBytes := by
  obtain ⟨b0, b1, b2, b3, m, h2, h3, rfl⟩ := fetchInstr_eq_ok h
  rw [Mnemonic.operand_instr, decodeOperand_length]
  split
  next hf => exact inside_of_fetchByte (h3 hf)
  next => exact inside_of_fetchByte h2

/-- Settles O12: memory ends far below 2^24. -/
theorem nextAddressDoesNotWrap : Obligations.NextAddressDoesNotWrap := by
  intro s i h
  have hinside := inside_of_fetchInstr h
  refine ⟨?_, hinside⟩
  unfold Config.memBytes at hinside
  rw [State.pcNext, ← Nat.cast_add, wrap24_natCast, BitVec.toNat_ofNat]
  exact Nat.mod_eq_of_lt (by omega)

/-! ## A store is seen by the next fetch (20_memory.md R51) -/

/-- Settles O15: the three bytes stand in the memory after the store, where any later fetch reads them. -/
theorem storedBytesAreFetched : Obligations.StoredBytesAreFetched := by
  intro o s t m v _ hloc hreg h hrun u k j b hmem haddr hj
  rcases conclude_eq_next.mp h with h | ⟨c, _, rfl⟩
  · obtain ⟨loc, v', w, hloc', hreg', hw, rfl⟩ := storeReg_eq_ok.mp h
    cases hloc.symm.trans hloc'
    cases hreg.symm.trans hreg'
    obtain ⟨hinside, rfl⟩ := memWriteWord_eq_ok.mp hw
    obtain ⟨hlt, _⟩ := List.getElem?_eq_some_iff.mp hj
    have hat : m.toNat + j < Config.memBytes := by
      simp only [List.length_cons, List.length_nil] at hlt
      omega
    rw [State.fetchByte, haddr, if_pos hat]
    refine loadByte_of_given ?_
    rw [hmem]
    exact Memory.read_writeBytes_at hj hat
  · cases hrun

end Sys2Proof.Machine

/-! # What each instruction completes with (40_load_store.md to 43_io_system.md) -/

namespace Sys2Proof.Machine

/-- A run that raises nothing concludes with the state it gives. -/
theorem conclude_of_ok {s t : State} {r : Access State} (h : r = .ok t) : conclude s r = .next t :=
  conclude_eq_next.mpr (.inl h)

/-- A run that raises concludes with the faulted state. -/
theorem conclude_of_error {s : State} {r : Access State} {c : Cause} (h : r = .error c) :
    conclude s r = .next (s.raise c) :=
  conclude_eq_next.mpr (.inr ⟨c, h, rfl⟩)

/-- Two reads that succeed, then the rest. -/
theorem bind_bind_of_ok {α β γ : Type} {x : Access α} {y : Access β} {f : α → β → Access γ} {a : α}
    {b : β} (hx : x = .ok a) (hy : y = .ok b) : (do let v ← x; let w ← y; f v w) = f a b := by
  rw [hx, access_ok_bind, hy, access_ok_bind]

/-- A read that succeeds, then one that raises. -/
theorem bind_bind_of_error {α β γ : Type} {x : Access α} {y : Access β} {f : α → β → Access γ} {a : α}
    {c : Cause} (hx : x = .ok a) (hy : y = .error c) :
    (do let v ← x; let w ← y; f v w) = .error c := by
  rw [hx, access_ok_bind, hy, access_error_bind]

/-! ## Loads -/

/-- Settles O18: each is `loadWord` with the write of its register. -/
theorem wordLoadsComplete : Obligations.WordLoadsComplete := by
  intro o s v
  exact ⟨fun h => conclude_of_ok (loadWord_eq_ok.mpr ⟨v, h, rfl⟩),
    fun h => conclude_of_ok (loadWord_eq_ok.mpr ⟨v, h, rfl⟩),
    fun h => conclude_of_ok (loadWord_eq_ok.mpr ⟨v, h, rfl⟩)⟩

/-- Settles O19: `replaceByte` keeps the upper bits and takes the byte. -/
theorem ldchReplacesTheRightmostByte : Obligations.LdchReplacesTheRightmostByte := by
  intro o s v a hv ha
  exact ⟨replaceByte a v, replaceByte_upper a v, replaceByte_lower a v,
    conclude_of_ok (bind_bind_of_ok hv ha)⟩

/-! ## Stores -/

/-- A word store whose location lies inside memory. -/
theorem conclude_storeReg_of_inside {s : State} {m : Mnemonic} {r : WordReg} {o : Operand}
    {loc v : Word} (hinside : loc.toNat + 2 < Config.memBytes) (hloc : s.resolveLoc m o = .ok loc)
    (hv : s.readReg .effect r = .ok v) :
    conclude s (storeReg m r o s) =
      .next { s with mem := Memory.writeBytes s.mem loc.toNat (wordBytes v),
                     pc := s.pcNext o, draws := s.draws + 1 } :=
  conclude_of_ok (storeReg_eq_ok.mpr ⟨loc, v, _, hloc, hv, memWriteWord_of_inside v hinside, rfl⟩)

theorem conclude_storeReg_of_outside {s : State} {m : Mnemonic} {r : WordReg} {o : Operand}
    {loc v : Word} (houtside : Config.memBytes ≤ loc.toNat + 2) (hloc : s.resolveLoc m o = .ok loc)
    (hv : s.readReg .effect r = .ok v) :
    conclude s (storeReg m r o s) = .next (s.raise (.addressFault .write loc.toNat)) := by
  refine conclude_of_error ((bind_bind_of_ok hloc hv).trans ?_)
  rw [memWriteWord_of_outside v houtside, access_error_bind]

/-- Settles O20: each is `storeReg` of its register. -/
theorem wordStoresComplete : Obligations.WordStoresComplete := by
  intro o s m v hinside
  exact ⟨Memory.writeBytes s.mem m.toNat (wordBytes v), wordAt_writeBytes s.mem v hinside,
    fun a ha => Memory.read_writeBytes_other ha, conclude_storeReg_of_inside hinside,
    conclude_storeReg_of_inside hinside, conclude_storeReg_of_inside hinside⟩

/-- Settles O21: the byte written is the rightmost one of A. -/
theorem stchStoresOneByte : Obligations.StchStoresOneByte := by
  intro o s m a hinside hloc ha
  refine ⟨Memory.write s.mem m.toNat (rightmostByte a), Memory.read_write_same _ _ _,
    fun k hk => Memory.read_write_other hk, conclude_of_ok ((bind_bind_of_ok hloc ha).trans ?_)⟩
  rw [memWriteByte_of_inside (rightmostByte a) hinside]
  rfl

/-- Settles O39: STSW stores the status word as STA stores A. -/
theorem stswStoresTheStatusWord : Obligations.StswStoresTheStatusWord := by
  intro o s m c hinside hloc hc
  refine ⟨Memory.writeBytes s.mem m.toNat (wordBytes (Config.swImage c s.mode)),
    wordAt_writeBytes s.mem _ hinside, fun a ha => Memory.read_writeBytes_other ha,
    conclude_of_ok ((bind_bind_of_ok hloc hc).trans ?_)⟩
  rw [memWriteWord_of_inside _ hinside]
  rfl

/-- Settles O22: the write is checked as a whole and raises. -/
theorem storesOutsideMemoryRaise : Obligations.StoresOutsideMemoryRaise := by
  intro o s m v c houtside
  refine ⟨conclude_storeReg_of_outside houtside, conclude_storeReg_of_outside houtside,
    conclude_storeReg_of_outside houtside, ?stsw, ?stch⟩
  case stsw =>
    intro hloc hc
    refine conclude_of_error ((bind_bind_of_ok hloc hc).trans ?_)
    rw [memWriteWord_of_outside _ houtside, access_error_bind]
  case stch =>
    intro hbyte hloc ha
    refine conclude_of_error ((bind_bind_of_ok hloc ha).trans ?_)
    rw [memWriteByte_of_outside _ hbyte, access_error_bind]

/-! ## Arithmetic and logic -/

/-- An arithmetic or logical instruction completes with its result in A and nothing else changed but `pc`. -/
theorem conclude_accumulate_of_ok {s : State} {m : Mnemonic} {f : Word → Word → Word} {o : Operand}
    {v a : Word} (hv : s.resolveWord m o = .ok v) (ha : s.readReg .effect .a = .ok a) :
    conclude s (accumulate m f o s) =
      .next { s with rA := f a v, known := { s.known with a := true }, pc := s.pcNext o,
                     draws := s.draws + 1 } :=
  conclude_of_ok (accumulate_eq_ok.mpr ⟨v, a, hv, ha, rfl⟩)

/-- The bits that `wrap24` keeps are the integer modulo 2^24. -/
theorem toNat_wrap24 (z : Int) : ((wrap24 z).toNat : Int) = z % 2 ^ 24 := by
  rw [wrap24, BitVec.toNat_ofInt]
  omega

/-- Settles O23: `wrap24` of the exact result. -/
theorem sumDifferenceProductWrap : Obligations.SumDifferenceProductWrap := by
  intro o s v a ha
  exact ⟨fun hv => ⟨addWords a v, toNat_wrap24 _, conclude_accumulate_of_ok hv ha⟩,
    fun hv => ⟨subWords a v, toNat_wrap24 _, conclude_accumulate_of_ok hv ha⟩,
    fun hv => ⟨mulWords a v, toNat_wrap24 _, conclude_accumulate_of_ok hv ha⟩⟩

/-- Settles O28: AND and OR are those of bit vectors. -/
theorem logicalInstructionsComplete : Obligations.LogicalInstructionsComplete := by
  intro o s v a ha
  exact ⟨fun hv => ⟨andWords a v, fun _ => BitVec.getLsbD_and, conclude_accumulate_of_ok hv ha⟩,
    fun hv => ⟨orWords a v, fun _ => BitVec.getLsbD_or, conclude_accumulate_of_ok hv ha⟩⟩

/-- The word of an integer that a word is read as is that word, read with or without sign. -/
theorem wrap24_toInt (v : Word) : wrap24 v.toInt = v := BitVec.ofInt_toInt

theorem wrap24_toNat (v : Word) : wrap24 v.toNat = v := by
  rw [wrap24_natCast, BitVec.ofNat_toNat, BitVec.setWidth_eq]

theorem wrap24_add (y z : Int) : wrap24 (y + z) = wrap24 y + wrap24 z := BitVec.ofInt_add y z

theorem wrap24_mul (y z : Int) : wrap24 (y * z) = wrap24 y * wrap24 z := BitVec.ofInt_mul y z

theorem wrap24_sub (y z : Int) : wrap24 (y - z) = wrap24 y - wrap24 z := by
  rw [Int.sub_eq_add_neg, wrap24_add, BitVec.sub_eq_add_neg]
  exact congrArg (wrap24 y + ·) BitVec.ofInt_neg

/-- The quotient of DIV is the signed quotient of bit vectors, -2^23 by -1 included (R127). -/
theorem divWords_eq_sdiv (a v : Word) : divWords a v = a.sdiv v := by
  refine BitVec.eq_of_toInt_eq ?_
  rw [BitVec.toInt_sdiv]
  exact BitVec.toInt_ofInt _

/-- Settles O24: `wrap24` carries sums, differences and products to bit vectors, where both readings of a word
are the word; the quotient is `BitVec.sdiv`'s by its own integer law. -/
theorem arithmeticOnBitVectors : Obligations.ArithmeticOnBitVectors := by
  intro a v
  simp only [addWords, subWords, mulWords, signed24, wrap24_add, wrap24_sub, wrap24_mul, wrap24_toInt,
    wrap24_toNat, true_and]
  exact fun _ => divWords_eq_sdiv a v

/-- A quotient rounded toward zero is zero or has the sign of the product. -/
theorem sign_tdiv_eq (y z : Int) : (y.tdiv z).sign = 0 ∨ (y.tdiv z).sign = (y * z).sign := by
  rw [Int.sign_tdiv, Int.sign_mul]
  split
  · exact .inl rfl
  · exact .inr rfl

/-- Settles O25: `tdiv` has the size and the sign stated. -/
theorem divRoundsTowardZero : Obligations.DivRoundsTowardZero := by
  intro o s v a hv hne ha
  refine ⟨a.toInt.tdiv v.toInt, divWords a v, ?size, ?nonneg, ?nonpos, toNat_wrap24 _,
    exec_div_of_ne_zero hv ha hne⟩
  case size => exact Int.natAbs_tdiv _ _
  case nonneg =>
    intro h
    have hsign := sign_tdiv_eq a.toInt v.toInt
    rw [← Int.sign_nonneg_iff] at h ⊢
    omega
  case nonpos =>
    intro h
    have hsign := sign_tdiv_eq a.toInt v.toInt
    rw [← Int.sign_nonpos_iff] at h ⊢
    omega

/-! ## Comparisons -/

/-- The comparison of the signed integers, in the terms of bit vectors (R140). -/
theorem compareWords_eq (p q : Word) :
    compareWords p q = if p.slt q then .lt else if p = q then .eq else .gt := by
  simp only [compareWords, cmp, signed24, BitVec.slt, decide_eq_true_eq, BitVec.toInt_inj]

/-- Settles O29: COMP compares A with the operand. -/
theorem compSetsSignedComparison : Obligations.CompSetsSignedComparison := by
  intro o s v a hv ha
  rw [← compareWords_eq]
  exact conclude_of_ok (bind_bind_of_ok hv ha)

theorem addWords_eq (a v : Word) : addWords a v = a + v := by
  rw [addWords, wrap24_add, wrap24_toNat, wrap24_toNat]

/-- Settles O30: TIX compares the incremented X with the operand. -/
theorem tixIncrementsThenCompares : Obligations.TixIncrementsThenCompares := by
  intro o s v x hv hx
  rw [← compareWords_eq, ← addWords_eq]
  exact conclude_of_ok (bind_bind_of_ok hv hx)

/-! ## Control transfers -/

/-- Settles O31: the location is not looked at, so it may lie anywhere. -/
theorem jumpsComplete : Obligations.JumpsComplete := by
  intro o s m
  refine ⟨fun hloc => conclude_of_ok (access_bind_eq_ok.mpr ⟨m, hloc, rfl⟩), fun hloc => ?_⟩
  rw [← wrap24_natCast, Nat.cast_add]
  exact conclude_of_ok (access_bind_eq_ok.mpr ⟨m, hloc, rfl⟩)

/-- Settles O32: RSUB reads L and nothing else. -/
theorem rsubReturnsThroughL : Obligations.RsubReturnsThroughL :=
  fun _ _ l hl => conclude_of_ok (access_bind_eq_ok.mpr ⟨l, hl, rfl⟩)

/-- Settles O33: each is `jumpIf` of its condition. -/
theorem conditionalJumpsComplete : Obligations.ConditionalJumpsComplete := by
  intro o s m c hc
  exact ⟨fun hloc => conclude_of_ok (jumpIf_eq_ok.mpr ⟨m, c, hloc, hc, rfl⟩),
    fun hloc => conclude_of_ok (jumpIf_eq_ok.mpr ⟨m, c, hloc, hc, rfl⟩),
    fun hloc => conclude_of_ok (jumpIf_eq_ok.mpr ⟨m, c, hloc, hc, rfl⟩)⟩

/-! ## Devices -/

/-- With an answer stated for the device, that answer is taken. -/
theorem deviceTest_of_stated {s : State} {d : Byte} {before after : List (Byte × Bool)} {r : Bool}
    (h : s.testAnswers = before ++ (d, r) :: after) (hbefore : ∀ e ∈ before, e.1 ≠ d) :
    s.deviceTest d =
      (r, { s with testAnswers := before ++ after, deviceLog := s.deviceLog ++ [.tested d r] }) := by
  simp [State.deviceTest, h, takeAnswer_append hbefore]

theorem deviceTest_of_free {s : State} {d : Byte} (h : ∀ e ∈ s.testAnswers, e.1 ≠ d) :
    s.deviceTest d = (Config.deviceReady s.deviceLog d,
      { s with deviceLog := s.deviceLog ++ [.tested d (Config.deviceReady s.deviceLog d)] }) := by
  simp [State.deviceTest, takeAnswer_eq_none h]

theorem deviceRead_of_stated {s : State} {d : Byte} {before after : List (Byte × Byte)} {b : Byte}
    (h : s.readAnswers = before ++ (d, b) :: after) (hbefore : ∀ e ∈ before, e.1 ≠ d) :
    s.deviceRead d =
      (b, { s with readAnswers := before ++ after, deviceLog := s.deviceLog ++ [.read d b] }) := by
  simp [State.deviceRead, h, takeAnswer_append hbefore]

theorem deviceRead_of_free {s : State} {d : Byte} (h : ∀ e ∈ s.readAnswers, e.1 ≠ d) :
    s.deviceRead d = (Config.deviceByte s.deviceLog d,
      { s with deviceLog := s.deviceLog ++ [.read d (Config.deviceByte s.deviceLog d)] }) := by
  simp [State.deviceRead, takeAnswer_eq_none h]

/-- TD, from what its question answers. -/
theorem exec_td_of_answer {o : Operand} {s t : State} {d : Byte} {r : Bool}
    (hd : s.resolveByte .td o = .ok d) (h : s.deviceTest d = (r, t)) :
    exec (.td o) s = .next (((t.setCC (readyCC r)).setReady d r).advance o) := by
  refine conclude_of_ok (access_bind_eq_ok.mpr ⟨d, hd, ?_⟩)
  simp only [h, access_pure]

theorem requireReady_of_ready {d : Byte} {s : State} (h : s.isReady d = true) :
    requireReady d s = .ok () :=
  if_pos h

/-- What RD and WD share, with the latch of the device set: the rest is what happens. -/
theorem transfer_of_ready {s : State} {d : Byte} {operand : Access Byte} {transfer : Byte → Access State}
    (hoperand : operand = .ok d) (hlatch : s.isReady d = true) :
    (do let k ← operand; requireReady k s; transfer k) = transfer d := by
  rw [hoperand, access_ok_bind, requireReady_of_ready hlatch, access_ok_bind]

/-- RD, from what its question answers. -/
theorem exec_rd_of_answer {o : Operand} {s t : State} {d b : Byte} {a : Word}
    (hd : s.resolveByte .rd o = .ok d) (hready : s.isReady d = true)
    (ha : s.readReg .effect .a = .ok a) (h : s.deviceRead d = (b, t)) :
    exec (.rd o) s = .next (((t.setA (replaceByte a b)).setReady d false).advance o) := by
  refine conclude_of_ok ((transfer_of_ready hd hready).trans ?_)
  simp only [ha, h, access_ok_bind, access_pure]

/-- Settles O35: TD from the stated answer or the free one. -/
theorem tdRecordsTheAnswer : Obligations.TdRecordsTheAnswer := by
  intro o s d hd
  exact ⟨fun _ _ _ h hbefore => exec_td_of_answer hd (deviceTest_of_stated h hbefore),
    fun h => ⟨_, rfl, exec_td_of_answer hd (deviceTest_of_free h)⟩⟩

/-- Settles O36: RD from the stated byte or the free one. -/
theorem rdTransfersOneByte : Obligations.RdTransfersOneByte := by
  intro o s d a hd hready ha
  exact ⟨fun _ _ _ h hbefore => exec_rd_of_answer hd hready ha (deviceRead_of_stated h hbefore),
    fun h => ⟨_, rfl, exec_rd_of_answer hd hready ha (deviceRead_of_free h)⟩⟩

/-- What a byte written to a device adds to the output of each device. -/
theorem State.out_deviceWrite (s : State) (d k b : Byte) :
    (s.deviceWrite d b).out k = if d = k then s.out k ++ [b] else s.out k := by
  unfold State.out State.deviceWrite
  rw [List.filterMap_append]
  split <;> simp_all

/-- Settles O37: WD appends the rightmost byte of A to the log. -/
theorem wdTransfersOneByte : Obligations.WdTransfersOneByte := by
  intro o s d a hd hready ha
  refine ⟨_, conclude_of_ok ((transfer_of_ready hd hready).trans ?_), rfl, ?_, ?_⟩
  · rw [ha, access_ok_bind]
    rfl
  · exact (s.out_deviceWrite d d (rightmostByte a)).trans (if_pos rfl)
  · exact fun k hk => (s.out_deviceWrite d k (rightmostByte a)).trans (if_neg hk.symm)

end Sys2Proof.Machine

/-! # Unspecified state (60_exceptions.md R187) -/

namespace Sys2Proof.Machine

/-! ## `UNINIT_POLICY` draw -/

/-- Every cause but UninitializedRead. -/
def NotUninitialized (c : Cause) : Prop := ∀ w, c ≠ .uninitializedRead w

theorem meets_fetchByte_of_draw {s : State} (hp : s.policy = .draw) (k : Nat) :
    Meets NotUninitialized (fun _ => True) (s.fetchByte k) := by
  unfold State.fetchByte
  split
  · obtain ⟨b, hb, _⟩ := loadByte_of_draw .fetch (s.pc.toNat + k) hp
    rw [hb]
    trivial
  · exact nofun

theorem meets_fetchInstr_of_draw {s : State} (hp : s.policy = .draw) :
    Meets NotUninitialized (fun _ => True) s.fetchInstr := by
  refine (meets_fetchByte_of_draw hp 0).andThen fun b0 => ?_
  split
  · exact nofun
  · refine (meets_fetchByte_of_draw hp 1).andThen fun b1 =>
      (meets_fetchByte_of_draw hp 2).andThen fun b2 => ?_
    split
    · exact (meets_fetchByte_of_draw hp 3).andThen fun b3 => trivial
    · trivial

/-- Under draw neither the fetch nor an instruction (`CanRaise`) raises UninitializedRead. -/
theorem step_not_uninitialized {s t : State} {w : Unspecified} {a : Word} (hp : s.policy = .draw)
    (h : step s = .next t) : t.status ≠ .faulted (.uninitializedRead w) a := by
  intro hfault
  obtain ⟨hrun, ⟨_, rfl⟩ | ⟨_, c, hf, rfl⟩ | ⟨_, i, _, hexec⟩⟩ := step_eq_next h
  case inl =>
    rw [State.endRun_status] at hfault
    cases hfault
  case inr.inl =>
    have hc := meets_fetchInstr_of_draw hp
    rw [hf] at hc
    rw [State.raise_status] at hfault
    cases hfault
    exact hc w rfl
  case inr.inr =>
    cases canRaise_of_exec_faulted hrun hexec hfault with
    | uninitialized _ policy => exact nomatch hp.symm.trans policy

/-- Settles O41: the draws are what the reads of registers and of CC answer. -/
theorem drawPolicyNeverFaults : Obligations.DrawPolicyNeverFaults :=
  ⟨fun _ _ _ _ hp h => step_not_uninitialized hp h,
    fun _ _ _ hp hk => readReg_eq_ok.mpr (.inr ⟨hk, hp, rfl⟩),
    fun _ hp hk => readCC_eq_ok.mpr (.inr ⟨hk, hp, rfl⟩)⟩

/-! ## `UNINIT_POLICY` fault -/

theorem readReg_of_unknown {s : State} {r : WordReg} (site : ReadSite) (hp : s.policy = .fault)
    (hk : s.known.word r = false) : s.readReg site r = .error (.uninitializedRead (.register r)) := by
  simp [State.readReg, hk, hp]

theorem readCC_of_unknown {s : State} (hp : s.policy = .fault) (hk : s.known.cc = false) :
    s.readCC = .error (.uninitializedRead .conditionCode) := by
  simp [State.readCC, hk, hp]

section Reads

variable {m : Mnemonic} {o : Operand} {s : State} {c : Cause}

/-- The instructions that combine or compare A with a word raise what the read of A raises; DIV by zero raises
before it. -/
theorem exec_of_readA_error_word {v : Word} (ha : s.readReg .effect .a = .error c)
    (hm : m ∈ [.add, .sub, .mul, .div, .and, .or, .comp]) (hv : s.resolveWord m o = .ok v)
    (hdiv : m = .div → v ≠ 0#24) : exec (m.instr o) s = .next (s.raise c) := by
  simp only [List.mem_cons, List.not_mem_nil, or_false] at hm
  obtain rfl | rfl | rfl | rfl | rfl | rfl | rfl := hm
  case inr.inr.inr.inl =>
    refine conclude_of_error (access_bind_eq_error.mpr (.inr ⟨v, hv, ?_⟩))
    rw [if_neg (hdiv rfl), ha, access_error_bind]
  all_goals exact conclude_of_error (bind_bind_of_error hv ha)

/-- LDCH, which keeps the upper bits of A, and the transfers on a ready device do so too. -/
theorem exec_of_readA_error_byte {d : Byte} (ha : s.readReg .effect .a = .error c)
    (hm : m ∈ [.ldch, .rd, .wd]) (hd : s.resolveByte m o = .ok d)
    (hready : m ≠ .ldch → s.isReady d = true) : exec (m.instr o) s = .next (s.raise c) := by
  simp only [List.mem_cons, List.not_mem_nil, or_false] at hm
  obtain rfl | rfl | rfl := hm
  case inl => exact conclude_of_error (bind_bind_of_error hd ha)
  all_goals
    refine conclude_of_error ((transfer_of_ready hd (hready nofun)).trans ?_)
    rw [ha, access_error_bind]

theorem exec_of_readA_error_loc {loc : Word} (ha : s.readReg .effect .a = .error c)
    (hm : m ∈ [.sta, .stch]) (hloc : s.resolveLoc m o = .ok loc) :
    exec (m.instr o) s = .next (s.raise c) := by
  simp only [List.mem_cons, List.not_mem_nil, or_false] at hm
  obtain rfl | rfl := hm <;> exact conclude_of_error (bind_bind_of_error hloc ha)

theorem exec_of_readCC_error {loc : Word} (hcc : s.readCC = .error c)
    (hm : m ∈ [.jeq, .jgt, .jlt, .stsw]) (hloc : s.resolveLoc m o = .ok loc) :
    exec (m.instr o) s = .next (s.raise c) := by
  simp only [List.mem_cons, List.not_mem_nil, or_false] at hm
  obtain rfl | rfl | rfl | rfl := hm <;> exact conclude_of_error (bind_bind_of_error hloc hcc)

/-! ### The target address -/

theorem resolveTarget_eq_targetAddress {r : Relative} (hr : legalRelative m o = some r)
    (hpriv : m.privileged = true → s.mode = .supervisor) :
    s.resolveTarget m o = s.targetAddress r o :=
  bind_bind_of_ok (f := fun r _ => s.targetAddress r o) (checkFlags_eq_ok.mpr hr)
    (checkPrivilege_eq_ok (u := ()).mpr hpriv)

/-- What the target address raises, the instruction raises. -/
theorem exec_of_targetAddress_error {r : Relative} (hm : m ≠ .rsub) (hr : legalRelative m o = some r)
    (hpriv : m.privileged = true → s.mode = .supervisor) (h : s.targetAddress r o = .error c) :
    exec (m.instr o) s = .next (s.raise c) := by
  refine exec_of_resolveTarget_error ?_ ?_
  · rwa [Mnemonic.mnemonic_instr]
  · rw [Mnemonic.mnemonic_instr, Mnemonic.operand_instr, resolveTarget_eq_targetAddress hr hpriv, h]

/-- B is read only where it is the base. -/
theorem baseValue_of_known {r : Relative} (h : r = .base → s.known.b = true) :
    ∃ base, s.baseValue o r = .ok base := by
  cases r with
  | direct | pc => exact ⟨_, rfl⟩
  | base => exact ⟨s.rB, readReg_of_known (r := .b) (h rfl)⟩

theorem targetAddress_of_unknown_index {r : Relative} (hp : s.policy = .fault)
    (hx : o.indexed = true) (hk : s.known.x = false) (hb : r = .base → s.known.b = true) :
    s.targetAddress r o = .error (.uninitializedRead (.register .x)) := by
  obtain ⟨base, hbase⟩ := baseValue_of_known (o := o) hb
  exact bind_bind_of_error hbase ((if_pos hx).trans (readReg_of_unknown .address hp hk))

theorem targetAddress_of_unknown_base (hp : s.policy = .fault) (hk : s.known.b = false) :
    s.targetAddress .base o = .error (.uninitializedRead (.register .b)) :=
  access_bind_eq_error.mpr (.inl (readReg_of_unknown .address hp hk))

end Reads

/-- Settles O42: in each instruction the read of a register without a value comes after the resolution of the
operand and before anything is written; B and X are read for the target address. -/
theorem uninitializedRegistersRaise : Obligations.UninitializedRegistersRaise := by
  intro m o s hp
  refine ⟨fun hk => ?a, fun hk => ?x, fun hk => ?l, fun hk => ?cc, fun r hm hr hpriv => ?address⟩
  case a =>
    have ha := readReg_of_unknown (r := .a) .effect hp hk
    exact ⟨fun _ => exec_of_readA_error_word ha, fun _ => exec_of_readA_error_byte ha,
      fun _ => exec_of_readA_error_loc ha⟩
  case x =>
    have hx := readReg_of_unknown (r := .x) .effect hp hk
    refine ⟨?_, ?_⟩
    · rintro v rfl hv
      exact conclude_of_error (bind_bind_of_error hv hx)
    · rintro loc rfl hloc
      exact conclude_of_error (bind_bind_of_error hloc hx)
  case l =>
    have hl := readReg_of_unknown (r := .l) .effect hp hk
    refine ⟨?_, ?_⟩
    · rintro rfl
      exact conclude_bind_of_error hl
    · rintro loc rfl hloc
      exact conclude_of_error (bind_bind_of_error hloc hl)
  case cc => exact fun _ => exec_of_readCC_error (readCC_of_unknown hp hk)
  case address =>
    refine ⟨fun hx hk hb => ?_, ?_⟩
    · exact exec_of_targetAddress_error hm hr hpriv (targetAddress_of_unknown_index hp hx hk hb)
    · rintro rfl hk _
      exact exec_of_targetAddress_error hm hr hpriv (targetAddress_of_unknown_base hp hk)

end Sys2Proof.Machine

/-! # Launch and reset (70_reset_and_hazards.md R211 to R213, 10_state.md R33) -/

namespace Sys2Proof.Machine

/-! ## Memory after bytes are placed -/

theorem Memory.place_append (m : Memory) (first second : List Host.Cell) :
    Memory.place m (first ++ second) = Memory.place (Memory.place m first) second :=
  List.foldl_append

/-- Of the bytes placed at an address the last one stays (R212). -/
theorem Memory.read_place_nil (cells : List Host.Cell) (a : Nat) :
    Memory.read (Memory.place [] cells) a =
      ((cells.filter fun c => c.1 = a).getLast?).map Prod.snd := by
  induction cells using List.reverseRecOn with
  | nil => rfl
  | append_singleton cells c ih =>
    have hplace : Memory.place [] (cells ++ [c]) = Memory.write (Memory.place [] cells) c.1 c.2 :=
      Memory.place_append [] cells [c]
    rw [hplace, Memory.read_write, List.filter_append]
    by_cases h : a = c.1
    · simp [h]
    · simp [h, ih, Ne.symm h]

/-! ## No device has been asked -/

/-- Every latch is 0. -/
theorem isReady_of_fresh {s : State} (hready : s.ready = Vector.replicate 256 false) (d : Byte) :
    s.isReady d = false := by
  simp [State.isReady, hready]

/-- The device discipline holds before the first question. -/
theorem latchInvariant_of_fresh {s : State} (hready : s.ready = Vector.replicate 256 false)
    (hlog : s.deviceLog = []) : LatchInvariant s := by
  rw [LatchInvariant, hlog]
  exact ⟨isReady_of_fresh hready, fun _ _ _ _ h => absurd h.symm
    (List.append_ne_nil_of_right_ne_nil _ (List.cons_ne_nil _ _))⟩

/-! ## The launch -/

/-- A stated value is the value that is taken. -/
theorem getD_of_stated {α : Type} {stated : Option α} {v other : α} (h : stated = some v) :
    stated.getD other = v := by
  rw [h, Option.getD_some]

/-- The bytes that a launch which is not refused places lie inside memory. -/
theorem inside_of_launch {p : ObjectProgram} {exitAddr : Word} {mode : Mode} {policy : UninitPolicy}
    {g : Stated} {s : State} (h : launch p exitAddr mode policy g = .ok s) :
    ∀ c ∈ g.bytes ++ p.cells, c.1 < Config.memBytes := by
  obtain ⟨hcheck, hstated, _⟩ := launch_eq_ok_iff.mp h
  obtain ⟨hrange, hcells⟩ := ObjectProgram.check_eq_ok_iff.mp hcheck
  intro c hc
  rcases List.mem_append.mp hc with hc | hc
  · exact hstated c hc
  · exact lt_of_lt_of_le (hcells c hc).2 hrange

/-- Memory after a launch: the stated bytes and then the program's are placed in an empty one. -/
theorem launchState_mem (p : ObjectProgram) (exitAddr : Word) (mode : Mode) (policy : UninitPolicy)
    (g : Stated) :
    (launchState p exitAddr mode policy g).mem = Memory.place [] (g.bytes ++ p.cells) :=
  (Memory.place_append _ _ _).symm

/-- Settles O54: the fields of `launchState`, with memory read by `Memory.read_place_nil`. -/
theorem launchGivesTheSpecsState : Obligations.LaunchGivesTheSpecsState := by
  intro p exitAddr mode policy g s h
  obtain ⟨_, _, rfl⟩ := launch_eq_ok_iff.mp h
  refine ⟨fun a => ?memory, rfl, rfl, rfl, rfl, rfl, rfl, rfl, rfl, isReady_of_fresh rfl, fun _ => rfl,
    rfl, fun _ => getD_of_stated, rfl, fun _ => getD_of_stated, rfl, fun _ => getD_of_stated, rfl,
    fun _ => getD_of_stated, rfl, fun _ => getD_of_stated, rfl, fun _ => getD_of_stated, rfl,
    fun _ => getD_of_stated, rfl, fun hpc =>
      step_of_pc_eq_exitAddr (s := launchState p exitAddr mode policy g) rfl hpc⟩
  case memory =>
    rw [launchState_mem]
    exact Memory.read_place_nil _ a

/-- Settles O56: the bytes placed lie inside memory, and no device has been asked. -/
theorem launchMeetsTheInvariants : Obligations.LaunchMeetsTheInvariants := by
  intro p exitAddr mode policy g s h
  have inside := inside_of_launch h
  obtain ⟨_, _, rfl⟩ := launch_eq_ok_iff.mp h
  rw [launchState_mem]
  exact ⟨Memory.wf_place Memory.wf_nil inside, latchInvariant_of_fresh rfl rfl⟩

/-! ## Reset -/

/-- Settles O57: memory is empty at reset, and no device has been asked. -/
theorem resetMeetsTheInvariants : Obligations.ResetMeetsTheInvariants :=
  ⟨Memory.wf_nil, latchInvariant_of_fresh rfl rfl, isReady_of_fresh rfl, rfl⟩

/-- Settles O58: a program without bytes passes the checks, and its launch fills the fields as reset does. -/
theorem resetIsALaunch : Obligations.ResetIsALaunch :=
  launch_eq_ok_iff.mpr
    ⟨ObjectProgram.check_eq_ok_iff.mpr ⟨Nat.zero_le _, List.forall_mem_nil _⟩,
      List.forall_mem_nil _, rfl⟩

end Sys2Proof.Machine

/-! # The floating-point format (10_state.md R31) -/

namespace Sys2Proof.Machine

/-- Settles O60: the fraction has 36 bits, and its high-order bit is 1 exactly from 2^35 on. -/
theorem normalizedFractionIsAtLeastHalf : Obligations.NormalizedFractionIsAtLeastHalf := by
  intro v
  have below : ((floatFraction v).toNat : ℚ) < 2 ^ 36 := by exact_mod_cast (floatFraction v).isLt
  refine ⟨by unfold floatFractionValue; positivity, ?below, ?normalized, rfl⟩
  case below =>
    rw [floatFractionValue, div_lt_one (by positivity)]
    exact below
  case normalized =>
    have high : floatNormalized v = true ↔ 2 ^ 35 ≤ (floatFraction v).toNat := by
      rw [floatNormalized, ← BitVec.msb_eq_getLsbD_last (floatFraction v), BitVec.msb_eq_decide]
      exact decide_eq_true_iff
    rw [high, floatFractionValue, le_div_iff₀ (by positivity)]
    norm_num

end Sys2Proof.Machine

/-! # The records of an object program (30_encoding.md R88 to R91) -/

namespace Sys2Proof.Machine

/-! ## Hexadecimal columns -/

/-- A digit reads back from its character. -/
theorem hexDigit?_hexChar {d : Nat} (h : d < 16) : hexDigit? (hexChar d) = some d := by
  have digits : ∀ d < 16, hexDigit? (hexChar d) = some d := by decide
  exact digits d h

theorem hexNat?_append_digit {before n d : Nat} {cs : List Byte} {c : Byte}
    (h : hexNat? before cs = some n) (hc : hexDigit? c = some d) :
    hexNat? before (cs ++ [c]) = some (16 * n + d) := by
  induction cs generalizing before with
  | nil =>
    cases h
    simp [hexNat?, hc]
  | cons c' cs ih =>
    simp only [List.cons_append, hexNat?] at h ⊢
    split at h
    · exact ih h
    · cases h

/-- A number reads back from columns enough for it. -/
theorem hexNat?_hexColumns {k n : Nat} (h : n < 16 ^ k) : hexNat? 0 (hexColumns k n) = some n := by
  induction k generalizing n with
  | zero =>
    obtain rfl : n = 0 := by simpa using h
    rfl
  | succ k ih =>
    have hhigh : n / 16 < 16 ^ k := by
      rw [pow_succ] at h
      omega
    rw [hexColumns, hexNat?_append_digit (ih hhigh) (hexDigit?_hexChar (Nat.mod_lt n (by decide)))]
    exact congrArg some (Nat.div_add_mod n 16)

@[simp] theorem length_hexColumns (k n : Nat) : (hexColumns k n).length = k := by
  induction k generalizing n with
  | zero => rfl
  | succ k ih => rw [hexColumns, List.length_append, ih, List.length_singleton]

/-- A 24-bit word fills six columns. -/
theorem hexNat?_word (v : Word) : hexNat? 0 (hexColumns 6 v.toNat) = some v.toNat :=
  hexNat?_hexColumns v.isLt

/-- A byte's two columns, before more of them. -/
theorem hexBytes?_hexColumns_append (b : Byte) (cs : List Byte) :
    hexBytes? (hexColumns 2 b.toNat ++ cs) = (hexBytes? cs).map (b :: ·) := by
  have hcolumns : hexColumns 2 b.toNat = [hexChar (b.toNat / 16 % 16), hexChar (b.toNat % 16)] := rfl
  have hlt := b.isLt
  have hhigh := hexDigit?_hexChar (Nat.mod_lt (b.toNat / 16) (by decide : 0 < 16))
  have hlow := hexDigit?_hexChar (Nat.mod_lt b.toNat (by decide : 0 < 16))
  have hbyte : BitVec.ofNat 8 (16 * (b.toNat / 16 % 16) + b.toNat % 16) = b := by
    rw [Nat.mod_eq_of_lt (by omega : b.toNat / 16 < 16), Nat.div_add_mod, BitVec.ofNat_toNat,
      BitVec.setWidth_eq]
  rw [hcolumns, List.cons_append, List.cons_append, List.nil_append, hexBytes?, hhigh, hlow]
  cases hexBytes? cs with
  | none => rfl
  | some bs => exact congrArg (fun b => some (b :: bs)) hbyte

/-- Object code reads back from its columns, two to a byte. -/
theorem hexBytes?_flatMap (code : List Byte) :
    hexBytes? (code.flatMap fun b => hexColumns 2 b.toNat) = some code := by
  induction code with
  | nil => rfl
  | cons b code ih => rw [List.flatMap_cons, hexBytes?_hexColumns_append, ih, Option.map_some]

/-! ## The three records -/

@[simp] theorem length_nameColumns (name : List Byte) : (nameColumns name).length = 6 := by
  simp [nameColumns]

/-- A name of six characters is its own columns. -/
theorem nameColumns_of_length {name : List Byte} (h : name.length = 6) : nameColumns name = name :=
  List.take_left' h

/-- The characters of a name stand in its columns, with blanks for those it lacks. -/
theorem nameColumns_getElem? (name : List Byte) {k : Nat} (h : k < 6) :
    (nameColumns name)[k]? = some (name[k]?.getD 0x20#8) := by
  rw [nameColumns, List.getElem?_take_of_lt h]
  by_cases hk : k < name.length
  · rw [List.getElem?_append_left hk, List.getElem?_eq_getElem hk, Option.getD_some]
  · rw [List.getElem?_append_right (Nat.le_of_not_lt hk), List.getElem?_eq_none (Nat.le_of_not_lt hk),
      List.getElem?_replicate_of_lt (by omega), Option.getD_none]

theorem length_header_columns (name : List Byte) (start length : Word) :
    (Record.header name start length).columns.length = 19 := by
  simp [Record.columns]

/-- Three parts of a record, cut apart by the counts of their columns. -/
theorem cut_three_parts {first second : List Byte} {a b : Nat} (third : List Byte)
    (hfirst : first.length = a) (hsecond : second.length = b) :
    (first ++ second ++ third).take a = first ∧ ((first ++ second ++ third).drop a).take b = second ∧
      (first ++ second ++ third).drop (a + b) = third := by
  refine ⟨?_, ?_, List.drop_left' (by rw [List.length_append, hfirst, hsecond])⟩
  · rw [List.append_assoc, List.take_left' hfirst]
  · rw [List.append_assoc, List.drop_left' hfirst, List.take_left' hsecond]

/-- A Header reads back with the six columns of its name. -/
theorem ofColumns?_header (name : List Byte) (start length : Word) :
    Record.ofColumns? (Record.header name start length).columns =
      some (.header (nameColumns name) start length) := by
  obtain ⟨hname, hstart, hlength⟩ := cut_three_parts (hexColumns 6 length.toNat)
    (length_nameColumns name) (length_hexColumns 6 start.toNat)
  change Record.ofColumns? (0x48#8 :: (nameColumns name ++ hexColumns 6 start.toNat
    ++ hexColumns 6 length.toNat)) = _
  simp only [Record.ofColumns?, hname, hstart, hlength, hexNat?_word, BitVec.ofNat_toNat,
    BitVec.setWidth_eq]
  simp

theorem ofColumns?_text (start : Word) {code : List Byte} (h : code.length ≤ 30) :
    Record.ofColumns? (Record.text start code).columns = some (.text start code) := by
  obtain ⟨hstart, hcount, hcode⟩ := cut_three_parts (code.flatMap fun b => hexColumns 2 b.toNat)
    (length_hexColumns 6 start.toNat) (length_hexColumns 2 code.length)
  have hread : hexNat? 0 (hexColumns 2 code.length) = some code.length :=
    hexNat?_hexColumns (by omega)
  change Record.ofColumns? (0x54#8 :: (hexColumns 6 start.toNat ++ hexColumns 2 code.length
    ++ code.flatMap fun b => hexColumns 2 b.toNat)) = _
  simp only [Record.ofColumns?, hstart, hcount, hcode, hexNat?_word, hread, hexBytes?_flatMap,
    BitVec.ofNat_toNat, BitVec.setWidth_eq]
  simp [maxTextBytes, h]
  omega

theorem ofColumns?_end (entry : Word) :
    Record.ofColumns? (Record.end_ entry).columns = some (.end_ entry) := by
  simp [Record.columns, Record.ofColumns?, hexNat?_word]

/-- Settles O59: the three records, a Header's name by its columns. -/
theorem recordColumnsReadBack : Obligations.RecordColumnsReadBack := by
  refine ⟨fun r hname hcode => ?readBack, fun name start length => ?header⟩
  case readBack =>
    cases r with
    | header name start length =>
      rw [ofColumns?_header, nameColumns_of_length (hname name start length rfl)]
    | text start code => exact ofColumns?_text start (hcode start code rfl)
    | end_ entry => exact ofColumns?_end entry
  case header =>
    exact ⟨nameColumns name, length_nameColumns name, fun k => nameColumns_getElem? name,
      length_header_columns name start length, ofColumns?_header name start length⟩

end Sys2Proof.Machine
